-- ==== Sys2Proof/Word.lean ====
section
/-! DEFINITION. The word types of the block: 64-bit registers and command words, 8-bit message bytes. -/

namespace Sys2Proof

/-- A host-visible or generator-private register, and a command word: 64 bits (R21, R43, R80). -/
abbrev Word := BitVec 64

/-- A byte of message memory, of the entropy port, or of the generator's stream (R60, R160, R37). -/
abbrev Byte := BitVec 8

end Sys2Proof
end

