-- ==== Sys2Proof/Syntax.lean ====
section
/-! DEFINITION. The commands of the PRVC command set, one constructor per row of spec/opcode_table.json (R89), with
the operands of R87. -/

namespace Sys2Proof

/-- The generator's word width, `G.GW` and the `GW` field of `GINIT` (R31, R87). -/
inductive GenWidth where
  | w32
  | w64
deriving DecidableEq, Repr

/-- The commands (R89). `inj` is the `I` field; `addr` the `ADDR` field, a message-memory address; `len` the `L` field,
a number of bytes; `fb` the `FB` field; `prewarm` the `P` field. -/
inductive Instr where
  | rnda2 (inj : Bool)
  | rnda4 (inj : Bool)
  | rnda8 (inj : Bool)
  | rnda16 (inj : Bool)
  | rnda32 (inj : Bool)
  | rnda64 (inj : Bool)
  | rndb2 (inj : Bool)
  | rndb64 (inj : Bool)
  | ldw32 (addr : Nat)
  | ldw64 (addr : Nat)
  | ldp64 (addr : Nat) (len : Nat) (fb : Byte)
  | ginit (gw : GenWidth) (prewarm : Bool)
  | gnext
  | gfinal
deriving DecidableEq, Repr

end Sys2Proof
end

