-- ==== Sys2Proof/WellFormed.lean ====
section
/-! DEFINITION. When a command has an encoding: each numeric operand fits its field (R87, R95). -/

namespace Sys2Proof

/-- `ADDR` is a 16-bit field (R81): an address above 0xFFFF is refused. -/
def addrFits (addr : Nat) : Bool := addr < 65536

/-- `L` is a 3-bit field (R81): a length above 7 is refused. -/
def lenFits (len : Nat) : Bool := len < 8

/-- The operands of the command fit their fields. -/
def Instr.wf : Instr → Bool
  | .rnda2 _ => true
  | .rnda4 _ => true
  | .rnda8 _ => true
  | .rnda16 _ => true
  | .rnda32 _ => true
  | .rnda64 _ => true
  | .rndb2 _ => true
  | .rndb64 _ => true
  | .ldw32 addr => addrFits addr
  | .ldw64 addr => addrFits addr
  | .ldp64 addr len _ => addrFits addr && lenFits len
  | .ginit _ _ => true
  | .gnext => true
  | .gfinal => true

end Sys2Proof
end

