-- ==== Sys2Proof/Decode.lean ====
section
/-! DEFINITION. The command word: fields, formats, the opcode table, the total decoder of R94 and, after it, the
encoder, both written from 30_encoding. -/

namespace Sys2Proof

/-- `OPC = v[7:0]` (R81). -/
def fieldOPC (v : Word) : Byte := v.extractLsb' 0 8

/-- `I = v[8]` (R81, R87). -/
def fieldI (v : Word) : Bool := v.getLsbD 8

/-- `GW = v[12]`: 0 selects the 32-bit generator, 1 the 64-bit one (R87). -/
def fieldGW (v : Word) : GenWidth := if v.getLsbD 12 then .w64 else .w32

/-- `P = v[13]` (R81, R87). -/
def fieldP (v : Word) : Bool := v.getLsbD 13

/-- `L = v[18:16]`, unsigned (R87). -/
def fieldL (v : Word) : Nat := (v.extractLsb' 16 3).toNat

/-- `FB = v[31:24]` (R87). -/
def fieldFB (v : Word) : Byte := v.extractLsb' 24 8

/-- `ADDR = v[47:32]`, unsigned (R87). -/
def fieldADDR (v : Word) : Nat := (v.extractLsb' 32 16).toNat

/-- The five command formats (R82 to R86). -/
inductive Format where
  | R
  | M
  | P
  | G
  | N
deriving DecidableEq, Repr

/-- The mask of the bits of a command word that its format fixes (R82 to R86). -/
def Format.mask : Format → Word
  | .R => 0xFFFFFFFFFFFFFEFF#64
  | .M => 0xFFFF0000FFFFFFFF#64
  | .P => 0xFFFF000000F8FFFF#64
  | .G => 0xFFFFFFFFFFFFCFFF#64
  | .N => 0xFFFFFFFFFFFFFFFF#64

/-- One row of the opcode table (R89): its opcode, its format, and the command its fields make. -/
structure Row where
  opc : Byte
  format : Format
  build : Word → Instr

/-- The value of the fixed bits of a row: its opcode, and 0 in every reserved bit (R89). -/
def Row.fixed (r : Row) : Word := r.opc.setWidth 64

/-- The assigned opcodes (R89). -/
def opcodeTable : List Row :=
  [ ⟨0x11#8, .R, fun v => .rnda2 (fieldI v)⟩,
    ⟨0x12#8, .R, fun v => .rnda4 (fieldI v)⟩,
    ⟨0x13#8, .R, fun v => .rnda8 (fieldI v)⟩,
    ⟨0x14#8, .R, fun v => .rnda16 (fieldI v)⟩,
    ⟨0x15#8, .R, fun v => .rnda32 (fieldI v)⟩,
    ⟨0x16#8, .R, fun v => .rnda64 (fieldI v)⟩,
    ⟨0x21#8, .R, fun v => .rndb2 (fieldI v)⟩,
    ⟨0x26#8, .R, fun v => .rndb64 (fieldI v)⟩,
    ⟨0x35#8, .M, fun v => .ldw32 (fieldADDR v)⟩,
    ⟨0x36#8, .M, fun v => .ldw64 (fieldADDR v)⟩,
    ⟨0x3E#8, .P, fun v => .ldp64 (fieldADDR v) (fieldL v) (fieldFB v)⟩,
    ⟨0x40#8, .G, fun v => .ginit (fieldGW v) (fieldP v)⟩,
    ⟨0x41#8, .N, fun _ => .gnext⟩,
    ⟨0x42#8, .N, fun _ => .gfinal⟩ ]

/-- Why a word is no command. -/
inductive Illegal where
  /-- The opcode is in no row of the table (R90, R91). -/
  | reservedOpcode (opc : Byte)
  /-- The opcode is assigned and a reserved bit is set (R92). -/
  | reservedBits (opc : Byte)
deriving DecidableEq, Repr

/-- Decoding, total on every 64-bit word (R94): the row of the opcode, then the check of the fixed bits. -/
def decode (v : Word) : Except Illegal Instr :=
  match opcodeTable.find? (fun r => r.opc == fieldOPC v) with
  | none => .error (.reservedOpcode (fieldOPC v))
  | some r => if v &&& r.format.mask = r.fixed then .ok (r.build v) else .error (.reservedBits r.opc)

/-- The bit of a one-bit field. -/
def bitOf (b : Bool) : BitVec 1 := BitVec.ofBool b

/-- The `GW` bit of a generator width (R87). -/
def GenWidth.bit : GenWidth → BitVec 1
  | .w32 => 0#1
  | .w64 => 1#1

/-- Format R: `0 | I | OPC` (R82). -/
def encodeR (opc : Byte) (inj : Bool) : Word := 0#55 ++ bitOf inj ++ opc

/-- Format M: `0 | ADDR | 0 | OPC` (R83). -/
def encodeM (opc : Byte) (addr : Nat) : Word := 0#16 ++ BitVec.ofNat 16 addr ++ 0#24 ++ opc

/-- Format P: `0 | ADDR | FB | 0 | L | 0 | OPC` (R84). -/
def encodeP (opc : Byte) (addr len : Nat) (fb : Byte) : Word :=
  0#16 ++ BitVec.ofNat 16 addr ++ fb ++ 0#5 ++ BitVec.ofNat 3 len ++ 0#8 ++ opc

/-- Format G: `0 | P | GW | 0 | OPC` (R85). -/
def encodeG (opc : Byte) (gw : GenWidth) (prewarm : Bool) : Word :=
  0#50 ++ bitOf prewarm ++ gw.bit ++ 0#4 ++ opc

/-- Format N: `0 | OPC` (R86). -/
def encodeN (opc : Byte) : Word := 0#56 ++ opc

/-- The word of a command, from the layouts of R82 to R86 and the opcodes of R89. -/
def encode : Instr → Word
  | .rnda2 inj => encodeR 0x11#8 inj
  | .rnda4 inj => encodeR 0x12#8 inj
  | .rnda8 inj => encodeR 0x13#8 inj
  | .rnda16 inj => encodeR 0x14#8 inj
  | .rnda32 inj => encodeR 0x15#8 inj
  | .rnda64 inj => encodeR 0x16#8 inj
  | .rndb2 inj => encodeR 0x21#8 inj
  | .rndb64 inj => encodeR 0x26#8 inj
  | .ldw32 addr => encodeM 0x35#8 addr
  | .ldw64 addr => encodeM 0x36#8 addr
  | .ldp64 addr len fb => encodeP 0x3E#8 addr len fb
  | .ginit gw prewarm => encodeG 0x40#8 gw prewarm
  | .gnext => encodeN 0x41#8
  | .gfinal => encodeN 0x42#8

/-- The 64-bit command word whose low `nbits` bits are those of `w`, every bit above them 0. A command is one 64-bit
value, so the table's numbering of its bits is the register's own (R80, R81). -/
def tableWord (nbits w : Nat) : Word := BitVec.ofNat 64 (w % 2 ^ nbits)

/-- The command the decoder reads from the bits `w` of an opcode-table row. -/
def decodeTableWord (nbits w : Nat) : Option Instr :=
  match decode (tableWord nbits w) with
  | .ok i => some i
  | .error _ => none

end Sys2Proof
end

