-- ==== Sys2Proof/Config.lean ====
section
/-! DEFINITION. The implementation parameters of 00_scope R8, and the values that no source gives, as constants
without a body. -/

namespace Sys2Proof

/-- `P_BSWAP2`, the byte reversal of variant B at W = 2 (R121). -/
inductive Bswap2 where
  | identity
  | bitswap
deriving DecidableEq, Repr

/-- The implementation parameters (R8). A state carries one such record and no step changes it, so a statement over
every state is a statement over every implementation. -/
structure Params where
  /-- `P_MSGMEM_BYTES`, the size of the message memory in bytes. -/
  msgBytes : Nat
  /-- `P_BSWAP2`. -/
  bswap2 : Bswap2
  /-- `P_GEN_SEED0_32`. -/
  genSeed32 : BitVec 32
  /-- `P_GEN_LCG0_32`. -/
  genLcg32 : BitVec 32
  /-- `P_GEN_SEED0_64`. -/
  genSeed64 : BitVec 64
  /-- `P_GEN_LCG0_64`. -/
  genLcg64 : BitVec 64
deriving DecidableEq, Repr

/-- The constraints of R8: the memory size lies in [8, 65536], and the generator's two constants of one width are
non-zero and differ. -/
abbrev Params.wf (p : Params) : Prop :=
  8 ≤ p.msgBytes ∧ p.msgBytes ≤ 65536 ∧
    p.genSeed32 ≠ 0 ∧ p.genLcg32 ≠ 0 ∧ p.genSeed32 ≠ p.genLcg32 ∧
    p.genSeed64 ≠ 0 ∧ p.genLcg64 ≠ 0 ∧ p.genSeed64 ≠ p.genLcg64

/-- An unconstrained choice behind the OPEN constants of R8 (D16). -/
opaque Config.rawSeed32 : BitVec 32
/-- An unconstrained choice behind the OPEN constants of R8 (D16). -/
opaque Config.rawLcg32 : BitVec 32
/-- An unconstrained choice behind the OPEN constants of R8 (D16). -/
opaque Config.rawSeed64 : BitVec 64
/-- An unconstrained choice behind the OPEN constants of R8 (D16). -/
opaque Config.rawLcg64 : BitVec 64

/-- What the unwritten message byte at an address reads as, under one of the unspecified contents of the message memory:
a free value (R62, R242, D8). The contents are numbered; they are others after each reset. -/
opaque Config.unwrittenByte : (contents addr : Nat) → BitVec 8

/-- A value other than 0: `raw` itself wherever `raw` is admissible. -/
def Config.nonzero {w : Nat} (raw : BitVec w) : BitVec w :=
  if raw = 0 then 1 else raw

/-- A value other than 0 and other than `avoid`: `raw` itself wherever `raw` is admissible. -/
def Config.nonzeroOtherThan {w : Nat} (avoid raw : BitVec w) : BitVec w :=
  if raw ≠ 0 ∧ raw ≠ avoid then raw else if avoid = 1 then 2 else 1

/-- The parameters of the implementation that `State.reset` describes: the spec's defaults where R8 gives one, and for
the four OPEN constants every admissible choice at once (D7, D15, D16). -/
def Config.params : Params where
  msgBytes := 65536
  bswap2 := .identity
  genSeed32 := Config.nonzero Config.rawSeed32
  genLcg32 := Config.nonzeroOtherThan (Config.nonzero Config.rawSeed32) Config.rawLcg32
  genSeed64 := Config.nonzero Config.rawSeed64
  genLcg64 := Config.nonzeroOtherThan (Config.nonzero Config.rawSeed64) Config.rawLcg64

end Sys2Proof
end

