-- ==== Sys2Proof/Machine/State.lean ====
section
/-! DEFINITION. The state of the block and of the outside world's moves as plain data, the reasons a step can stop, and
the state after reset. -/

namespace Sys2Proof.Machine

/-- The model faults of 60_exceptions R215. They are not hardware errors. -/
inductive Fault where
  /-- `UNWRITTEN_READ` (R62): a loader, or a host `MEM_RD`, read the byte at `addr`, which nothing has written since
  reset. Recorded in `State.faults`, where it stays (R215); the machine goes on with a free byte. No step ends with it.
  Safe: the byte is opaque, so no claim can rest on its value. -/
  | unwrittenRead (addr : Nat)
deriving DecidableEq, Repr

/-- Why a step has no meaning. Neither of the two moves of the outside world is an instruction. -/
inductive Refusal where
  /-- A command whose meaning is not written. No arm of `exec` raises it. Safe. -/
  | notModelled (mnemonic : String)
  /-- Raised by a step whose next event is a host transaction while another one is held: the host presents one
  transaction at a time (93_implementation_defined S5, R191, R199). Safe: the run stops. -/
  | secondTransaction
  /-- Raised by a step whose next event is an agent's answer while no request of its kind is outstanding (R160, R161).
  A late answer to an abandoned request is another event, and is ignored (R243). Safe: the run stops. -/
  | unsolicitedAnswer
deriving DecidableEq, Repr

/-- The error codes of R210. Codes 5 to 15 do not exist. -/
inductive ErrCode where
  | ok
  | illegalCmd
  | genState
  | memBounds
  | sourceUnavailable
deriving DecidableEq, Repr

/-- The generator's lifecycle state (R30). -/
inductive GState where
  | uninit
  | ready
  | terminated
deriving DecidableEq, Repr

/-- The two round functions (R3). -/
inductive Variant where
  | A
  | B
deriving DecidableEq, Repr

/-- The word widths of the round core (R3). -/
inductive Width where
  | w2
  | w4
  | w8
  | w16
  | w32
  | w64
deriving DecidableEq, Repr

/-- The number of bits of a width. -/
abbrev Width.bits : Width → Nat
  | .w2 => 2
  | .w4 => 4
  | .w8 => 8
  | .w16 => 16
  | .w32 => 32
  | .w64 => 64

/-- The generator's private state (R29 to R36). -/
structure Gen where
  /-- `G.State` (R30). -/
  state : GState
  /-- `G.GW` (R31). -/
  gw : GenWidth
  /-- `G.SEED` (R32). -/
  seed : Word
  /-- `G.LCG` (R32). -/
  lcg : Word
  /-- `G.HASH` (R32). -/
  hash : Word
  /-- `G.EntCtr`, refills before the next injection (R33). -/
  entCtr : BitVec 12
  /-- `G.HashLeft`, bytes of the word not yet emitted (R34). -/
  hashLeft : BitVec 4
  /-- `G.LastHash`, the shift buffer (R35). -/
  lastHash : Word
  /-- `G.Owned`, the source is held (R36). -/
  owned : Bool
deriving DecidableEq, Repr

/-- The command in flight with its point of progress (R39). What a command computes before it commits lives here,
not in the registers it will write (R17). -/
inductive Pending where
  /-- The command word `word` has been accepted and its execution has not begun (R192). -/
  | issued (word : Word)
  /-- `GINIT` waits on `EntOpen` (R165). -/
  | ginitOpen (gw : GenWidth) (prewarm : Bool)
  /-- `GINIT` waits on the `EntRead` of a prewarm round; `left` rounds remain and `work` is the instance so far (R166). -/
  | ginitPrewarm (left : Nat) (work : Gen)
  /-- `GNEXT` waits on the schedule byte `e` (R172). -/
  | gnextSchedule
  /-- `GNEXT` has drawn the schedule byte `e` and waits on the byte `msg` (R172). -/
  | gnextMessage (e : Byte)
deriving DecidableEq, Repr

/-- The outstanding request on the entropy port (R40). -/
inductive EntReq where
  | openSource
  | readByte
deriving DecidableEq, Repr

/-- What the block puts on the entropy port (R160). -/
inductive PortMsg where
  | entOpen
  | entRead
  | entClose
deriving DecidableEq, Repr

/-- The agent's answer to a request (R160, R163). -/
inductive Answer where
  /-- `EntOpen` answered: true is OK, false is UNAVAILABLE. -/
  | opened (ok : Bool)
  /-- `EntRead` answered with a byte. -/
  | byte (b : Byte)
deriving DecidableEq, Repr

/-- The four host transactions (R190). -/
inductive Transaction where
  | regRd (i : BitVec 8)
  | regWr (i : BitVec 8) (v : Word)
  | memRd (a : BitVec 16)
  | memWr (a : BitVec 16) (b : Byte)
deriving DecidableEq, Repr

/-- What a host read returned (R190). -/
inductive Response where
  | word (v : Word)
  | byte (b : Byte)
deriving DecidableEq, Repr

/-- A move of the outside world. -/
inductive Event where
  /-- The host presents a transaction (R191). -/
  | host (t : Transaction)
  /-- The agent answers the outstanding request (R161). -/
  | answer (a : Answer)
  /-- The agent answers a request that a reset has abandoned (R243). -/
  | late (a : Answer)
  /-- Reset is asserted and released (R240). -/
  | reset
  /-- A moment in which the outside world does nothing. A transaction that the interface holds can be accepted in it, so
  that a reset can come after that acceptance as well as before it (R193, R240). -/
  | pause
deriving DecidableEq, Repr

/-- Message memory: the written bytes, each with its address, addresses strictly rising. A byte that is not listed is
unwritten (R62). -/
abbrev Memory := List Host.Cell

/-- The state of the block (10_state), the parameters it was built with (R8), and the outside world's moves. -/
structure State where
  /-- The implementation parameters (R8). -/
  params : Params
  /-- `SEED` (R21). -/
  seed : Word
  /-- `LCG` (R21). -/
  lcg : Word
  /-- `HASH` (R21). -/
  hash : Word
  /-- `OUT` (R25). -/
  out : Word
  /-- `MSG` (R26). -/
  msg : Word
  /-- `GBYTE` (R37). -/
  gbyte : Word
  /-- `STATUS.ESTK` (R45). -/
  estk : Bool
  /-- `STATUS.ERR` (R45, R210). -/
  err : ErrCode
  /-- `MSGMEM` (R60, R62). -/
  mem : Memory
  /-- The generator (R29). -/
  gen : Gen
  /-- `Pending` (R39). -/
  pending : Option Pending
  /-- `EntReq` (R40). -/
  entReq : Option EntReq
  /-- The host transaction the interface holds (R193). -/
  held : Option Transaction
  /-- Ghost `Lineage` (R42). -/
  lineage : Option (Variant × Width)
  /-- Ghost `MIXED` (R42). -/
  mixed : Bool
  /-- The model faults recorded so far (R215). -/
  faults : List Fault
  /-- The model's own: the number of the unspecified contents that the unwritten bytes have (R62, R242). Reads leave it as
  it is, so that reading a byte again gives the same byte (R71); a reset advances it. -/
  memContents : Nat
  /-- The model's own: the outside world's coming moves, the next one first. -/
  env : List Event
  /-- The model's own: the values the host's reads returned, the first one first (R200). -/
  hostOut : List Response
  /-- The model's own: what the block put on the entropy port, the first message first (R160). -/
  portOut : List PortMsg
deriving DecidableEq, Repr

/-- The generator after reset (R51). -/
def Gen.reset : Gen where
  state := .uninit
  gw := .w32
  seed := 0
  lcg := 0
  hash := 0
  entCtr := 0
  hashLeft := 0
  lastHash := 0
  owned := false

/-- The block right after reset (R51), with the spec's default parameters (R8) and no event to come. -/
def State.reset : State where
  params := Config.params
  seed := 0
  lcg := 0
  hash := 0
  out := 0
  msg := 0
  gbyte := 0
  estk := false
  err := .ok
  mem := []
  gen := Gen.reset
  pending := none
  entReq := none
  held := none
  lineage := none
  mixed := false
  faults := []
  memContents := 0
  env := []
  hostOut := []
  portOut := []

end Sys2Proof.Machine
end

