-- ==== Sys2Proof/Machine/Ops.lean ====
section
/-! DEFINITION. The named operations over message memory, the fault set, command completion, errors and the entropy
port. -/

namespace Sys2Proof.Machine

/-- The byte at `a`; none when it is unwritten (R62). -/
def Memory.read : Memory → Nat → Option Byte
  | [], _ => none
  | (k, b) :: m, a => if a = k then some b else Memory.read m a

/-- The byte at `a` becomes `b`, and is written (R196). The rising order of the addresses is kept. -/
def Memory.write : Memory → Nat → Byte → Memory
  | [], a, b => [(a, b)]
  | (k, c) :: m, a, b =>
    if a < k then (a, b) :: (k, c) :: m
    else if a = k then (a, b) :: m
    else (k, c) :: Memory.write m a b

/-- The canonical form: the addresses rise strictly. -/
abbrev Memory.wf (m : Memory) : Prop := (m.map Prod.fst).Pairwise (· < ·)

/-- The lowest unwritten address among the `n` addresses from `a` up (R62). -/
def Memory.firstUnwritten (m : Memory) (a : Nat) : Nat → Option Nat
  | 0 => none
  | n + 1 => if (Memory.read m a).isNone then some a else Memory.firstUnwritten m (a + 1) n

/-- A fault enters the fault set (R215). -/
def addFault (f : Fault) (fs : List Fault) : List Fault := if f ∈ fs then fs else fs ++ [f]

/-- The byte at `a` as the hardware returns it: as written, or, unwritten, a free byte that stays the same until the byte
is written or a reset comes (R62, R71, R242). -/
def State.messageByte (s : State) (a : Nat) : Byte :=
  match s.mem.read a with
  | some b => b
  | none => Config.unwrittenByte s.memContents a

/-- `MemRead(a, n)`: the bytes at `a`, `a + 1`, ..., `a + n - 1` in that order (R15). -/
def State.messageBytes (s : State) (a : Nat) : Nat → List Byte
  | 0 => []
  | n + 1 => s.messageByte a :: State.messageBytes s (a + 1) n

/-- What a read of the `n` bytes from `a` records: `UNWRITTEN_READ` with the first unwritten address when there is one
(R62, R215). Nothing else changes (R71). -/
def State.recordRead (a n : Nat) (s : State) : State :=
  { s with
    faults := match s.mem.firstUnwritten a n with
      | some u => addFault (.unwrittenRead u) s.faults
      | none => s.faults }

/-- A command raises an error: `STATUS.ERR <- code`, `STATUS.ESTK <- 1`, the command is complete, and nothing else
changes (R16, R212). The block has no trap: this is all that taking an error is (R217). -/
def State.raise (code : ErrCode) (s : State) : State :=
  { s with err := code, estk := true, pending := none }

/-- A command succeeds: `STATUS.ERR <- 0`, `ESTK` is kept, the command is complete (R213, R192). -/
def State.succeed (s : State) : State :=
  { s with err := .ok, pending := none }

/-- The host's write of 1 to bit 1 of `STATUS` clears the sticky error; it is the only clearing action (R195, R219). -/
def State.clearSticky (s : State) : State :=
  { s with estk := false }

/-- The message a request puts on the entropy port (R160). -/
def EntReq.message : EntReq → PortMsg
  | .openSource => .entOpen
  | .readByte => .entRead

/-- The command engine issues a request and waits, the command in flight at the point `p` (R161). -/
def State.request (r : EntReq) (p : Pending) (s : State) : State :=
  { s with entReq := some r, pending := some p, portOut := s.portOut ++ [r.message] }

/-- The outstanding request is answered (R161). -/
def State.answered (s : State) : State :=
  { s with entReq := none }

/-- `EntClose()`: a one-way notice; the source is no longer held (R160, R180). -/
def State.closeSource (s : State) : State :=
  { s with portOut := s.portOut ++ [.entClose], gen := { s.gen with owned := false } }

/-- A successful round command of variant `v` and width `w` leaves its mark in the ghosts (R42). -/
def State.markLineage (v : Variant) (w : Width) (s : State) : State :=
  { s with
    mixed := s.mixed || (s.lineage.isSome && s.lineage != some (v, w))
    lineage := some (v, w) }

/-- Reset (R240 to R243, R51): every piece of the block's state takes its reset value, a command in flight is abandoned
and a held transaction dropped; when the source is held, one `EntClose` goes out (R243). The message memory is unwritten
again, its contents others than before (R242). The parameters, the fault set (R215) and the outside world's history and
coming moves are not the block's to reset. -/
def State.applyReset (s : State) : State :=
  { State.reset with
    params := s.params
    faults := s.faults
    memContents := s.memContents + 1
    env := s.env
    hostOut := s.hostOut
    portOut := if s.gen.owned then s.portOut ++ [.entClose] else s.portOut }

end Sys2Proof.Machine
end

