-- ==== Sys2Proof/Machine/Operands.lean ====
section
/-! DEFINITION. Operand forms: the W-bit view of a register, injection, zero extension, half-word rotation, byte
reversal, the little-endian word of a byte sequence, and the padded word. -/

namespace Sys2Proof.Machine

/-- The W-bit view of a register: bits `[w-1:0]` (R22, R111). -/
def view (w : Nat) (r : Word) : BitVec w := r.setWidth w

/-- `zext_64` (R13, R22). -/
def zext64 {w : Nat} (x : BitVec w) : Word := x.setWidth 64

/-- The `lcg` operand of a round command: with I = 1, `MSG[w-1:0]` is XORed into it (R111). -/
def lcgOperand (w : Nat) (inj : Bool) (s : State) : BitVec w :=
  if inj then view w s.lcg ^^^ view w s.msg else view w s.lcg

/-- `rot_W(x, W/2)` (R12). -/
def rotHalf {w : Nat} (x : BitVec w) : BitVec w := (x >>> (w / 2)) ||| (x <<< (w / 2))

/-- `bswap_64`: the 8 bytes in reverse order (R12, R121). -/
def bswap64 (x : BitVec 64) : BitVec 64 :=
  x.extractLsb' 0 8 ++ x.extractLsb' 8 8 ++ x.extractLsb' 16 8 ++ x.extractLsb' 24 8 ++
    x.extractLsb' 32 8 ++ x.extractLsb' 40 8 ++ x.extractLsb' 48 8 ++ x.extractLsb' 56 8

/-- `bswap_2` under the parameter `P_BSWAP2`: the identity, or `(x[0] << 1) or x[1]` (R121). -/
def bswap2 (p : Bswap2) (x : BitVec 2) : BitVec 2 :=
  match p with
  | .identity => x
  | .bitswap => x.extractLsb' 0 1 ++ x.extractLsb' 1 1

/-- `LE(bytes)`: the sum of `bytes[i] * 2^(8*i)` (R15, R63). -/
def littleEndian : List Byte → Nat
  | [] => 0
  | b :: bs => b.toNat + 256 * littleEndian bs

/-- The word of a loader: `zext_64(LE(b))` (R142, R143). -/
def loadedWord (bs : List Byte) : Word := BitVec.ofNat 64 (littleEndian bs)

/-- The padded word: `LE(b) or (zext_64(FB) << (8 * n))` (R144). -/
def paddedWord (bs : List Byte) (n : Nat) (fb : Byte) : Word := loadedWord bs ||| (zext64 fb <<< (8 * n))

end Sys2Proof.Machine
end

