-- ==== Sys2Proof/Machine/Flags.lean ====
section
/-! DEFINITION. The read-only words the host sees: `STATUS` with every field, `ID`, `CAPS`. The block has no arithmetic
flag (R49). -/

namespace Sys2Proof.Machine

/-- The code of an error (R210). -/
def ErrCode.code : ErrCode → BitVec 4
  | .ok => 0#4
  | .illegalCmd => 1#4
  | .genState => 2#4
  | .memBounds => 3#4
  | .sourceUnavailable => 4#4

/-- The code of a lifecycle state (R30). -/
def GState.code : GState → BitVec 2
  | .uninit => 0#2
  | .ready => 1#2
  | .terminated => 2#2

/-- The bit of `G.GW` in `STATUS`: 0 means 32, 1 means 64 (R31). -/
def gwStatusBit : GenWidth → BitVec 1
  | .w32 => 0#1
  | .w64 => 1#1

/-- `STATUS.BUSY`: a command is in flight (R39). -/
def State.busy (s : State) : Bool := s.pending.isSome

/-- `STATUS` (R45): reserved [63:12], `ERR` [11:8], reserved [7:5], `GW` [4], `GSTATE` [3:2], `ESTK` [1], `BUSY` [0]. -/
def State.status (s : State) : Word :=
  0#52 ++ s.err.code ++ 0#3 ++ gwStatusBit s.gen.gw ++ s.gen.state.code ++ BitVec.ofBool s.estk ++ BitVec.ofBool s.busy

/-- `ID` (R46). -/
def idWord : Word := 0x0000000148565250#64

/-- The bit of `P_BSWAP2` in `CAPS` (R47). -/
def bswap2CapsBit : Bswap2 → BitVec 1
  | .identity => 0#1
  | .bitswap => 1#1

/-- `CAPS` (R47): reserved [63:18], `P_BSWAP2` [17], `P_MSGMEM_BYTES` [16:0]. -/
def capsWord (p : Params) : Word := 0#46 ++ bswap2CapsBit p.bswap2 ++ BitVec.ofNat 17 p.msgBytes

end Sys2Proof.Machine
end

