-- ==== Sys2Proof/Machine/RoundCore.lean ====
section
/-! DEFINITION. The round core (40_round_core): the two round functions at every width, and the eight round
commands. -/

namespace Sys2Proof.Machine

/-- What a round produces: the new triple and the output word (R110). -/
structure RoundResult (w : Nat) where
  seed : BitVec w
  lcg : BitVec w
  hash : BitVec w
  out : BitVec w
deriving DecidableEq, Repr

/-- The round multiplier `l - ~l` (R113). -/
def multiplier {w : Nat} (l : BitVec w) : BitVec w := l - ~~~l

/-- `roundA_W` (R114); `l` is the value after any injection. -/
def roundA {w : Nat} (s l h : BitVec w) : RoundResult w :=
  let mx := s * multiplier l
  let rs := rotHalf mx
  let l' := l + ~~~mx
  let h' := h + rs
  { seed := h' ^^^ l, lcg := l', hash := h', out := l' ^^^ rs }

/-- `roundB_W` over the byte reversal `bswap` of its width (R122). -/
def roundB {w : Nat} (bswap : BitVec w → BitVec w) (s l h : BitVec w) : RoundResult w :=
  let s' := (s ^^^ h ^^^ l) * multiplier l
  let l' := l + ~~~s'
  let rs := bswap s'
  { seed := s', lcg := l', hash := h + rs, out := l' ^^^ rs }

/-- The commit of a round command: the four registers zero-extended, the ghosts, `STATUS.ERR <- 0` (R22, R42, R126). -/
def State.commitRound (v : Variant) (w : Width) (r : RoundResult w.bits) (s : State) : State :=
  ({ s with
    seed := zext64 r.seed
    lcg := zext64 r.lcg
    hash := zext64 r.hash
    out := zext64 r.out }.markLineage v w).succeed

/-- A variant A command of width `w`: operand fetch and injection, round, commit (R111, R114). -/
def roundCommandA (w : Width) (inj : Bool) (s : State) : State :=
  s.commitRound .A w (roundA (view w.bits s.seed) (lcgOperand w.bits inj s) (view w.bits s.hash))

/-- A variant B command of width `w` over the byte reversal of its width (R111, R122). -/
def roundCommandB (w : Width) (bswap : BitVec w.bits → BitVec w.bits) (inj : Bool) (s : State) : State :=
  s.commitRound .B w (roundB bswap (view w.bits s.seed) (lcgOperand w.bits inj s) (view w.bits s.hash))

/-- `RNDA.2` (R115). -/
def execRnda2 (inj : Bool) (s : State) : Host.Outcome State Fault Refusal := .next (roundCommandA .w2 inj s)

/-- `RNDA.4` (R116). -/
def execRnda4 (inj : Bool) (s : State) : Host.Outcome State Fault Refusal := .next (roundCommandA .w4 inj s)

/-- `RNDA.8` (R117). -/
def execRnda8 (inj : Bool) (s : State) : Host.Outcome State Fault Refusal := .next (roundCommandA .w8 inj s)

/-- `RNDA.16` (R118). -/
def execRnda16 (inj : Bool) (s : State) : Host.Outcome State Fault Refusal := .next (roundCommandA .w16 inj s)

/-- `RNDA.32` (R119). -/
def execRnda32 (inj : Bool) (s : State) : Host.Outcome State Fault Refusal := .next (roundCommandA .w32 inj s)

/-- `RNDA.64` (R120). -/
def execRnda64 (inj : Bool) (s : State) : Host.Outcome State Fault Refusal := .next (roundCommandA .w64 inj s)

/-- `RNDB.2`, its byte reversal the parameter `P_BSWAP2` (R121, R123). -/
def execRndb2 (inj : Bool) (s : State) : Host.Outcome State Fault Refusal :=
  .next (roundCommandB .w2 (bswap2 s.params.bswap2) inj s)

/-- `RNDB.64` (R124). -/
def execRndb64 (inj : Bool) (s : State) : Host.Outcome State Fault Refusal :=
  .next (roundCommandB .w64 bswap64 inj s)

end Sys2Proof.Machine
end

