-- ==== Sys2Proof/Machine/Entropy.lean ====
section
/-! DEFINITION. The generator datapath (42_generator section 3), what each of the agent's answers does to the command
that waits on it, and the command engine's run through the answers that come next. -/

namespace Sys2Proof.Machine

/-- The width of the generator's words in bits (R31). -/
abbrev genBits : GenWidth → Nat
  | .w32 => 32
  | .w64 => 64

/-- The bytes of a generator word, 4 or 8; also the factor of the schedule formula (R171, R172). -/
def genBytes : GenWidth → Nat
  | .w32 => 4
  | .w64 => 8

/-- A generator round: variant A on the low `w` bits of the generator's triple, results zero-extended, the output word
discarded (R170). -/
def Gen.round (g : Gen) : Gen :=
  let r := roundA (view (genBits g.gw) g.seed) (view (genBits g.gw) g.lcg) (view (genBits g.gw) g.hash)
  { g with seed := zext64 r.seed, lcg := zext64 r.lcg, hash := zext64 r.hash }

/-- An entropy byte is XORed, zero-extended, into the generator's `lcg` (R169). -/
def Gen.inject (b : Byte) (g : Gen) : Gen := { g with lcg := g.lcg ^^^ zext64 b }

/-- The schedule formula: `G.EntCtr <- (e + 1) * 4` or `(e + 1) * 8` (R171). -/
def Gen.schedule (e : Byte) (g : Gen) : Gen :=
  { g with entCtr := BitVec.ofNat 12 ((e.toNat + 1) * genBytes g.gw) }

/-- The part of a refill after the draws: injection, round, counters and buffer (R172). -/
def Gen.refill (msg : Byte) (g : Gen) : Gen :=
  let r := (g.inject msg).round
  { r with
    hashLeft := BitVec.ofNat 4 (genBytes r.gw)
    lastHash := zext64 (view (genBits r.gw) r.hash)
    entCtr := r.entCtr - 1 }

/-- The byte a `GNEXT` emits: bits [7:0] of `G.LastHash` (R172). -/
def Gen.emitted (g : Gen) : Byte := g.lastHash.extractLsb' 0 8

/-- The generator after an emission: the buffer shifted by a byte, one byte fewer left (R172). -/
def Gen.afterEmit (g : Gen) : Gen := { g with lastHash := g.lastHash >>> 8, hashLeft := g.hashLeft - 1 }

/-- The end of every successful `GNEXT`: emission from the generator `g` and commit (R172). -/
def State.emit (g : Gen) (s : State) : State :=
  { s with gbyte := zext64 g.emitted, gen := g.afterEmit }.succeed

/-- A new instance of width `gw` as `GINIT` sets it up, before any prewarm round and not yet ready (R165). -/
def Gen.fresh (p : Params) (gw : GenWidth) (g : Gen) : Gen :=
  { g with
    gw := gw
    hash := 0
    lcg := match gw with
      | .w32 => zext64 p.genLcg32
      | .w64 => p.genLcg64
    seed := match gw with
      | .w32 => zext64 p.genSeed32
      | .w64 => p.genSeed64
    entCtr := 0
    hashLeft := 0
    lastHash := 0 }

/-- The commit of `GINIT`: the instance becomes the generator, and is ready (R165). -/
def State.commitInstance (work : Gen) (s : State) : State :=
  { s with gen := { work with state := .ready } }.succeed

/-- The number of prewarm rounds (R8, R166). -/
def prewarmRounds : Nat := 32

/-- The source is held from the moment `EntOpen` answers OK (R36, R165). -/
def State.acquireSource (s : State) : State :=
  { s with gen := { s.gen with owned := true } }

/-- `GINIT` after `EntOpen` answered OK: the source is held; with prewarm the first round's byte is requested, without
it the instance is committed (R165). -/
def ginitOpened (gw : GenWidth) (prewarm : Bool) (s : State) : State :=
  let s1 := s.acquireSource
  let work := s1.gen.fresh s1.params gw
  if prewarm then s1.request .readByte (.ginitPrewarm prewarmRounds work) else s1.commitInstance work

/-- What the answer to `EntOpen` does (R165, R167). -/
def answerOpen (ok : Bool) (s : State) : State :=
  match s.pending with
  | some (.ginitOpen gw prewarm) => if ok then ginitOpened gw prewarm s else s.raise .sourceUnavailable
  | _ => s

/-- One prewarm round on the instance so far (R166). -/
def Gen.prewarmRound (b : Byte) (work : Gen) : Gen := (work.inject b).round

/-- `GINIT` after a prewarm byte, `left` rounds remaining before this one (R166). -/
def ginitPrewarmed (left : Nat) (work : Gen) (b : Byte) (s : State) : State :=
  if left ≤ 1 then s.commitInstance (work.prewarmRound b)
  else s.request .readByte (.ginitPrewarm (left - 1) (work.prewarmRound b))

/-- What the answer to `EntRead` does (R166, R172). -/
def answerRead (b : Byte) (s : State) : State :=
  match s.pending with
  | some (.ginitPrewarm left work) => ginitPrewarmed left work b s
  | some .gnextSchedule => s.request .readByte (.gnextMessage b)
  | some (.gnextMessage e) => s.emit ((s.gen.schedule e).refill b)
  | _ => s

/-- The command engine takes an answer of the kind it waits for: the request is no longer outstanding and the command
continues (R161). None when no such request is outstanding. -/
def takeAnswer (a : Answer) (s : State) : Option State :=
  match s.entReq, a with
  | some .openSource, .opened ok => some (answerOpen ok s.answered)
  | some .readByte, .byte b => some (answerRead b s.answered)
  | _, _ => none

/-- The command engine runs on through the answers that stand next among the coming events, and stops at the first
event that is none it waits for. No transaction lies between those answers, so none could see a state between them
(R74, R161). -/
def runEngine : List Event → State → State
  | [], s => { s with env := [] }
  | .answer a :: rest, s =>
    match takeAnswer a s with
    | some s' => runEngine rest s'
    | none => { s with env := .answer a :: rest }
  | .host t :: rest, s => { s with env := .host t :: rest }
  | .late a :: rest, s => { s with env := .late a :: rest }
  | .reset :: rest, s => { s with env := .reset :: rest }
  | .pause :: rest, s => { s with env := .pause :: rest }

end Sys2Proof.Machine
end

