-- ==== Sys2Proof/Machine/Generator.lean ====
section
/-! DEFINITION. The generator commands (42_generator): GINIT, GNEXT, GFINAL. A command that needs the agent issues its
request and goes as far as the answers that come next allow; otherwise it stays in flight. -/

namespace Sys2Proof.Machine

/-- `GINIT` (R165, R168): `GEN_STATE` in `READY`, without a request; else `EntOpen`. -/
def execGinit (gw : GenWidth) (prewarm : Bool) (s : State) : Host.Outcome State Fault Refusal :=
  if s.gen.state = .ready then .next (s.raise .genState)
  else .next (runEngine s.env (s.request .openSource (.ginitOpen gw prewarm)))

/-- `GNEXT` (R172): `GEN_STATE` unless `READY`; a byte left is emitted at once; a refill inside the schedule runs with
`msg = 0`; a refill at `EntCtr = 0` draws `e` and `msg` from the agent first. -/
def execGnext (s : State) : Host.Outcome State Fault Refusal :=
  if s.gen.state ≠ .ready then .next (s.raise .genState)
  else if s.gen.hashLeft ≠ 0 then .next (s.emit s.gen)
  else if s.gen.entCtr ≠ 0 then .next (s.emit (s.gen.refill 0))
  else .next (runEngine s.env (s.request .readByte .gnextSchedule))

/-- The generator's lifecycle ends (R180). -/
def State.terminate (s : State) : State :=
  { s with gen := { s.gen with state := .terminated } }

/-- `GFINAL` (R180): `GEN_STATE` unless `READY`; else the source is closed and the instance ends. -/
def execGfinal (s : State) : Host.Outcome State Fault Refusal :=
  if s.gen.state ≠ .ready then .next (s.raise .genState)
  else .next s.closeSource.terminate.succeed

end Sys2Proof.Machine
end

