-- ==== Sys2Proof/Machine/Loader.lean ====
section
/-! DEFINITION. The loader (41_loader): the common read and bounds rule, and the three loader commands. -/

namespace Sys2Proof.Machine

/-- A range of `n` bytes from `a` runs past the message memory; exact integers, no wrap-around (R68, R141). -/
def State.outOfBounds (s : State) (a n : Nat) : Bool := decide (a + n > s.params.msgBytes)

/-- The common rule of the loaders: the bounds check, then exactly the `n` bytes from `a`, the word `word` makes of
them into `MSG`, and success (R141). -/
def loaderCommand (a n : Nat) (word : List Byte → Word) (s : State) : State :=
  if s.outOfBounds a n then s.raise .memBounds
  else { s.recordRead a n with msg := word (s.messageBytes a n) }.succeed

/-- `LDW32` (R142). -/
def execLdw32 (addr : Nat) (s : State) : Host.Outcome State Fault Refusal :=
  .next (loaderCommand addr 4 loadedWord s)

/-- `LDW64` (R143). -/
def execLdw64 (addr : Nat) (s : State) : Host.Outcome State Fault Refusal :=
  .next (loaderCommand addr 8 loadedWord s)

/-- `LDP64` (R144). -/
def execLdp64 (addr len : Nat) (fb : Byte) (s : State) : Host.Outcome State Fault Refusal :=
  .next (loaderCommand addr len (fun bs => paddedWord bs len fb) s)

end Sys2Proof.Machine
end

