-- ==== Sys2Proof/Machine/Dispatch.lean ====
section
/-! DEFINITION. The dispatch of the commands to their meanings, one arm per constructor. -/

namespace Sys2Proof.Machine

/-- The execution of a decoded command (R192). -/
def exec (i : Instr) (s : State) : Host.Outcome State Fault Refusal :=
  match i with
  | .rnda2 inj => Sys2Proof.Machine.execRnda2 inj s
  | .rnda4 inj => Sys2Proof.Machine.execRnda4 inj s
  | .rnda8 inj => Sys2Proof.Machine.execRnda8 inj s
  | .rnda16 inj => Sys2Proof.Machine.execRnda16 inj s
  | .rnda32 inj => Sys2Proof.Machine.execRnda32 inj s
  | .rnda64 inj => Sys2Proof.Machine.execRnda64 inj s
  | .rndb2 inj => Sys2Proof.Machine.execRndb2 inj s
  | .rndb64 inj => Sys2Proof.Machine.execRndb64 inj s
  | .ldw32 addr => Sys2Proof.Machine.execLdw32 addr s
  | .ldw64 addr => Sys2Proof.Machine.execLdw64 addr s
  | .ldp64 addr len fb => Sys2Proof.Machine.execLdp64 addr len fb s
  | .ginit gw prewarm => Sys2Proof.Machine.execGinit gw prewarm s
  | .gnext => Sys2Proof.Machine.execGnext s
  | .gfinal => Sys2Proof.Machine.execGfinal s

end Sys2Proof.Machine
end

