-- ==== Sys2Proof/Machine/Interface.lean ====
section
/-! DEFINITION. The host interface (43_host_interface): register and memory transactions, command issue, the stall
while a command is in flight, and what each event of the outside world does. -/

namespace Sys2Proof.Machine

/-- The index of `CMD` (R43). -/
def cmdIndex : BitVec 8 := 2#8

/-- The index of `STATUS` (R43). -/
def statusIndex : BitVec 8 := 1#8

/-- `REG_RD(i)` (R43, R194): reserved indices and `CMD` read as 0. -/
def State.readReg (s : State) (i : BitVec 8) : Word :=
  match i.toNat with
  | 0 => idWord
  | 1 => s.status
  | 3 => s.seed
  | 4 => s.lcg
  | 5 => s.hash
  | 6 => s.out
  | 7 => s.msg
  | 8 => s.gbyte
  | 9 => capsWord s.params
  | _ => 0

/-- `REG_WR(i, v)` for every index but `CMD` (R44, R195): the RW registers store all 64 bits, bit 1 of a write to
`STATUS` clears `ESTK`, every other write is ignored. A write to `SEED` or `LCG` clears the ghost `Lineage` (R42). -/
def State.writeReg (i : BitVec 8) (v : Word) (s : State) : State :=
  match i.toNat with
  | 1 => if v.getLsbD 1 then s.clearSticky else s
  | 3 => { s with seed := v, lineage := none }
  | 4 => { s with lcg := v, lineage := none }
  | 5 => { s with hash := v }
  | 7 => { s with msg := v }
  | _ => s

/-- A host read returns a value (R190); no read changes the block's state (R71). -/
def State.respond (r : Response) (s : State) : State :=
  { s with hostOut := s.hostOut ++ [r] }

/-- An address lies in the message memory (R60, R196). -/
def State.inMemory (s : State) (a : BitVec 16) : Bool := decide (a.toNat < s.params.msgBytes)

/-- `MEM_RD(a)` (R197): outside the memory 0; an unwritten byte is a model fault and a free byte (R62). -/
def State.memRead (a : BitVec 16) (s : State) : State :=
  if s.inMemory a then
    (s.recordRead a.toNat 1).respond (.byte (s.messageByte a.toNat))
  else s.respond (.byte 0)

/-- `MEM_WR(a, b)` (R196): outside the memory the write is ignored. -/
def State.memWrite (a : BitVec 16) (b : Byte) (s : State) : State :=
  if s.inMemory a then { s with mem := s.mem.write a.toNat b } else s

/-- The command word `v` is accepted: the command is in flight (R192). -/
def State.accept (v : Word) (s : State) : State :=
  { s with pending := some (.issued v) }

/-- Command issue (R192): the word is accepted, decoded and executed; an illegal word raises `ILLEGAL_CMD` (R91, R92). -/
def issueCommand (v : Word) (s : State) : Host.Outcome State Fault Refusal :=
  match decode v with
  | .error _ => .next ((s.accept v).raise .illegalCmd)
  | .ok i => exec i (s.accept v)

/-- The interface accepts a transaction and completes it (R191, R194 to R197). -/
def acceptTransaction (t : Transaction) (s : State) : Host.Outcome State Fault Refusal :=
  match t with
  | .regRd i => .next (s.respond (.word (s.readReg i)))
  | .regWr i v => if i = cmdIndex then issueCommand v s else .next (s.writeReg i v)
  | .memRd a => .next (s.memRead a)
  | .memWr a b => .next (s.memWrite a b)

/-- The interface holds a transaction (R193). -/
def State.hold (t : Transaction) (s : State) : State :=
  { s with held := some t }

/-- A transaction is presented: accepted when the block is idle, and also in flight when it is a read of `STATUS`;
otherwise held (R193). A second transaction beside a held one is no move of the host (R199). -/
def presentTransaction (t : Transaction) (s : State) : Host.Outcome State Fault Refusal :=
  if s.held.isSome then .refused .secondTransaction
  else if s.busy && t != .regRd statusIndex then .next (s.hold t)
  else acceptTransaction t s

/-- The agent answers (R161): the command continues as far as the answers that follow allow. -/
def receiveAnswer (a : Answer) (s : State) : Host.Outcome State Fault Refusal :=
  match takeAnswer a s with
  | some s' => .next (runEngine s'.env s')
  | none => .refused .unsolicitedAnswer

/-- What a move of the outside world does. -/
def applyEvent (e : Event) (s : State) : Host.Outcome State Fault Refusal :=
  match e with
  | .host t => presentTransaction t s
  | .answer a => receiveAnswer a s
  | .late _ => .next s
  | .reset => .next s.applyReset
  | .pause => .next s

/-- The next event of the outside world, if any, takes place; with none to come nothing changes: an idle block stays
idle, and a command that waits goes on waiting (R162). -/
def takeEvent (s : State) : Host.Outcome State Fault Refusal :=
  match s.env with
  | [] => .next s
  | e :: rest => applyEvent e { s with env := rest }

/-- The next event is a reset. -/
def resetNext : List Event → Bool
  | .reset :: _ => true
  | _ => false

/-- One move. A reset that comes next takes effect at once, whatever is held or in flight (R240); otherwise a held
transaction is accepted once no command is in flight (R193); otherwise the next event takes place. -/
def nextMove (s : State) : Host.Outcome State Fault Refusal :=
  match s.held, s.busy || resetNext s.env with
  | some t, false => acceptTransaction t { s with held := none }
  | _, _ => takeEvent s

/-- The host presents `v` as the next command: the block idle, and a write of `v` to `CMD` the next event. -/
def State.presentCommand (v : Word) (s : State) : State :=
  { s with pending := none, entReq := none, held := none, env := .host (.regWr cmdIndex v) :: s.env }

end Sys2Proof.Machine
end

