-- ==== Sys2Proof/Machine/Step.lean ====
section
/-! DEFINITION. The step of the machine, and the state whose next step runs a given command. -/

namespace Sys2Proof.Machine

/-- One step (R74, R191). -/
def step (s : State) : Host.Outcome State Fault Refusal := nextMove s

/-- `s` with the command whose bits are `w` placed where the next step takes its command from: the block fetches
nothing (R28), so that place is the host's next transaction, a write to `CMD`. -/
def State.withFetchWord (s : State) (nbits w : Nat) : State := s.presentCommand (tableWord nbits w)

end Sys2Proof.Machine
end

