-- ==== Sys2Proof/Machine/Assembler.lean ====
section
/-! DEFINITION. The assembler syntax of 30_encoding R95 to R97: command lines, listing lines and pseudo-instructions,
the transactions they stand for, and the reading of a line of text. -/

namespace Sys2Proof.Machine

/-- A line of a listing, its numbers not yet checked against their fields. -/
inductive AsmLine where
  /-- `rnda.<W>`, with `inj` or without (R95). -/
  | rnda (w : Nat) (inj : Bool)
  /-- `rndb.<W>`, with `inj` or without (R95). -/
  | rndb (w : Nat) (inj : Bool)
  | ldw32 (addr : Nat)
  | ldw64 (addr : Nat)
  | ldp64 (addr len fb : Nat)
  /-- `ginit.<W>`, with `prewarm` or without (R95). -/
  | ginit (w : Nat) (prewarm : Bool)
  | gnext
  | gfinal
  /-- `wr <REG>, <value>` (R96). -/
  | wr (reg value : Nat)
  /-- `rd <REG>` (R96). -/
  | rd (reg : Nat)
  /-- `mwr <addr>, <byte>` (R96). -/
  | mwr (addr byte : Nat)
  /-- `mrd <addr>` (R96). -/
  | mrd (addr : Nat)
  /-- The pseudo-instructions (R97). -/
  | hash64 (addr : Nat)
  | hash32 (addr : Nat)
  | hashtail64 (addr len fb : Nat)
  | mwrs (addr : Nat) (bytes : List Nat)
  | settriple (s l h : Nat)
  | clrerr
  | inject (v : Nat)
deriving DecidableEq, Repr

/-- A number as the value of a field of `w` bits; an operand that does not fit is refused (R95). -/
def fitField (w n : Nat) : Option (BitVec w) := if n < 2 ^ w then some (BitVec.ofNat w n) else none

/-- A number as a 16-bit address (R61, R95). -/
def fitAddr (n : Nat) : Option Nat := if n < 65536 then some n else none

/-- A number as a length of at most 7 (R95). -/
def fitLen (n : Nat) : Option Nat := if n < 8 then some n else none

/-- The variant A command of a width (R95); a width not listed is refused. -/
def rndaOfWidth (w : Nat) (inj : Bool) : Option Instr :=
  match w with
  | 2 => some (.rnda2 inj)
  | 4 => some (.rnda4 inj)
  | 8 => some (.rnda8 inj)
  | 16 => some (.rnda16 inj)
  | 32 => some (.rnda32 inj)
  | 64 => some (.rnda64 inj)
  | _ => none

/-- The variant B command of a width (R95); a width not listed is refused. -/
def rndbOfWidth (w : Nat) (inj : Bool) : Option Instr :=
  match w with
  | 2 => some (.rndb2 inj)
  | 64 => some (.rndb64 inj)
  | _ => none

/-- The generator width of `ginit.32` and `ginit.64` (R95). -/
def ginitOfWidth (w : Nat) (prewarm : Bool) : Option Instr :=
  match w with
  | 32 => some (.ginit .w32 prewarm)
  | 64 => some (.ginit .w64 prewarm)
  | _ => none

/-- `ldp64 <addr>, <len>, <fb>` (R95). -/
def asmLdp64 (addr len fb : Nat) : Option Instr := do
  some (.ldp64 (← fitAddr addr) (← fitLen len) (← fitField 8 fb))

/-- A command line stands for `wr CMD, <word>` (R96). -/
def issueLine (i : Instr) : Transaction := .regWr cmdIndex (encode i)

/-- `mwrs <addr>, b0, ..., bn` (R97). -/
def expandBytes : Nat → List Nat → Option (List Transaction)
  | _, [] => some []
  | addr, b :: bs => do
    let a ← fitField 16 addr
    let v ← fitField 8 b
    some (.memWr a v :: (← expandBytes (addr + 1) bs))

/-- The host transactions a line stands for, in order; none when an operand does not fit (R95 to R97). -/
def AsmLine.expand : AsmLine → Option (List Transaction)
  | .rnda w inj => do some [issueLine (← rndaOfWidth w inj)]
  | .rndb w inj => do some [issueLine (← rndbOfWidth w inj)]
  | .ldw32 addr => do some [issueLine (.ldw32 (← fitAddr addr))]
  | .ldw64 addr => do some [issueLine (.ldw64 (← fitAddr addr))]
  | .ldp64 addr len fb => do some [issueLine (← asmLdp64 addr len fb)]
  | .ginit w prewarm => do some [issueLine (← ginitOfWidth w prewarm)]
  | .gnext => some [issueLine .gnext]
  | .gfinal => some [issueLine .gfinal]
  | .wr reg value => do some [.regWr (← fitField 8 reg) (← fitField 64 value)]
  | .rd reg => do some [.regRd (← fitField 8 reg)]
  | .mwr addr byte => do some [.memWr (← fitField 16 addr) (← fitField 8 byte)]
  | .mrd addr => do some [.memRd (← fitField 16 addr)]
  | .hash64 addr => do some [issueLine (.ldw64 (← fitAddr addr)), issueLine (.rnda64 true)]
  | .hash32 addr => do some [issueLine (.ldw32 (← fitAddr addr)), issueLine (.rnda32 true)]
  | .hashtail64 addr len fb => do some [issueLine (← asmLdp64 addr len fb), issueLine (.rnda64 true)]
  | .mwrs addr bytes => expandBytes addr bytes
  | .settriple s l h => do
    some [.regWr 3#8 (← fitField 64 s), .regWr 4#8 (← fitField 64 l), .regWr 5#8 (← fitField 64 h)]
  | .clrerr => some [.regWr statusIndex 2#64]
  | .inject v => do some [.regWr 7#8 (← fitField 64 v)]

/-- A letter in lower case: mnemonics are case-insensitive (R95). -/
def lowerChar (c : Char) : Char :=
  if 'A' ≤ c ∧ c ≤ 'Z' then Char.ofNat (c.toNat + 32) else c

/-- The value of a digit, in bases up to 16. -/
def digitOf (base : Nat) (c : Char) : Option Nat :=
  let n := c.toNat
  let d := if 48 ≤ n ∧ n ≤ 57 then n - 48 else if 97 ≤ n ∧ n ≤ 102 then n - 87 else 16
  if d < base then some d else none

/-- The rest of a number whose value so far is `acc`. DESIGN CHOICE (log 17): an underscore after the first digit is
skipped, wherever it stands and however often. -/
def numberFrom (base : Nat) : Nat → List Char → Option Nat
  | acc, [] => some acc
  | acc, c :: cs =>
    if c = '_' then numberFrom base acc cs
    else match digitOf base c with
      | some d => numberFrom base (acc * base + d) cs
      | none => none

/-- Numbers are decimal or `0x` hexadecimal (R95). -/
def numberOf : List Char → Option Nat
  | '0' :: 'x' :: c :: cs => do numberFrom 16 (← digitOf 16 c) cs
  | c :: cs => do numberFrom 10 (← digitOf 10 c) cs
  | [] => none

/-- The register names of the map (R43), in lower case; a reserved index is written as a number. -/
def registerOf (cs : List Char) : Option Nat :=
  match cs with
  | ['i', 'd'] => some 0
  | ['s', 't', 'a', 't', 'u', 's'] => some 1
  | ['c', 'm', 'd'] => some 2
  | ['s', 'e', 'e', 'd'] => some 3
  | ['l', 'c', 'g'] => some 4
  | ['h', 'a', 's', 'h'] => some 5
  | ['o', 'u', 't'] => some 6
  | ['m', 's', 'g'] => some 7
  | ['g', 'b', 'y', 't', 'e'] => some 8
  | ['c', 'a', 'p', 's'] => some 9
  | _ => numberOf cs

/-- Text without the blanks at its front. -/
def dropBlanks : List Char → List Char
  | ' ' :: cs => dropBlanks cs
  | cs => cs

/-- Text without the blanks around it. -/
def trimBlanks (cs : List Char) : List Char := (dropBlanks (dropBlanks cs).reverse).reverse

/-- The pieces of a text between the separators `sep`. -/
def splitAtChar (sep : Char) : List Char → List (List Char)
  | [] => [[]]
  | c :: cs =>
    match splitAtChar sep cs with
    | [] => [[c]]
    | piece :: pieces => if c = sep then [] :: piece :: pieces else (c :: piece) :: pieces

/-- The operands of a line, separated by commas (R95); a line may have none. -/
def operandsOf (cs : List Char) : List (List Char) :=
  match trimBlanks cs with
  | [] => []
  | rest => (splitAtChar ',' rest).map trimBlanks

/-- The mnemonic of a line and its operands. DESIGN CHOICE (log 17): the whole line is read in lower case, where R95 says
so of mnemonics only, so that register names, `inj`, `prewarm`, `0X` and hexadecimal digits may stand in either case. -/
def mnemonicAndOperands (cs : List Char) : List Char × List (List Char) :=
  let text := trimBlanks (cs.map lowerChar)
  (text.takeWhile (· != ' '), operandsOf (text.dropWhile (· != ' ')))

/-- An optional word after a mnemonic: absent, or exactly `word` (R95). -/
def optionalWord (word : List Char) : List (List Char) → Option Bool
  | [] => some false
  | [w] => if w = word then some true else none
  | _ => none

/-- Every operand as a number. -/
def numbersOf : List (List Char) → Option (List Nat)
  | [] => some []
  | c :: cs => do some ((← numberOf c) :: (← numbersOf cs))

/-- The line that a mnemonic with numeric operands makes (R95 to R97). -/
def numericLine (m : List Char) (ns : List Nat) : Option AsmLine :=
  match m, ns with
  | ['l', 'd', 'w', '3', '2'], [a] => some (.ldw32 a)
  | ['l', 'd', 'w', '6', '4'], [a] => some (.ldw64 a)
  | ['l', 'd', 'p', '6', '4'], [a, l, fb] => some (.ldp64 a l fb)
  | ['g', 'n', 'e', 'x', 't'], [] => some .gnext
  | ['g', 'f', 'i', 'n', 'a', 'l'], [] => some .gfinal
  | ['m', 'w', 'r'], [a, b] => some (.mwr a b)
  | ['m', 'r', 'd'], [a] => some (.mrd a)
  | ['h', 'a', 's', 'h', '6', '4'], [a] => some (.hash64 a)
  | ['h', 'a', 's', 'h', '3', '2'], [a] => some (.hash32 a)
  | ['h', 'a', 's', 'h', 't', 'a', 'i', 'l', '6', '4'], [a, l, fb] => some (.hashtail64 a l fb)
  | ['m', 'w', 'r', 's'], a :: b :: bs => some (.mwrs a (b :: bs))
  | ['s', 'e', 't', 't', 'r', 'i', 'p', 'l', 'e'], [s, l, h] => some (.settriple s l h)
  | ['c', 'l', 'r', 'e', 'r', 'r'], [] => some .clrerr
  | ['i', 'n', 'j', 'e', 'c', 't'], [v] => some (.inject v)
  | _, _ => none

/-- A line of text (R95 to R97); none when it is no line of the syntax. DESIGN CHOICE (log 17): the width after the point of
`rnda.`, `rndb.` and `ginit.` is read as any number of R95, so that `rndb.0x40` and `ginit.064` stand for `rndb.64` and
`ginit.64`, where R95 writes the widths in decimal without leading zeros. A width that R95 does not list is refused. -/
def parseLine (cs : List Char) : Option AsmLine :=
  let (m, ops) := mnemonicAndOperands cs
  match m, ops with
  | 'r' :: 'n' :: 'd' :: 'a' :: '.' :: w, _ => do
    some (.rnda (← numberOf w) (← optionalWord ['i', 'n', 'j'] ops))
  | 'r' :: 'n' :: 'd' :: 'b' :: '.' :: w, _ => do
    some (.rndb (← numberOf w) (← optionalWord ['i', 'n', 'j'] ops))
  | 'g' :: 'i' :: 'n' :: 'i' :: 't' :: '.' :: w, _ => do
    some (.ginit (← numberOf w) (← optionalWord ['p', 'r', 'e', 'w', 'a', 'r', 'm'] ops))
  | ['w', 'r'], [r, v] => do some (.wr (← registerOf r) (← numberOf v))
  | ['r', 'd'], [r] => do some (.rd (← registerOf r))
  | _, _ => do numericLine m (← numbersOf ops)

/-- The host transactions a line of text stands for (R95 to R97). -/
def assembleText (cs : List Char) : Option (List Transaction) := do (← parseLine cs).expand

end Sys2Proof.Machine
end

