-- ==== Sys2Proof/Safety.lean ====
section
/-! DEFINITION. What a legal state of the block is, which runs are safe, and the words the statements are written in. -/

namespace Sys2Proof.Machine

/-- The ranges of the generator's registers (R32 to R35), and the shift buffer as what is left of the `Hash` word after
the bytes emitted so far (R35, R172). -/
def Gen.inRange (g : Gen) : Bool :=
  (decide (g.gw = .w64) ||
    (decide (g.seed.toNat < 2 ^ 32) && decide (g.lcg.toNat < 2 ^ 32) && decide (g.hash.toNat < 2 ^ 32))) &&
  decide (g.hashLeft.toNat ≤ genBytes g.gw) &&
  decide (g.entCtr.toNat ≤ 2047) &&
  decide (g.lastHash = g.hash >>> (8 * (genBytes g.gw - g.hashLeft.toNat)))

/-- An instance in the middle of its prewarm: the source is held and the counters and the buffer are still 0 (R166). -/
def Gen.prewarming (g : Gen) : Bool :=
  g.inRange && g.owned && decide (g.entCtr = 0) && decide (g.hashLeft = 0) && decide (g.lastHash = 0)

/-- The command in flight, the outstanding request and the ownership of the source fit together (R36, R39, R40, R161):
a command in flight waits on exactly one request, and the source is held exactly in `READY` or during a prewarm. -/
def State.flightOk (s : State) : Bool :=
  match s.pending with
  | none => decide (s.entReq = none) && (s.gen.owned == decide (s.gen.state = .ready))
  | some (.issued _) => false
  | some (.ginitOpen _ _) =>
    decide (s.entReq = some .openSource) && decide (s.gen.state ≠ .ready) && !s.gen.owned
  | some (.ginitPrewarm left work) =>
    decide (s.entReq = some .readByte) && decide (s.gen.state ≠ .ready) && s.gen.owned &&
      decide (1 ≤ left) && decide (left ≤ prewarmRounds) && work.prewarming
  | some .gnextSchedule =>
    decide (s.entReq = some .readByte) && decide (s.gen.state = .ready) && s.gen.owned &&
      decide (s.gen.hashLeft = 0) && decide (s.gen.entCtr = 0)
  | some (.gnextMessage _) =>
    decide (s.entReq = some .readByte) && decide (s.gen.state = .ready) && s.gen.owned &&
      decide (s.gen.hashLeft = 0) && decide (s.gen.entCtr = 0)

/-- Every listed byte lies in the message memory (R60, R196). -/
abbrev State.memoryInRange (s : State) : Prop := ∀ c ∈ s.mem, c.1 < s.params.msgBytes

/-- A legal state: admissible parameters (R8), message memory in canonical form and in range, `GBYTE` a byte (R37), the
generator's registers in their ranges, and a coherent command in flight. -/
abbrev State.Inv (s : State) : Prop :=
  s.params.wf ∧ s.mem.wf ∧ s.memoryInRange ∧ s.gbyte.toNat < 256 ∧ s.gen.inRange = true ∧ s.flightOk = true

/-- No model fault is recorded: the premise of R215. -/
abbrev State.faultFree (s : State) : Prop := s.faults = []

/-- The caller has not mixed variants or widths on one triple: the premise of R42. -/
abbrev State.callerContract (s : State) : Prop := s.mixed = false

/-- The block is idle and holds no transaction: the next transaction is accepted at once (R191, R193). -/
abbrev State.idle (s : State) : Prop := s.pending = none ∧ s.held = none

/-- The state `k` steps on; none when one of them stops. -/
def State.after : Nat → State → Option State
  | 0, s => some s
  | k + 1, s =>
    match step s with
    | .next t => t.after k
    | .fault _ => none
    | .refused _ => none

/-- The outside world makes no move that the spec gives no meaning: no step from here on is refused (logs 9, 10). -/
def State.movesAllowed (s : State) : Prop := ∀ k t, s.after k = some t → ∃ u, step t = .next u

/-- The next event is the agent's answer to the outstanding request. -/
def State.answerNext (s : State) : Bool :=
  match s.env with
  | .answer a :: _ => (takeAnswer a s).isSome
  | _ => false

/-- `P_ENT_LIVE` (R8, R162): every request that is outstanding now or later is answered after finitely many steps, or a
reset abandons it (R161, R243). The premise of every claim that a command or a program ends. -/
def State.entLive (s : State) : Prop :=
  ∀ k t, s.after k = some t → t.entReq ≠ none →
    ∃ j u, t.after j = some u ∧ (u.answerNext = true ∨ resetNext u.env = true)

/-- The event is a transaction that the host presents. -/
def Event.isHost : Event → Bool
  | .host _ => true
  | .answer _ => false
  | .late _ => false
  | .reset => false
  | .pause => false

/-- The run of the host's program has ended (R200): no transaction is still to come, none is held, and `BUSY` is 0. A held
transaction that a reset has dropped (R240) is not waited for. -/
def State.runOver (s : State) : Bool :=
  s.env.all (fun e => !e.isHost) && s.held.isNone && !s.busy

/-- The first state, within `k` steps, in which the run has ended; none when a step stops or `k` steps do not reach it. -/
def State.runToEnd : Nat → State → Option State
  | 0, s => if s.runOver then some s else none
  | k + 1, s =>
    if s.runOver then some s
    else match step s with
      | .next t => t.runToEnd k
      | .fault _ => none
      | .refused _ => none

/-- What a run of a host program shows (R200): the values its reads returned, in order, and the final state. -/
structure Observation where
  reads : List Response
  final : State
deriving DecidableEq, Repr

/-- The state of the block alone, without the outside world's coming moves and the records of its past ones. -/
def State.block (s : State) : State := { s with env := [], hostOut := [], portOut := [] }

/-- The observation of a run from `s` that ended in `t` (R200). -/
def observation (s t : State) : Observation :=
  { reads := t.hostOut.drop s.hostOut.length, final := t.block }

/-- The observation of the host's program from `s` on, when its run ends within `k` steps (R200). -/
def State.observe (k : Nat) (s : State) : Option Observation := (s.runToEnd k).map (observation s)

/-- A transaction whose completion returns a value (R190). -/
def Transaction.isRead : Transaction → Bool
  | .regRd _ => true
  | .memRd _ => true
  | .regWr _ _ => false
  | .memWr _ _ => false

/-- The transaction issues a command (R195). -/
def Transaction.issuesCommand : Transaction → Bool
  | .regRd _ => false
  | .memRd _ => false
  | .regWr i _ => decide (i = 2#8)
  | .memWr _ _ => false

/-- The variant A command of a width (R110). -/
def rndaInstr : Width → Bool → Instr
  | .w2, inj => .rnda2 inj
  | .w4, inj => .rnda4 inj
  | .w8, inj => .rnda8 inj
  | .w16, inj => .rnda16 inj
  | .w32, inj => .rnda32 inj
  | .w64, inj => .rnda64 inj

/-- The round commands, with their variant, width and `I` field (R110). -/
def roundOf : Instr → Option (Variant × Width × Bool)
  | .rnda2 inj => some (.A, .w2, inj)
  | .rnda4 inj => some (.A, .w4, inj)
  | .rnda8 inj => some (.A, .w8, inj)
  | .rnda16 inj => some (.A, .w16, inj)
  | .rnda32 inj => some (.A, .w32, inj)
  | .rnda64 inj => some (.A, .w64, inj)
  | .rndb2 inj => some (.B, .w2, inj)
  | .rndb64 inj => some (.B, .w64, inj)
  | .ldw32 _ => none
  | .ldw64 _ => none
  | .ldp64 _ _ _ => none
  | .ginit _ _ => none
  | .gnext => none
  | .gfinal => none

/-- The loader commands, with the address and the number of the bytes they read (R141). -/
def loaderRange : Instr → Option (Nat × Nat)
  | .ldw32 addr => some (addr, 4)
  | .ldw64 addr => some (addr, 8)
  | .ldp64 addr len _ => some (addr, len)
  | .rnda2 _ => none
  | .rnda4 _ => none
  | .rnda8 _ => none
  | .rnda16 _ => none
  | .rnda32 _ => none
  | .rnda64 _ => none
  | .rndb2 _ => none
  | .rndb64 _ => none
  | .ginit _ _ => none
  | .gnext => none
  | .gfinal => none

/-- The generator commands (R182). -/
def isGenerator : Instr → Bool
  | .ginit _ _ => true
  | .gnext => true
  | .gfinal => true
  | .rnda2 _ => false
  | .rnda4 _ => false
  | .rnda8 _ => false
  | .rnda16 _ => false
  | .rnda32 _ => false
  | .rnda64 _ => false
  | .rndb2 _ => false
  | .rndb64 _ => false
  | .ldw32 _ => false
  | .ldw64 _ => false
  | .ldp64 _ _ _ => false

/-- The commands that can stay in flight (R41). -/
def mayWait : Instr → Bool
  | .ginit _ _ => true
  | .gnext => true
  | .gfinal => false
  | .rnda2 _ => false
  | .rnda4 _ => false
  | .rnda8 _ => false
  | .rnda16 _ => false
  | .rnda32 _ => false
  | .rnda64 _ => false
  | .rndb2 _ => false
  | .rndb64 _ => false
  | .ldw32 _ => false
  | .ldw64 _ => false
  | .ldp64 _ _ _ => false

/-- Byte `k` of a 64-bit word, byte 0 the least significant (R10). -/
def byteOf (x : Word) (k : Nat) : Byte := x.extractLsb' (8 * k) 8

/-- The `lcg` of a round after injection, on integers: the low `w` bits of `LCG`, or of `LCG xor MSG` (R111). -/
def injectedLcg (w : Nat) (inj : Bool) (s : State) : BitVec w :=
  (if inj then s.lcg ^^^ s.msg else s.lcg).setWidth w

/-- Variant A, with the multiplier as `2l + 1` (R113) and the rotation as a rotation to the left (R12, R114). -/
def variantA {w : Nat} (s l h : BitVec w) : RoundResult w :=
  let mx := s * (2 * l + 1)
  let rs := mx.rotateLeft (w / 2)
  { seed := (h + rs) ^^^ l, lcg := l + ~~~mx, hash := h + rs, out := (l + ~~~mx) ^^^ rs }

/-- Variant B over a byte reversal, with the multiplier as `2l + 1` (R113, R122). -/
def variantB {w : Nat} (bswap : BitVec w → BitVec w) (s l h : BitVec w) : RoundResult w :=
  let s' := (s ^^^ h ^^^ l) * (2 * l + 1)
  { seed := s', lcg := l + ~~~s', hash := h + bswap s', out := (l + ~~~s') ^^^ bswap s' }

/-- The triple of a generator of width `w` after prewarm rounds that draw the bytes `bs` in turn (R166). -/
def prewarmedTriple {w : Nat} : List Byte → BitVec w → BitVec w → BitVec w → BitVec w × BitVec w × BitVec w
  | [], s, l, h => (s, l, h)
  | b :: bs, s, l, h =>
    let r := variantA s (l ^^^ b.setWidth w) h
    prewarmedTriple bs r.seed r.lcg r.hash

/-- The instance that `GINIT` of width `gw` creates without prewarm (R165). -/
def newInstance (p : Params) (gw : GenWidth) : Gen where
  state := .ready
  gw := gw
  seed := match gw with
    | .w32 => p.genSeed32.setWidth 64
    | .w64 => p.genSeed64
  lcg := match gw with
    | .w32 => p.genLcg32.setWidth 64
    | .w64 => p.genLcg64
  hash := 0
  entCtr := 0
  hashLeft := 0
  lastHash := 0
  owned := true

/-- A generator after prewarm rounds at its width that draw the bytes `bs` in turn: only the triple changes (R166). -/
def prewarmedGen (bs : List Byte) (g : Gen) : Gen :=
  match g.gw with
  | .w32 =>
    let p := prewarmedTriple bs (g.seed.setWidth 32) (g.lcg.setWidth 32) (g.hash.setWidth 32)
    { g with seed := p.1.setWidth 64, lcg := p.2.1.setWidth 64, hash := p.2.2.setWidth 64 }
  | .w64 =>
    let p := prewarmedTriple bs g.seed g.lcg g.hash
    { g with seed := p.1, lcg := p.2.1, hash := p.2.2 }

/-- A generator after an injecting refill with the schedule byte `e` and the byte `msg`, and the emission of the first
byte of the new `Hash` word (R171, R172). -/
def injectedGen (e msg : Byte) (g : Gen) : Gen :=
  match g.gw with
  | .w32 =>
    let r := variantA (g.seed.setWidth 32) (g.lcg.setWidth 32 ^^^ msg.setWidth 32) (g.hash.setWidth 32)
    { g with
      seed := r.seed.setWidth 64, lcg := r.lcg.setWidth 64, hash := r.hash.setWidth 64
      lastHash := r.hash.setWidth 64 >>> 8, hashLeft := 3#4
      entCtr := BitVec.ofNat 12 ((e.toNat + 1) * 4 - 1) }
  | .w64 =>
    let r := variantA g.seed (g.lcg ^^^ msg.setWidth 64) g.hash
    { g with
      seed := r.seed, lcg := r.lcg, hash := r.hash
      lastHash := r.hash >>> 8, hashLeft := 7#4
      entCtr := BitVec.ofNat 12 ((e.toNat + 1) * 8 - 1) }

/-- Bytes as the agent's answers to `EntRead`, one event each. -/
def byteAnswers (bs : List Byte) : List Event := bs.map fun b => .answer (.byte b)

/-- What a successful round of variant `v` and width `w` makes of `MIXED` (R42). -/
def mixedAfter (v : Variant) (w : Width) (s : State) : Bool :=
  match s.lineage with
  | none => s.mixed
  | some p => if p = (v, w) then s.mixed else true

/-- The state without the two ghosts of R42. -/
def State.withGhosts (s : State) (l : Option (Variant × Width)) (m : Bool) : State :=
  { s with lineage := l, mixed := m }

/-- The state with another round-core register set (R21, R25, R26). -/
def State.withRoundRegisters (s : State) (seed lcg hash out msg : Word) : State :=
  { s with seed := seed, lcg := lcg, hash := hash, out := out, msg := msg }

/-- The state with another generator (R29). -/
def State.withGen (s : State) (g : Gen) : State := { s with gen := g }

/-- What an outcome's next state becomes under `f`; a stop stays as it is. -/
def mapNext (f : State → State) : Host.Outcome State Fault Refusal → Host.Outcome State Fault Refusal
  | .next s => .next (f s)
  | .fault r => .fault r
  | .refused r => .refused r

/-- How often a message stands in a list of port messages. -/
def countMsg (m : PortMsg) (ms : List PortMsg) : Nat := ms.count m

end Sys2Proof.Machine
end

