-- ==== Sys2Proof/Certificates/Slice0/Obligations.lean ====
section
/-! DEFINITION. The statements for the provers. A name under `Obligations` says what it states. -/

open Sys2Proof Sys2Proof.Machine

/-! ## Encoding -/

/-- R87, R94: decoding the word of a well-formed command gives the command back, every operand at every value. -/
def Obligations.DecodeOfEncodeIsTheCommand : Prop :=
  ∀ i : Instr, i.wf = true → decode (encode i) = .ok i

/-- R93: a word that decodes is the word of the command it decodes to, and that command is well-formed, so no two words
are the same command and no bit of a word is ignored. -/
def Obligations.EncodeOfDecodeIsTheWord : Prop :=
  ∀ (v : Word) (i : Instr), decode v = .ok i → i.wf = true ∧ encode i = v

/-- R82 to R86, R89, R94: a word decodes exactly when it agrees, on the fixed bits of its format, with a row of the
table, written here as pairs of mask and match. -/
def Obligations.DecodeAcceptsExactlyTheTableRows : Prop :=
  ∀ v : Word, (∃ i, decode v = .ok i) ↔
    ∃ r ∈ ([(0xFFFFFFFFFFFFFEFF, 0x11), (0xFFFFFFFFFFFFFEFF, 0x12), (0xFFFFFFFFFFFFFEFF, 0x13),
        (0xFFFFFFFFFFFFFEFF, 0x14), (0xFFFFFFFFFFFFFEFF, 0x15), (0xFFFFFFFFFFFFFEFF, 0x16),
        (0xFFFFFFFFFFFFFEFF, 0x21), (0xFFFFFFFFFFFFFEFF, 0x26), (0xFFFF0000FFFFFFFF, 0x35),
        (0xFFFF0000FFFFFFFF, 0x36), (0xFFFF000000F8FFFF, 0x3E), (0xFFFFFFFFFFFFCFFF, 0x40),
        (0xFFFFFFFFFFFFFFFF, 0x41), (0xFFFFFFFFFFFFFFFF, 0x42)] : List (Word × Word)),
      v &&& r.1 = r.2

/-- R95: the worked words of the assembler section decode to the commands they stand for. -/
def Obligations.WorkedWordsDecode : Prop :=
  decode 0x0000000000000116#64 = .ok (.rnda64 true) ∧
  decode 0x0000001000000036#64 = .ok (.ldw64 0x10) ∧
  decode 0x000000080104003E#64 = .ok (.ldp64 8 4 0x01#8) ∧
  decode 0x0000000000003040#64 = .ok (.ginit .w64 true)

/-- R95, R96: every line of the assembler's syntax but `wr` issues only words that decode: what a line writes to `CMD` is
the word of a well-formed command. -/
def Obligations.AssembledLinesIssueLegalCommands : Prop :=
  ∀ (line : AsmLine) (ts : List Transaction) (v : Word), (∀ r x, line ≠ .wr r x) → line.expand = some ts →
    .regWr 2#8 v ∈ ts → ∃ i : Instr, i.wf = true ∧ v = encode i ∧ decode v = .ok i

/-- R97: what each pseudo-instruction stands for, its operands in their fields. -/
def Obligations.PseudoInstructionsExpand : Prop :=
  (∀ a, a < 65536 →
    (AsmLine.hash64 a).expand = some [.regWr 2#8 (encode (.ldw64 a)), .regWr 2#8 (encode (.rnda64 true))] ∧
    (AsmLine.hash32 a).expand = some [.regWr 2#8 (encode (.ldw32 a)), .regWr 2#8 (encode (.rnda32 true))]) ∧
  (∀ a l fb, a < 65536 → l ≤ 7 → fb ≤ 0xFF →
    (AsmLine.hashtail64 a l fb).expand =
      some [.regWr 2#8 (encode (.ldp64 a l (BitVec.ofNat 8 fb))), .regWr 2#8 (encode (.rnda64 true))]) ∧
  (∀ (bs : List Byte) (a : Nat), a + bs.length ≤ 65536 →
    ∃ ts, (AsmLine.mwrs a (bs.map BitVec.toNat)).expand = some ts ∧ ts.length = bs.length ∧
      ∀ k b, bs[k]? = some b → ts[k]? = some (Transaction.memWr (BitVec.ofNat 16 (a + k)) b)) ∧
  (∀ s l h : Word, (AsmLine.settriple s.toNat l.toNat h.toNat).expand =
    some [.regWr 3#8 s, .regWr 4#8 l, .regWr 5#8 h]) ∧
  AsmLine.clrerr.expand = some [.regWr 1#8 0x2#64] ∧
  (∀ v : Word, (AsmLine.inject v.toNat).expand = some [.regWr 7#8 v])

/-! ## Command issue and the host interface -/

/-- R192: when the block is idle and the next event is a write of `v` to `CMD`, or such a write is the transaction held and
no reset comes next, and `v` decodes to `i`, then `i` is well-formed and the step is the execution of `i`, with the event
(or the held transaction) taken and `v` in flight. That the held write goes before every next event but a reset is the
model's choice of log 11. -/
def Obligations.StepRunsTheDecodedCommand : Prop :=
  ∀ (s : State) (v : Word) (i : Instr), decode v = .ok i → s.pending = none →
    i.wf = true ∧
    (∀ rest, s.held = none → s.env = .host (.regWr 2#8 v) :: rest →
      step s = exec i { s with env := rest, pending := some (.issued v) }) ∧
    (s.held = some (.regWr 2#8 v) → (∀ rest, s.env ≠ .reset :: rest) →
      step s = exec i { s with held := none, pending := some (.issued v) })

/-- R91: a word with a reserved opcode, the all-zero word among them, raises `ILLEGAL_CMD` when it is written to `CMD`,
and changes nothing else. -/
def Obligations.ReservedOpcodeRaisesIllegalCmd : Prop :=
  ∀ (s : State) (v : Word) (rest : List Event), s.pending = none → s.held = none →
    s.env = .host (.regWr 2#8 v) :: rest →
    (let c := v.toNat % 256
     c ≤ 0x10 ∨ (0x17 ≤ c ∧ c ≤ 0x20) ∨ (0x22 ≤ c ∧ c ≤ 0x25) ∨ (0x27 ≤ c ∧ c ≤ 0x34) ∨
       (0x37 ≤ c ∧ c ≤ 0x3D) ∨ c = 0x3F ∨ 0x43 ≤ c) →
    step s = .next { s with env := rest, err := .illegalCmd, estk := true }

/-- R92: a word with an assigned opcode, written with its mask, raises `ILLEGAL_CMD` when a reserved bit is set, and
changes nothing else. -/
def Obligations.ReservedBitsRaiseIllegalCmd : Prop :=
  ∀ (s : State) (v : Word) (rest : List Event), s.pending = none → s.held = none →
    s.env = .host (.regWr 2#8 v) :: rest →
    (∃ r ∈ ([(0x11, 0xFFFFFFFFFFFFFEFF), (0x12, 0xFFFFFFFFFFFFFEFF), (0x13, 0xFFFFFFFFFFFFFEFF),
        (0x14, 0xFFFFFFFFFFFFFEFF), (0x15, 0xFFFFFFFFFFFFFEFF), (0x16, 0xFFFFFFFFFFFFFEFF),
        (0x21, 0xFFFFFFFFFFFFFEFF), (0x26, 0xFFFFFFFFFFFFFEFF), (0x35, 0xFFFF0000FFFFFFFF),
        (0x36, 0xFFFF0000FFFFFFFF), (0x3E, 0xFFFF000000F8FFFF), (0x40, 0xFFFFFFFFFFFFCFFF),
        (0x41, 0xFFFFFFFFFFFFFFFF), (0x42, 0xFFFFFFFFFFFFFFFF)] : List (Word × Word)),
      v &&& 0xFF = r.1 ∧ v &&& r.2 ≠ r.1) →
    step s = .next { s with env := rest, err := .illegalCmd, estk := true }

/-- R193, R240: while a command is in flight a read of `STATUS` is answered with `BUSY = 1`, every other transaction is held
and has no effect, and a held transaction stays held while the command is in flight and no reset comes; once none is in
flight the held transaction is what the next step accepts, exactly as if it were presented then. That it goes before every
next event but a reset is the model's choice of log 11. -/
def Obligations.BusyBlockHoldsAllButStatusReads : Prop :=
  (∀ (s : State) (rest : List Event), s.pending ≠ none → s.held = none →
    s.env = .host (.regRd 1#8) :: rest →
    step s = .next { s with env := rest, hostOut := s.hostOut ++ [.word s.status] } ∧ s.status.getLsbD 0 = true) ∧
  (∀ (s : State) (t : Transaction) (rest : List Event), s.pending ≠ none → s.held = none → t ≠ .regRd 1#8 →
    s.env = .host t :: rest → step s = .next { s with env := rest, held := some t }) ∧
  (∀ (s s' : State) (t : Transaction), s.pending ≠ none → s.held = some t → (∀ rest, s.env ≠ .reset :: rest) →
    step s = .next s' → s'.held = some t) ∧
  (∀ (s : State) (t : Transaction), s.pending = none → s.held = some t → (∀ rest, s.env ≠ .reset :: rest) →
    step s = step { s with held := none, env := .host t :: s.env })

/-- R194: a register read that is accepted (the block idle, or the register `STATUS`) returns the register the map names
(0 for `CMD` and for a reserved index) and changes nothing else. -/
def Obligations.RegRdReturnsTheMappedRegister : Prop :=
  ∀ (s : State) (i : BitVec 8) (rest : List Event), s.pending = none ∨ i = 1#8 → s.held = none →
    s.env = .host (.regRd i) :: rest →
    step s = .next { s with
      env := rest
      hostOut := s.hostOut ++ [.word
        (if i = 0#8 then 0x0000000148565250#64 else if i = 1#8 then s.status else if i = 3#8 then s.seed
         else if i = 4#8 then s.lcg else if i = 5#8 then s.hash else if i = 6#8 then s.out
         else if i = 7#8 then s.msg else if i = 8#8 then s.gbyte
         else if i = 9#8 then s.readReg 9#8 else 0#64)] }

/-- R195: a register write of an idle block stores all 64 bits of an RW register, clears `ESTK` by a 1 in bit 1 of
`STATUS`, and is ignored everywhere else; a write to `CMD` issues the command. -/
def Obligations.RegWrWritesOnlyItsRegister : Prop :=
  ∀ (s : State) (i : BitVec 8) (v : Word) (rest : List Event), s.pending = none → s.held = none →
    s.env = .host (.regWr i v) :: rest →
    let s0 := { s with env := rest }
    (i = 1#8 → step s = .next { s0 with estk := s.estk && !v.getLsbD 1 }) ∧
    (i = 2#8 → step s = issueCommand v s0) ∧
    (i = 3#8 → step s = .next { s0 with seed := v, lineage := none }) ∧
    (i = 4#8 → step s = .next { s0 with lcg := v, lineage := none }) ∧
    (i = 5#8 → step s = .next { s0 with hash := v }) ∧
    (i = 7#8 → step s = .next { s0 with msg := v }) ∧
    (i = 0#8 ∨ i = 6#8 ∨ i = 8#8 ∨ 9 ≤ i.toNat → step s = .next s0)

/-- R50: a reserved index reads as 0, and a write to it is ignored. -/
def Obligations.ReservedIndicesReadZeroAndIgnoreWrites : Prop :=
  ∀ (s : State) (i : BitVec 8) (v : Word) (rest : List Event), s.pending = none → s.held = none → 10 ≤ i.toNat →
    (s.env = .host (.regRd i) :: rest →
      step s = .next { s with env := rest, hostOut := s.hostOut ++ [.word 0#64] }) ∧
    (s.env = .host (.regWr i v) :: rest → step s = .next { s with env := rest })

/-- R45, R30, R31, R210: `STATUS` as a number is the sum of its fields at their places, every reserved bit 0; so
`GSTATE` is never 3 and `ERR` never above 4. -/
def Obligations.StatusIsTheSumOfItsFields : Prop :=
  ∀ s : State,
    s.status.toNat =
      (if s.pending = none then 0 else 1) + (if s.estk then 2 else 0) +
      4 * (match s.gen.state with | .uninit => 0 | .ready => 1 | .terminated => 2) +
      (match s.gen.gw with | .w32 => 0 | .w64 => 16) +
      256 * (match s.err with
        | .ok => 0 | .illegalCmd => 1 | .genState => 2 | .memBounds => 3 | .sourceUnavailable => 4)

/-- R47: `CAPS` holds `P_MSGMEM_BYTES` in bits [16:0], `P_BSWAP2` in bit 17, and 0 above; and no step changes it. -/
def Obligations.CapsReportsTheParameters : Prop :=
  ∀ s : State, s.params.wf →
    (s.readReg 9#8).toNat =
      s.params.msgBytes + (match s.params.bswap2 with | .identity => 0 | .bitswap => 131072) ∧
    ∀ t, step s = .next t → t.readReg 9#8 = s.readReg 9#8

/-- R46: `ID` and its fields, read by the host. -/
def Obligations.IdIsTheConstant : Prop :=
  ∀ s : State, s.readReg 0#8 = 0x0000000148565250#64 ∧ (s.readReg 0#8).extractLsb' 0 32 = 0x48565250#32 ∧
    (s.readReg 0#8).extractLsb' 32 8 = 0x01#8 ∧ (s.readReg 0#8).extractLsb' 40 24 = 0#24

/-- R45, R219: the sticky error goes from 1 to 0 only in a step that takes a reset, or in which an idle block accepts a
write to `STATUS` with bit 1 set, as the next event or as the transaction held. -/
def Obligations.StickyErrorIsClearedOnlyByTheHostOrReset : Prop :=
  ∀ s t : State, step s = .next t → s.estk = true → t.estk = false →
    (∃ rest, s.env = .reset :: rest) ∨
    (s.pending = none ∧ ∃ v : Word, v.getLsbD 1 = true ∧
      ((s.held = none ∧ ∃ rest, s.env = .host (.regWr 1#8 v) :: rest) ∨ s.held = some (.regWr 1#8 v)))

/-! ## Message memory -/

/-- R196: a host byte write inside the memory makes that byte read as written and leaves every other byte and everything
else as it was; outside the memory it is ignored. -/
def Obligations.MemWrStoresOneByte : Prop :=
  ∀ (s : State) (a : BitVec 16) (b : Byte) (rest : List Event), s.pending = none → s.held = none →
    s.env = .host (.memWr a b) :: rest →
    (a.toNat < s.params.msgBytes →
      ∃ m : Memory, step s = .next { s with env := rest, mem := m } ∧ m.read a.toNat = some b ∧
        ∀ k, k ≠ a.toNat → m.read k = s.mem.read k) ∧
    (s.params.msgBytes ≤ a.toNat → step s = .next { s with env := rest })

/-- R197: a host byte read of a written byte returns it, one outside the memory returns 0, and neither changes the
block's state. -/
def Obligations.MemRdReturnsTheWrittenByteOrZeroOutside : Prop :=
  ∀ (s : State) (a : BitVec 16) (rest : List Event), s.pending = none → s.held = none →
    s.env = .host (.memRd a) :: rest →
    (∀ b, a.toNat < s.params.msgBytes → s.mem.read a.toNat = some b →
      step s = .next { s with env := rest, hostOut := s.hostOut ++ [.byte b] }) ∧
    (s.params.msgBytes ≤ a.toNat → step s = .next { s with env := rest, hostOut := s.hostOut ++ [.byte 0#8] })

/-- R62, R71, R215, with the model's choice of log 5 (the machine goes on with a free byte) and of log 6 (the same byte each
time): a host read of an unwritten byte records `UNWRITTEN_READ` at its address and returns some byte; the same read right
after it returns the same byte and changes nothing. -/
def Obligations.MemRdOfUnwrittenByteRecordsTheFault : Prop :=
  ∀ (s : State) (a : BitVec 16) (rest : List Event), s.pending = none → s.held = none →
    s.env = .host (.memRd a) :: rest → a.toNat < s.params.msgBytes → s.mem.read a.toNat = none →
    ∃ t b, step s = .next t ∧ Fault.unwrittenRead a.toNat ∈ t.faults ∧ (∀ f ∈ s.faults, f ∈ t.faults) ∧
      t = { s with env := rest, hostOut := s.hostOut ++ [.byte b], faults := t.faults } ∧
      ∀ rest', rest = .host (.memRd a) :: rest' →
        step t = .next { t with env := rest', hostOut := t.hostOut ++ [.byte b] }

/-- R68: a loader whose range runs past the memory raises `MEM_BOUNDS` and changes nothing else (no address wraps); a
host write there is ignored and a host read there returns 0. -/
def Obligations.AccessesOutsideTheMemory : Prop :=
  (∀ (i : Instr) (a n : Nat) (s : State), loaderRange i = some (a, n) → s.params.msgBytes < a + n →
    exec i s = .next { s with err := .memBounds, estk := true, pending := none }) ∧
  (∀ (s : State) (a : BitVec 16) (b : Byte) (rest : List Event), s.pending = none → s.held = none →
    s.params.msgBytes ≤ a.toNat →
    (s.env = .host (.memWr a b) :: rest → step s = .next { s with env := rest }) ∧
    (s.env = .host (.memRd a) :: rest →
      step s = .next { s with env := rest, hostOut := s.hostOut ++ [.byte 0#8] }))

/-- R142: `LDW32` in bounds over written bytes puts them, the lowest address least significant, zero-extended into
`MSG`, and changes nothing else but `STATUS.ERR`. -/
def Obligations.Ldw32LoadsFourBytesLittleEndian : Prop :=
  ∀ (s : State) (a : Nat) (b0 b1 b2 b3 : Byte), a + 4 ≤ s.params.msgBytes →
    s.mem.read a = some b0 → s.mem.read (a + 1) = some b1 → s.mem.read (a + 2) = some b2 →
    s.mem.read (a + 3) = some b3 →
    exec (.ldw32 a) s =
      .next { s with msg := (b3 ++ b2 ++ b1 ++ b0).setWidth 64, err := .ok, pending := none }

/-- R143: `LDW64`, likewise with eight bytes. -/
def Obligations.Ldw64LoadsEightBytesLittleEndian : Prop :=
  ∀ (s : State) (a : Nat) (b0 b1 b2 b3 b4 b5 b6 b7 : Byte), a + 8 ≤ s.params.msgBytes →
    s.mem.read a = some b0 → s.mem.read (a + 1) = some b1 → s.mem.read (a + 2) = some b2 →
    s.mem.read (a + 3) = some b3 → s.mem.read (a + 4) = some b4 → s.mem.read (a + 5) = some b5 →
    s.mem.read (a + 6) = some b6 → s.mem.read (a + 7) = some b7 →
    exec (.ldw64 a) s =
      .next { s with msg := b7 ++ b6 ++ b5 ++ b4 ++ b3 ++ b2 ++ b1 ++ b0, err := .ok, pending := none }

/-- R144: `LDP64` in bounds over written bytes gives the word whose bytes below `len` are the bytes read, whose byte
`len` is the final byte, and whose higher bytes are 0; nothing else but `STATUS.ERR` changes. -/
def Obligations.Ldp64PadsAfterTheLastByte : Prop :=
  ∀ (s : State) (a len : Nat) (fb : Byte) (b : Nat → Byte), len ≤ 7 → a + len ≤ s.params.msgBytes →
    (∀ k, k < len → s.mem.read (a + k) = some (b k)) →
    ∃ m : Word, exec (.ldp64 a len fb) s = .next { s with msg := m, err := .ok, pending := none } ∧
      ∀ k, k < 8 → byteOf m k = (if k < len then b k else if k = len then fb else 0#8)

/-- R62, R71, R141, R144, R147, R215, with the model's choice of log 5 (the machine goes on with free bytes) and of log 6
(the same bytes each time): a loader in bounds always completes; it changes only `MSG`, `STATUS.ERR` and the fault set;
every written byte of its range stands in `MSG` at its place, and above the range stand the final byte of `LDP64` and
zeros; the fault set gains exactly the first unwritten address of the range, when there is one; and the same loader right
after it changes nothing. -/
def Obligations.LoaderOverAnyBytesCompletesAndRecordsUnwrittenReads : Prop :=
  ∀ (i : Instr) (a n : Nat) (s : State), i.wf = true → loaderRange i = some (a, n) → a + n ≤ s.params.msgBytes →
    ∃ t, exec i s = .next t ∧
      t = { s with msg := t.msg, err := .ok, pending := none, faults := t.faults } ∧
      (∀ k b, k < n → s.mem.read (a + k) = some b → byteOf t.msg k = b) ∧
      (∀ fb, i = .ldp64 a n fb → byteOf t.msg n = fb ∧ ∀ k, n < k → k < 8 → byteOf t.msg k = 0#8) ∧
      (i = .ldw32 a → ∀ k, 4 ≤ k → k < 8 → byteOf t.msg k = 0#8) ∧
      ((∀ k, k < n → s.mem.read (a + k) ≠ none) → t.faults = s.faults) ∧
      (∀ u, u < n → s.mem.read (a + u) = none → (∀ k, k < u → s.mem.read (a + k) ≠ none) →
        ∀ f, f ∈ t.faults ↔ f ∈ s.faults ∨ f = Fault.unwrittenRead (a + u)) ∧
      exec i t = .next t

/-- R215: no step takes a model fault out of the fault set, a reset included. -/
def Obligations.NoStepClearsAModelFault : Prop :=
  ∀ s t : State, step s = .next t → ∀ f ∈ s.faults, f ∈ t.faults

/-! ## Round core -/

/-- R114, R111, R126, R42: a variant A command of any width completes; the triple and `OUT` are variant A's, computed
on the low `w` bits and zero-extended, with the multiplier `2l + 1` and a rotation by half the width; nothing else
changes but `STATUS.ERR` and the two ghosts. -/
def Obligations.VariantACommandsComputeTheRound : Prop :=
  ∀ (w : Width) (inj : Bool) (s : State),
    let r := variantA (s.seed.setWidth w.bits) (injectedLcg w.bits inj s) (s.hash.setWidth w.bits)
    exec (rndaInstr w inj) s = .next { s with
      seed := r.seed.setWidth 64, lcg := r.lcg.setWidth 64, hash := r.hash.setWidth 64, out := r.out.setWidth 64
      err := .ok, pending := none, lineage := some (.A, w), mixed := mixedAfter .A w s }

/-- R122, R111, R126, R42: the two variant B commands, likewise; at W = 2 the byte reversal is the parameter's. -/
def Obligations.VariantBCommandsComputeTheRound : Prop :=
  ∀ (inj : Bool) (s : State),
    (let r := variantB (bswap2 s.params.bswap2) (s.seed.setWidth 2) (injectedLcg 2 inj s) (s.hash.setWidth 2)
     exec (.rndb2 inj) s = .next { s with
      seed := r.seed.setWidth 64, lcg := r.lcg.setWidth 64, hash := r.hash.setWidth 64, out := r.out.setWidth 64
      err := .ok, pending := none, lineage := some (.B, .w2), mixed := mixedAfter .B .w2 s }) ∧
    (let r := variantB bswap64 s.seed (injectedLcg 64 inj s) s.hash
     exec (.rndb64 inj) s = .next { s with
      seed := r.seed, lcg := r.lcg, hash := r.hash, out := r.out
      err := .ok, pending := none, lineage := some (.B, .w64), mixed := mixedAfter .B .w64 s })

/-- R12, R121: byte `k` of `bswap_64(x)` is byte `7 - k` of `x`; `bswap_2` is the identity or exchanges the two bits. -/
def Obligations.ByteReversalReversesTheBytes : Prop :=
  (∀ (x : Word) (k : Nat), k < 8 → byteOf (bswap64 x) k = byteOf x (7 - k)) ∧
  (∀ x : BitVec 2, bswap2 .identity x = x ∧
    (bswap2 .bitswap x).getLsbD 0 = x.getLsbD 1 ∧ (bswap2 .bitswap x).getLsbD 1 = x.getLsbD 0)

/-- R22: a round of width `w` depends on the low `w` bits of `SEED`, `LCG`, `HASH` and `MSG` only, and leaves 0 in every
higher bit of `SEED`, `LCG`, `HASH` and `OUT`. -/
def Obligations.RoundsUseAndLeaveTheLowBitsOnly : Prop :=
  ∀ (i : Instr) (v : Variant) (w : Width) (inj : Bool) (s s' t t' : State), roundOf i = some (v, w, inj) →
    s.params = s'.params →
    s.seed.setWidth w.bits = s'.seed.setWidth w.bits → s.lcg.setWidth w.bits = s'.lcg.setWidth w.bits →
    s.hash.setWidth w.bits = s'.hash.setWidth w.bits → s.msg.setWidth w.bits = s'.msg.setWidth w.bits →
    exec i s = .next t → exec i s' = .next t' →
    t.seed = t'.seed ∧ t.lcg = t'.lcg ∧ t.hash = t'.hash ∧ t.out = t'.out ∧
      t.seed.toNat < 2 ^ w.bits ∧ t.lcg.toNat < 2 ^ w.bits ∧ t.hash.toNat < 2 ^ w.bits ∧ t.out.toNat < 2 ^ w.bits

/-- R111: a command with I = 1 leaves in every register but the ghosts and `LCG`'s origin what a host write of
`LCG xor MSG` to `LCG` followed by the same command with I = 0 leaves. -/
def Obligations.InjectionEqualsAHostXorOfLcg : Prop :=
  ∀ (w : Width) (s : State),
    mapNext (fun t => t.withGhosts none false) (exec (rndaInstr w true) s) =
      mapNext (fun t => t.withGhosts none false) (exec (rndaInstr w false) (s.writeReg 4#8 (s.lcg ^^^ s.msg))) ∧
    mapNext (fun t => t.withGhosts none false) (exec (.rndb2 true) s) =
      mapNext (fun t => t.withGhosts none false) (exec (.rndb2 false) (s.writeReg 4#8 (s.lcg ^^^ s.msg))) ∧
    mapNext (fun t => t.withGhosts none false) (exec (.rndb64 true) s) =
      mapNext (fun t => t.withGhosts none false) (exec (.rndb64 false) (s.writeReg 4#8 (s.lcg ^^^ s.msg)))

/-- R113: the multiplier is `2l + 1`, it is odd at every width above 0, and multiplying by it loses nothing. -/
def Obligations.MultiplierIsOddAndMultiplyingByItIsInjective : Prop :=
  ∀ (w : Nat) (l : BitVec w), multiplier l = 2 * l + 1 ∧ (0 < w → (multiplier l).getLsbD 0 = true) ∧
    ∀ x y : BitVec w, x * multiplier l = y * multiplier l → x = y

/-- R129: variant A of `s = 0`, at every width of the round core. -/
def Obligations.VariantAOfZeroSeed : Prop :=
  ∀ (w : Width) (l h : BitVec w.bits),
    roundA 0 l h = { seed := h ^^^ l, lcg := l - 1, hash := h, out := l - 1 }

/-- R130: variant B where `s xor h xor l = 0`, at both widths and under both values of `P_BSWAP2`. -/
def Obligations.VariantBOfZeroXor : Prop :=
  (∀ (p : Bswap2) (s l h : BitVec 2), s ^^^ h ^^^ l = 0 →
    roundB (bswap2 p) s l h = { seed := 0, lcg := l - 1, hash := h, out := l - 1 }) ∧
  (∀ s l h : BitVec 64, s ^^^ h ^^^ l = 0 →
    roundB bswap64 s l h = { seed := 0, lcg := l - 1, hash := h, out := l - 1 })

/-- R131: no round of either variant maps a triple (its `lcg` taken after injection) to itself. -/
def Obligations.NoRoundHasAFixedPoint : Prop :=
  (∀ (w : Width) (s l h : BitVec w.bits),
    ¬((roundA s l h).seed = s ∧ (roundA s l h).lcg = l ∧ (roundA s l h).hash = h)) ∧
  (∀ (p : Bswap2) (s l h : BitVec 2),
    ¬((roundB (bswap2 p) s l h).seed = s ∧ (roundB (bswap2 p) s l h).lcg = l ∧ (roundB (bswap2 p) s l h).hash = h)) ∧
  (∀ s l h : BitVec 64,
    ¬((roundB bswap64 s l h).seed = s ∧ (roundB bswap64 s l h).lcg = l ∧ (roundB bswap64 s l h).hash = h))

/-- R42, R127: after two round commands in a row `MIXED` is set exactly when it was set before the second one or their
variants or widths differ; a host write to `SEED` or `LCG` between them, and only a register write to one of those two,
makes the second one start afresh. -/
def Obligations.MixedRecordsAChangeOfVariantOrWidth : Prop :=
  ∀ (i j : Instr) (v v' : Variant) (w w' : Width) (inj inj' : Bool) (s t : State),
    roundOf i = some (v, w, inj) → roundOf j = some (v', w', inj') → exec i s = .next t →
    (∀ u, exec j t = .next u → (u.mixed = true ↔ t.mixed = true ∨ (v, w) ≠ (v', w'))) ∧
    (∀ (r : BitVec 8) (x : Word) (u : State), exec j (t.writeReg r x) = .next u →
      ((r = 3#8 ∨ r = 4#8) → u.mixed = t.mixed) ∧
      (¬(r = 3#8 ∨ r = 4#8) → (u.mixed = true ↔ t.mixed = true ∨ (v, w) ≠ (v', w'))))

/-- R42: the ghosts change nothing the hardware computes: two states that differ only in them take the same step, but
for the ghosts. -/
def Obligations.GhostsDoNotAffectTheMachine : Prop :=
  ∀ (s : State) (l : Option (Variant × Width)) (m : Bool),
    mapNext (fun t => t.withGhosts none false) (step (s.withGhosts l m)) =
      mapNext (fun t => t.withGhosts none false) (step s)

/-! ## Generator -/

/-- R165, R161: `GINIT` without prewarm outside `READY`, the agent answering OK next, completes: one `EntOpen` on the port,
the source held, the constants of the width in the triple, the counters and the buffer 0, `READY`; nothing else changes but
`STATUS.ERR`. A `GINIT` that waits on `EntOpen` ends the same way in the step that takes the answer. That a step runs on
through an answer that comes next is the model's choice of log 4. -/
def Obligations.GinitWithoutPrewarmCreatesTheInstance : Prop :=
  ∀ (s : State) (gw : GenWidth) (rest : List Event), s.env = .answer (.opened true) :: rest →
    (s.gen.state ≠ .ready →
      exec (.ginit gw false) s = .next { s with
        env := rest, entReq := none, pending := none, err := .ok, portOut := s.portOut ++ [.entOpen]
        gen := newInstance s.params gw }) ∧
    (s.pending = some (.ginitOpen gw false) → s.entReq = some .openSource →
      step s = .next { s with
        env := rest, entReq := none, pending := none, err := .ok, gen := newInstance s.params gw })

/-- R165, R166, R161: `GINIT` with prewarm outside `READY`, the agent answering OK and then 32 bytes, completes: one
`EntOpen` and 32 `EntRead` on the port, the triple that of 32 variant A rounds of the generator's width, each with its byte
XORed into `lcg`, the counters and the buffer 0, `READY`; nothing else changes but `STATUS.ERR`. A `GINIT` that waits on
`EntOpen`, and one with any number of rounds left, ends the same way in the step that takes the answers. That a step runs
on through the answers that come next is the model's choice of log 4. -/
def Obligations.GinitWithPrewarmRunsThirtyTwoRounds : Prop :=
  ∀ (s : State) (bs : List Byte) (rest : List Event),
    (∀ gw, bs.length = 32 → s.env = .answer (.opened true) :: (byteAnswers bs ++ rest) →
      (s.gen.state ≠ .ready →
        exec (.ginit gw true) s = .next { s with
          env := rest, entReq := none, pending := none, err := .ok
          portOut := s.portOut ++ .entOpen :: List.replicate 32 .entRead
          gen := prewarmedGen bs (newInstance s.params gw) }) ∧
      (s.pending = some (.ginitOpen gw true) → s.entReq = some .openSource →
        step s = .next { s with
          env := rest, entReq := none, pending := none, err := .ok
          portOut := s.portOut ++ List.replicate 32 .entRead
          gen := prewarmedGen bs (newInstance s.params gw) })) ∧
    (∀ work, bs ≠ [] → s.env = byteAnswers bs ++ rest → s.pending = some (.ginitPrewarm bs.length work) →
      s.entReq = some .readByte →
      step s = .next { s with
        env := rest, entReq := none, pending := none, err := .ok
        portOut := s.portOut ++ List.replicate (bs.length - 1) .entRead
        gen := { prewarmedGen bs work with state := .ready } })

/-- R167, R161: `GINIT` answered UNAVAILABLE raises `SOURCE_UNAVAILABLE`, in the step that issues it or in a later one: the
generator, the source's ownership and `GBYTE` keep their values, only the `EntOpen` has gone out on the port, and the
answer is taken; and a later `GINIT` is a new attempt: it issues `EntOpen` again, which this time may be answered OK. That
a step takes an answer that comes next is the model's choice of log 4. -/
def Obligations.GinitOfUnavailableSourceChangesNothing : Prop :=
  ∀ (s : State) (gw : GenWidth) (prewarm : Bool) (rest : List Event), s.env = .answer (.opened false) :: rest →
    (s.gen.state ≠ .ready →
      ∃ t, exec (.ginit gw prewarm) s = .next t ∧
        t = { s with env := rest, entReq := none, pending := none, err := .sourceUnavailable, estk := true
                     portOut := s.portOut ++ [.entOpen] } ∧
        ∀ (gw' : GenWidth) (rest' : List Event), rest = .answer (.opened true) :: rest' →
          ∃ u, exec (.ginit gw' false) t = .next u ∧ u.gen.state = .ready ∧ u.err = .ok ∧
            u.portOut = t.portOut ++ [.entOpen]) ∧
    (s.pending = some (.ginitOpen gw prewarm) → s.entReq = some .openSource →
      step s = .next { s with
        env := rest, entReq := none, pending := none, err := .sourceUnavailable, estk := true })

/-- R168, R182: a generator command in the wrong lifecycle state raises `GEN_STATE`, issues no request and changes
nothing else. -/
def Obligations.GeneratorCommandInWrongStateRaisesGenState : Prop :=
  ∀ s : State,
    (∀ gw prewarm, s.gen.state = .ready →
      exec (.ginit gw prewarm) s = .next { s with err := .genState, estk := true, pending := none }) ∧
    (s.gen.state ≠ .ready →
      exec .gnext s = .next { s with err := .genState, estk := true, pending := none } ∧
      exec .gfinal s = .next { s with err := .genState, estk := true, pending := none })

/-- R161, R162, R192: a `GINIT`, and a `GNEXT` at `HashLeft = 0` and `EntCtr = 0`, with no answer of the agent next stays in
flight with its request outstanding and changes nothing else; after some of the answers, but not all, it waits on the next
one, its registers as they were, what it has computed with the command in flight (the model's choice of log 7), whether the
answers come in the step that issues it or later. That one step takes all the answers that stand next is the model's choice
of log 4. While it waits no event but an answer or a reset changes it or the generator, and with no event to come it waits
for ever, which the model shows as a step to the same state (the model's choice of log 16). -/
def Obligations.CommandWaitsWhileTheAgentIsSilent : Prop :=
  (∀ (s : State) (gw : GenWidth) (prewarm : Bool), s.gen.state ≠ .ready →
    (∀ ok rest, s.env ≠ .answer (.opened ok) :: rest) →
    exec (.ginit gw prewarm) s = .next { s with
      entReq := some .openSource, pending := some (.ginitOpen gw prewarm), portOut := s.portOut ++ [.entOpen] }) ∧
  (∀ s : State, s.gen.state = .ready → s.gen.hashLeft = 0 → s.gen.entCtr = 0 →
    (∀ b rest, s.env ≠ .answer (.byte b) :: rest) →
    exec .gnext s = .next { s with
      entReq := some .readByte, pending := some .gnextSchedule, portOut := s.portOut ++ [.entRead] }) ∧
  (∀ (s : State) (gw : GenWidth) (bs : List Byte) (rest : List Event), bs.length < 32 →
    (∀ b r, rest ≠ .answer (.byte b) :: r) → s.env = .answer (.opened true) :: (byteAnswers bs ++ rest) →
    let work := prewarmedGen bs { newInstance s.params gw with state := s.gen.state }
    (s.gen.state ≠ .ready →
      exec (.ginit gw true) s = .next { s with
        env := rest, entReq := some .readByte, pending := some (.ginitPrewarm (32 - bs.length) work)
        portOut := s.portOut ++ .entOpen :: List.replicate (bs.length + 1) .entRead
        gen := { s.gen with owned := true } }) ∧
    (s.pending = some (.ginitOpen gw true) → s.entReq = some .openSource →
      step s = .next { s with
        env := rest, entReq := some .readByte, pending := some (.ginitPrewarm (32 - bs.length) work)
        portOut := s.portOut ++ List.replicate (bs.length + 1) .entRead
        gen := { s.gen with owned := true } })) ∧
  (∀ (s : State) (left : Nat) (work : Gen) (bs : List Byte) (rest : List Event), bs ≠ [] → bs.length < left →
    (∀ b r, rest ≠ .answer (.byte b) :: r) → s.env = byteAnswers bs ++ rest →
    s.pending = some (.ginitPrewarm left work) → s.entReq = some .readByte →
    step s = .next { s with
      env := rest, pending := some (.ginitPrewarm (left - bs.length) (prewarmedGen bs work))
      portOut := s.portOut ++ List.replicate bs.length .entRead }) ∧
  (∀ (s : State) (e : Byte) (rest : List Event), (∀ b r, rest ≠ .answer (.byte b) :: r) →
    s.env = .answer (.byte e) :: rest →
    (s.gen.state = .ready → s.gen.hashLeft = 0 → s.gen.entCtr = 0 →
      exec .gnext s = .next { s with
        env := rest, entReq := some .readByte, pending := some (.gnextMessage e)
        portOut := s.portOut ++ [.entRead, .entRead] }) ∧
    (s.pending = some .gnextSchedule → s.entReq = some .readByte →
      step s = .next { s with
        env := rest, pending := some (.gnextMessage e), portOut := s.portOut ++ [.entRead] })) ∧
  (∀ s t : State, s.pending ≠ none → (∀ a rest, s.env ≠ .answer a :: rest) → (∀ rest, s.env ≠ .reset :: rest) →
    step s = .next t → t.pending = s.pending ∧ t.entReq = s.entReq ∧ t.gen = s.gen ∧ t.gbyte = s.gbyte ∧
      t.err = s.err ∧ t.portOut = s.portOut) ∧
  (∀ s : State, s.pending ≠ none → s.env = [] → step s = .next s)

/-- R172, R175: `GNEXT` in `READY` with a byte left emits the low byte of the buffer, shifts it and counts the byte off;
no round, no request. -/
def Obligations.GnextEmitsTheNextBufferedByte : Prop :=
  ∀ s : State, s.gen.state = .ready → s.gen.hashLeft ≠ 0 →
    exec .gnext s = .next { s with
      gbyte := (byteOf s.gen.lastHash 0).setWidth 64, err := .ok, pending := none
      gen := { s.gen with lastHash := s.gen.lastHash >>> 8, hashLeft := s.gen.hashLeft - 1 } }

/-- R170, R172, R175: `GNEXT` in `READY` with no byte left and inside the schedule runs one variant A round of the
generator's width without injection, loads the buffer from the new `Hash` word, emits its low byte, and counts the
schedule down; no request. -/
def Obligations.GnextRefillsWithoutInjectionInsideTheSchedule : Prop :=
  ∀ s : State, s.gen.state = .ready → s.gen.hashLeft = 0 → s.gen.entCtr ≠ 0 →
    (s.gen.gw = .w32 →
      let r := variantA (s.gen.seed.setWidth 32) (s.gen.lcg.setWidth 32) (s.gen.hash.setWidth 32)
      exec .gnext s = .next { s with
        gbyte := (byteOf (r.hash.setWidth 64) 0).setWidth 64, err := .ok, pending := none
        gen := { s.gen with
          seed := r.seed.setWidth 64, lcg := r.lcg.setWidth 64, hash := r.hash.setWidth 64
          lastHash := r.hash.setWidth 64 >>> 8, hashLeft := 3#4, entCtr := s.gen.entCtr - 1 } }) ∧
    (s.gen.gw = .w64 →
      let r := variantA s.gen.seed s.gen.lcg s.gen.hash
      exec .gnext s = .next { s with
        gbyte := (byteOf r.hash 0).setWidth 64, err := .ok, pending := none
        gen := { s.gen with
          seed := r.seed, lcg := r.lcg, hash := r.hash
          lastHash := r.hash >>> 8, hashLeft := 7#4, entCtr := s.gen.entCtr - 1 } })

/-- R169, R171, R172, R175, R161: `GNEXT` in `READY` with no byte left and the schedule run out, the agent answering `e` and
`msg` next, completes: two `EntRead` on the port, the counter `(e + 1) * 4 - 1` or `(e + 1) * 8 - 1`, one variant A round
with `msg` XORed into the low byte of `lcg`, and the low byte of the new `Hash` word emitted. A `GNEXT` that waits on
either byte ends the same way in the step that takes the answers. That a step runs on through the answers that come next is
the model's choice of log 4. -/
def Obligations.GnextRefillsWithInjectionAtTheScheduleEnd : Prop :=
  ∀ (s : State) (e msg : Byte) (rest : List Event),
    let g := injectedGen e msg s.gen
    (s.env = .answer (.byte e) :: .answer (.byte msg) :: rest →
      (s.gen.state = .ready → s.gen.hashLeft = 0 → s.gen.entCtr = 0 →
        exec .gnext s = .next { s with
          env := rest, entReq := none, pending := none, err := .ok
          portOut := s.portOut ++ [.entRead, .entRead]
          gbyte := (byteOf g.hash 0).setWidth 64, gen := g }) ∧
      (s.pending = some .gnextSchedule → s.entReq = some .readByte →
        step s = .next { s with
          env := rest, entReq := none, pending := none, err := .ok, portOut := s.portOut ++ [.entRead]
          gbyte := (byteOf g.hash 0).setWidth 64, gen := g })) ∧
    (s.env = .answer (.byte msg) :: rest → s.pending = some (.gnextMessage e) → s.entReq = some .readByte →
      step s = .next { s with
        env := rest, entReq := none, pending := none, err := .ok
        gbyte := (byteOf g.hash 0).setWidth 64, gen := g })

/-- R180, R181: `GFINAL` in `READY` puts one `EntClose` on the port, releases the source and ends the instance; every
other generator register, `GBYTE` and everything else stays, and `STATUS.ERR` is 0. -/
def Obligations.GfinalReleasesTheSource : Prop :=
  ∀ s : State, s.gen.state = .ready →
    exec .gfinal s = .next { s with
      err := .ok, pending := none, portOut := s.portOut ++ [.entClose]
      gen := { s.gen with state := .terminated, owned := false } }

/-- R173: with the generator's registers in their ranges, a `GNEXT` with `k` of the word's bytes already emitted, `k` from 1
up, returns byte `k` of the `Hash` word and leaves that word as it is; a `GNEXT` that refills and completes, in the step
that issues it or in a later one, returns byte 0 of the new `Hash` word. -/
def Obligations.StreamIsTheHashWordsBytesInOrder : Prop :=
  (∀ (s t : State), s.gen.inRange = true → s.gen.state = .ready → exec .gnext s = .next t → t.pending = none →
    (∀ k : Nat, 1 ≤ k → k + s.gen.hashLeft.toNat = genBytes s.gen.gw → k < genBytes s.gen.gw →
      t.gbyte = (byteOf s.gen.hash k).setWidth 64 ∧ t.gen.hash = s.gen.hash ∧
        k + 1 + t.gen.hashLeft.toNat = genBytes t.gen.gw) ∧
    (s.gen.hashLeft = 0 →
      t.gbyte = (byteOf t.gen.hash 0).setWidth 64 ∧ 1 + t.gen.hashLeft.toNat = genBytes t.gen.gw)) ∧
  (∀ (s t : State), (s.pending = some .gnextSchedule ∨ ∃ e, s.pending = some (.gnextMessage e)) →
    s.entReq = some .readByte → (∀ rest, s.env ≠ .reset :: rest) → step s = .next t → t.pending = none →
    t.gbyte = (byteOf t.gen.hash 0).setWidth 64 ∧ 1 + t.gen.hashLeft.toNat = genBytes t.gen.gw)

/-- R177 under `P_ENT_LIVE`: in a legal idle `READY` state, a `GNEXT` issued while the agent answers two reads next
completes in the step that issues it (the model's choice of log 4), without an error. -/
def Obligations.GnextCompletesWhenTheAgentAnswers : Prop :=
  ∀ (s : State) (e msg : Byte) (rest : List Event), s.Inv → s.gen.state = .ready → s.pending = none → s.held = none →
    s.env = .host (.regWr 2#8 0x41#64) :: .answer (.byte e) :: .answer (.byte msg) :: rest →
    ∃ t, step s = .next t ∧ t.pending = none ∧ t.err = .ok ∧ t.gen.state = .ready

/-- R37: only a `GNEXT` that succeeds changes `GBYTE`, and what it writes is a byte. Of all steps, only one that takes a
reset, and one in which a `GNEXT` completes without an error, be it issued in that step or in flight, changes `GBYTE`. -/
def Obligations.OnlyGnextWritesGbyte : Prop :=
  (∀ (i : Instr) (s t : State), exec i s = .next t → t.gbyte ≠ s.gbyte →
    i = .gnext ∧ t.err = .ok ∧ t.pending = none ∧ t.gbyte.toNat < 256) ∧
  (∀ s t : State, step s = .next t → t.gbyte ≠ s.gbyte →
    (∃ rest, s.env = .reset :: rest) ∨
    (t.err = .ok ∧ t.pending = none ∧ t.gbyte.toNat < 256 ∧
      (s.pending = some .gnextSchedule ∨ (∃ e, s.pending = some (.gnextMessage e)) ∨
        (s.pending = none ∧ ∃ v, decode v = .ok .gnext ∧
          ((s.held = none ∧ ∃ rest, s.env = .host (.regWr 2#8 v) :: rest) ∨ s.held = some (.regWr 2#8 v))))))

/-- R29: the round and loader commands neither read nor write the generator's state, and the generator's commands
neither read nor write `SEED`, `LCG`, `HASH`, `OUT` and `MSG`, in the step that issues them and in the steps in which
their answers come. -/
def Obligations.GeneratorAndRoundCoreAreSeparate : Prop :=
  (∀ (i : Instr) (s : State) (g : Gen), isGenerator i = false →
    exec i (s.withGen g) = mapNext (fun t => t.withGen g) (exec i s)) ∧
  (∀ (i : Instr) (s : State) (a b c d e : Word), isGenerator i = true →
    exec i (s.withRoundRegisters a b c d e) = mapNext (fun t => t.withRoundRegisters a b c d e) (exec i s)) ∧
  (∀ (s : State) (x : Answer) (a b c d e : Word),
    receiveAnswer x (s.withRoundRegisters a b c d e) =
      mapNext (fun t => t.withRoundRegisters a b c d e) (receiveAnswer x s))

/-- R38: no host transaction but a write to `CMD` tells two generators apart that agree on their lifecycle state and
width: the step is the same, but that each keeps its own generator. -/
def Obligations.HostCannotReadTheGeneratorsPrivateState : Prop :=
  ∀ (s : State) (g : Gen) (t : Transaction) (rest : List Event), g.state = s.gen.state → g.gw = s.gen.gw →
    s.held = none → s.env = .host t :: rest → (∀ v, t ≠ .regWr 2#8 v) →
    step (s.withGen g) = mapNext (fun u => u.withGen g) (step s)

/-- R164: in a legal state, a step puts `EntOpen` on the port only when the source is not held, and then once; it puts
`EntClose` there only when the source is held, and then once, and after it the source is not held; and after a step that
puts `EntRead` there the source is held. -/
def Obligations.SourceIsOpenedOnceAndClosedOnce : Prop :=
  ∀ s t : State, s.Inv → step s = .next t →
    ∃ new, t.portOut = s.portOut ++ new ∧
      (countMsg .entOpen new ≤ 1) ∧ (countMsg .entClose new ≤ 1) ∧
      (.entOpen ∈ new → s.gen.owned = false) ∧
      (.entClose ∈ new → s.gen.owned = true ∧ t.gen.owned = false) ∧
      (.entRead ∈ new → t.gen.owned = true)

/-! ## The machine -/

/-- R212, R213: a command that is complete with an error code has changed nothing of the block but `STATUS.ERR` and
`STATUS.ESTK`, which is 1; only the `GINIT` whose `EntOpen` was answered UNAVAILABLE has put something on the port and taken
an answer before its error, and nothing after it. A command that is complete without one has left `ESTK` as it was. The
same holds of a command that was in flight, in the step in which it completes. -/
def Obligations.ErrorsChangeOnlyErrAndEstk : Prop :=
  (∀ (i : Instr) (s t : State), exec i s = .next t → t.pending = none →
    (t.err ≠ .ok →
      t = { s with err := t.err, estk := true, pending := none } ∨
      ∃ gw prewarm rest, i = .ginit gw prewarm ∧ s.env = .answer (.opened false) :: rest ∧
        t = { s with err := .sourceUnavailable, estk := true, pending := none, entReq := none, env := rest
                     portOut := s.portOut ++ [.entOpen] }) ∧
    (t.err = .ok → t.estk = s.estk)) ∧
  (∀ s t : State, s.pending ≠ none → (∀ rest, s.env ≠ .reset :: rest) → step s = .next t → t.pending = none →
    (t.err ≠ .ok →
      ∃ gw prewarm rest, s.pending = some (.ginitOpen gw prewarm) ∧ s.env = .answer (.opened false) :: rest ∧
        t = { s with err := .sourceUnavailable, estk := true, pending := none, entReq := none, env := rest }) ∧
    (t.err = .ok → t.estk = s.estk))

/-- R41, R126, R147: every command of the table answers a next state in every state, and only `GINIT` and `GNEXT` can be in
flight in it. That a loader over unwritten bytes answers a next state too, the model fault recorded and the byte free, is
the model's choice of log 5. -/
def Obligations.EveryCommandRunsAndOnlyGinitAndGnextWait : Prop :=
  ∀ (i : Instr) (s : State), ∃ t, exec i s = .next t ∧ (mayWait i = false → t.pending = none)

/-- R32 to R37, R39, R40, R60: every step keeps the invariant: memory canonical and in range, the generator's registers
in their ranges, the command in flight waiting on exactly one request, the source held exactly in `READY` or during a
prewarm (whose registers change when `GINIT` ends: the model's choice of log 7). -/
def Obligations.EveryStepKeepsTheInvariant : Prop :=
  ∀ s t : State, s.Inv → step s = .next t → t.Inv

/-- R51 and the constraints of R8: the invariant holds after reset. -/
def Obligations.ResetSatisfiesTheInvariant : Prop := State.reset.Inv

/-- R8: no step changes the parameters of the implementation. -/
def Obligations.NoStepChangesTheParameters : Prop :=
  ∀ s t : State, step s = .next t → t.params = s.params

/-- R51: the value of every piece of state after reset, and that every byte of message memory is unwritten. -/
def Obligations.ResetValues : Prop :=
  let s := State.reset
  s.seed = 0 ∧ s.lcg = 0 ∧ s.hash = 0 ∧ s.out = 0 ∧ s.msg = 0 ∧ s.gbyte = 0 ∧ s.status = 0 ∧
    s.readReg 0#8 = 0x0000000148565250#64 ∧ s.readReg 9#8 = capsWord s.params ∧
    s.gen.state = .uninit ∧ s.gen.gw = .w32 ∧ s.gen.seed = 0 ∧ s.gen.lcg = 0 ∧ s.gen.hash = 0 ∧
    s.gen.lastHash = 0 ∧ s.gen.entCtr = 0 ∧ s.gen.hashLeft = 0 ∧ s.gen.owned = false ∧ s.pending = none ∧
    s.entReq = none ∧ (∀ a, s.mem.read a = none) ∧ s.lineage = none ∧ s.mixed = false

/-- R240, R242, R243: a reset, whatever is in flight or held, puts the block into its reset state at once; it puts one
`EntClose` on the port exactly when the source is held. The late answer to a request that a reset abandoned changes nothing
whenever it comes. Which fields of the model's own a reset keeps is its choice of log 13, that the unwritten bytes are
others after it the choice of log 6. -/
def Obligations.ResetReleasesTheSourceAndDropsTheCommand : Prop :=
  (∀ (s : State) (rest : List Event), s.env = .reset :: rest →
    step s = .next { State.reset with
      params := s.params, env := rest, hostOut := s.hostOut, faults := s.faults, memContents := s.memContents + 1
      portOut := s.portOut ++ (if s.gen.owned then [.entClose] else []) }) ∧
  (∀ (s : State) (a : Answer) (rest : List Event), s.env = .late a :: rest → s.held = none ∨ s.pending ≠ none →
    step s = .next { s with env := rest })

/-- R162, R177, R200: a host program ends. In a legal state, while the source is live (`P_ENT_LIVE`) and the outside world
makes only the moves the spec gives it, the run ends within twice the number of coming events and one step more, and has an
observation. A program of reads and writes that issues no command ends in one step for each of its transactions, and its
observation holds one value for each read. When a run has ended and when the source is live is read from R162 and R200 as
log 20 says. -/
def Obligations.RunsEndWhileTheSourceIsLive : Prop :=
  (∀ s : State, s.Inv → s.movesAllowed → s.entLive → ∃ o, s.observe (2 * s.env.length + 1) = some o) ∧
  (∀ (s : State) (ts : List Transaction), s.pending = none → s.held = none → s.env = ts.map .host →
    (∀ t ∈ ts, t.issuesCommand = false) →
    ∃ o, s.observe ts.length = some o ∧ o.reads.length = (ts.filter Transaction.isRead).length)
end

