-- ==== Sys2Proof/Laws/Encoding.lean ====
section
/-! SUPPORT. The laws of the fields of an encoded command, and of decoding by the row a word selects. -/

namespace Sys2Proof

/-- The opcode is the low byte of every format's layout (R82 to R86). -/
theorem fieldOPC_append (hi : BitVec 56) (opc : Byte) : fieldOPC (hi ++ opc) = opc :=
  BitVec.extractLsb'_append_eq_right

/-- The opcode of a word in format R. -/
theorem fieldOPC_encodeR (opc : Byte) (inj : Bool) : fieldOPC (encodeR opc inj) = opc := fieldOPC_append _ _
/-- The opcode of a word in format M. -/
theorem fieldOPC_encodeM (opc : Byte) (a : Nat) : fieldOPC (encodeM opc a) = opc := fieldOPC_append _ _
/-- The opcode of a word in format P. -/
theorem fieldOPC_encodeP (opc : Byte) (a l : Nat) (fb : Byte) : fieldOPC (encodeP opc a l fb) = opc := fieldOPC_append _ _
/-- The opcode of a word in format G. -/
theorem fieldOPC_encodeG (opc : Byte) (gw : GenWidth) (p : Bool) : fieldOPC (encodeG opc gw p) = opc := fieldOPC_append _ _
/-- The opcode of a word in format N. -/
theorem fieldOPC_encodeN (opc : Byte) : fieldOPC (encodeN opc) = opc := fieldOPC_append _ _

/-- A field of all ones in a mask keeps the field. -/
theorem byte_and_ones (x : Byte) : x &&& 0xFF#8 = x := BitVec.and_allOnes

/-- The fixed bits of a row: its opcode below 56 zeros. -/
theorem opc_setWidth (opc : Byte) : opc.setWidth 64 = (0#56 ++ opc : BitVec (56 + 8)) := by
  apply BitVec.eq_of_getLsbD_eq
  intro i hi
  simp only [BitVec.getLsbD_append, BitVec.getLsbD_setWidth, BitVec.getLsbD_zero]
  split <;> simp_all [BitVec.getLsbD_of_ge]

/-- A word in format R has 0 in its reserved bits (R82). -/
theorem encodeR_and_mask (opc : Byte) (inj : Bool) : encodeR opc inj &&& Format.mask .R = opc.setWidth 64 := by
  rw [opc_setWidth]
  show (0#55 ++ bitOf inj ++ opc : BitVec (55 + 1 + 8)) &&& (0x7FFFFFFFFFFFFF#55 ++ 0#1 ++ 0xFF#8) = _
  rw [BitVec.and_append, BitVec.and_append, byte_and_ones, BitVec.and_zero]
  rfl

/-- A word in format M has 0 in its reserved bits (R83). -/
theorem encodeM_and_mask (opc : Byte) (addr : Nat) : encodeM opc addr &&& Format.mask .M = opc.setWidth 64 := by
  rw [opc_setWidth]
  show (0#16 ++ BitVec.ofNat 16 addr ++ 0#24 ++ opc : BitVec (16 + 16 + 24 + 8)) &&&
    (0xFFFF#16 ++ 0#16 ++ 0xFFFFFF#24 ++ 0xFF#8) = _
  rw [BitVec.and_append, BitVec.and_append, BitVec.and_append, byte_and_ones, BitVec.and_zero]
  rfl

/-- A word in format P has 0 in its reserved bits (R84). -/
theorem encodeP_and_mask (opc : Byte) (addr len : Nat) (fb : Byte) :
    encodeP opc addr len fb &&& Format.mask .P = opc.setWidth 64 := by
  rw [opc_setWidth]
  show (0#16 ++ BitVec.ofNat 16 addr ++ fb ++ 0#5 ++ BitVec.ofNat 3 len ++ 0#8 ++ opc :
      BitVec (16 + 16 + 8 + 5 + 3 + 8 + 8)) &&&
    (0xFFFF#16 ++ 0#16 ++ 0#8 ++ 0x1F#5 ++ 0#3 ++ 0xFF#8 ++ 0xFF#8) = _
  rw [BitVec.and_append, BitVec.and_append, BitVec.and_append, BitVec.and_append, BitVec.and_append,
    BitVec.and_append, byte_and_ones opc, BitVec.and_zero, BitVec.and_zero, BitVec.and_zero]
  rfl

/-- A word in format G has 0 in its reserved bits (R85). -/
theorem encodeG_and_mask (opc : Byte) (gw : GenWidth) (p : Bool) :
    encodeG opc gw p &&& Format.mask .G = opc.setWidth 64 := by
  rw [opc_setWidth]
  show (0#50 ++ bitOf p ++ gw.bit ++ 0#4 ++ opc : BitVec (50 + 1 + 1 + 4 + 8)) &&&
    (0x3FFFFFFFFFFFF#50 ++ 0#1 ++ 0#1 ++ 0xF#4 ++ 0xFF#8) = _
  rw [BitVec.and_append, BitVec.and_append, BitVec.and_append, BitVec.and_append, byte_and_ones, BitVec.and_zero,
    BitVec.and_zero]
  rfl

/-- A word in format N has 0 in its reserved bits (R86). -/
theorem encodeN_and_mask (opc : Byte) : encodeN opc &&& Format.mask .N = opc.setWidth 64 := by
  rw [opc_setWidth]
  exact BitVec.and_allOnes

/-- The `I` field of a word in format R. -/
theorem fieldI_encodeR (opc : Byte) (inj : Bool) : fieldI (encodeR opc inj) = inj := by
  show (0#55 ++ bitOf inj ++ opc : BitVec (55 + 1 + 8)).getLsbD 8 = inj
  simp only [BitVec.getLsbD_append, bitOf]
  simp

/-- The `ADDR` field of a word in format M. -/
theorem fieldADDR_encodeM (opc : Byte) (addr : Nat) (h : addr < 65536) : fieldADDR (encodeM opc addr) = addr := by
  show ((0#16 ++ BitVec.ofNat 16 addr ++ 0#24 ++ opc : BitVec (16 + 16 + 24 + 8)).extractLsb' 32 16).toNat = addr
  rw [BitVec.extractLsb'_append_eq_of_le (by omega), BitVec.extractLsb'_append_eq_of_le (by omega),
    BitVec.extractLsb'_append_eq_right, BitVec.toNat_ofNat]
  omega

/-- The `ADDR` field of a word in format P. -/
theorem fieldADDR_encodeP (opc : Byte) (addr len : Nat) (fb : Byte) (h : addr < 65536) :
    fieldADDR (encodeP opc addr len fb) = addr := by
  show ((0#16 ++ BitVec.ofNat 16 addr ++ fb ++ 0#5 ++ BitVec.ofNat 3 len ++ 0#8 ++ opc :
      BitVec (16 + 16 + 8 + 5 + 3 + 8 + 8)).extractLsb' 32 16).toNat = addr
  repeat rw [BitVec.extractLsb'_append_eq_of_le (by omega)]
  rw [BitVec.extractLsb'_append_eq_right, BitVec.toNat_ofNat]
  omega

/-- The `L` field of a word in format P. -/
theorem fieldL_encodeP (opc : Byte) (addr len : Nat) (fb : Byte) (h : len < 8) :
    fieldL (encodeP opc addr len fb) = len := by
  show ((0#16 ++ BitVec.ofNat 16 addr ++ fb ++ 0#5 ++ BitVec.ofNat 3 len ++ 0#8 ++ opc :
      BitVec (16 + 16 + 8 + 5 + 3 + 8 + 8)).extractLsb' 16 3).toNat = len
  repeat rw [BitVec.extractLsb'_append_eq_of_le (by omega)]
  rw [BitVec.extractLsb'_append_eq_right, BitVec.toNat_ofNat]
  omega

/-- The `FB` field of a word in format P. -/
theorem fieldFB_encodeP (opc : Byte) (addr len : Nat) (fb : Byte) : fieldFB (encodeP opc addr len fb) = fb := by
  show (0#16 ++ BitVec.ofNat 16 addr ++ fb ++ 0#5 ++ BitVec.ofNat 3 len ++ 0#8 ++ opc :
      BitVec (16 + 16 + 8 + 5 + 3 + 8 + 8)).extractLsb' 24 8 = fb
  repeat rw [BitVec.extractLsb'_append_eq_of_le (by omega)]
  rw [BitVec.extractLsb'_append_eq_right]

/-- The `GW` field of a word in format G. -/
theorem fieldGW_encodeG (opc : Byte) (gw : GenWidth) (p : Bool) : fieldGW (encodeG opc gw p) = gw := by
  have h : (encodeG opc gw p).getLsbD 12 = gw.bit.getLsbD 0 := by
    show (0#50 ++ bitOf p ++ gw.bit ++ 0#4 ++ opc : BitVec (50 + 1 + 1 + 4 + 8)).getLsbD 12 = _
    simp only [BitVec.getLsbD_append]
    simp
  unfold fieldGW; rw [h]; cases gw <;> rfl

/-- The `P` field of a word in format G. -/
theorem fieldP_encodeG (opc : Byte) (gw : GenWidth) (p : Bool) : fieldP (encodeG opc gw p) = p := by
  show (0#50 ++ bitOf p ++ gw.bit ++ 0#4 ++ opc : BitVec (50 + 1 + 1 + 4 + 8)).getLsbD 13 = p
  simp only [BitVec.getLsbD_append, bitOf]
  simp

/-- Decoding a word whose opcode finds the row `r` and whose fixed bits are the row's (R94). -/
theorem decode_of_row {v : Word} {r : Row} (h : opcodeTable.find? (fun r => r.opc == fieldOPC v) = some r)
    (hm : v &&& r.format.mask = r.fixed) : decode v = .ok (r.build v) := by
  unfold decode; rw [h]; exact if_pos hm
end Sys2Proof
end

