-- ==== Sys2Proof/Laws/Memory.lean ====
section
/-! SUPPORT. The laws of message memory: read after write, and the canonical form kept by every operation. -/

namespace Sys2Proof.Machine

@[simp] theorem Memory.read_nil (a : Nat) : Memory.read [] a = none := rfl

/-- A byte reads as it was last written. -/
@[simp] theorem Memory.read_write_same (m : Memory) (a : Nat) (b : Byte) : (m.write a b).read a = some b := by
  induction m with
  | nil => simp [Memory.write, Memory.read]
  | cons c m ih =>
    obtain ⟨k, d⟩ := c
    simp only [Memory.write]
    split
    · simp [Memory.read]
    · split
      · simp [Memory.read]
      · simp only [Memory.read]; split
        · omega
        · exact ih

/-- A write leaves every other address alone. -/
theorem Memory.read_write_other (m : Memory) (a k : Nat) (b : Byte) (h : k ≠ a) :
    (m.write a b).read k = m.read k := by
  induction m with
  | nil => simp [Memory.write, Memory.read, h]
  | cons c m ih =>
    obtain ⟨j, d⟩ := c
    simp only [Memory.write]
    split
    · simp [Memory.read, h]
    · split
      · rename_i h'; subst h'; simp [Memory.read, h]
      · simp only [Memory.read, ih]

/-- The addresses a write lists are the address written and those listed before. -/
theorem Memory.mem_write {m : Memory} {a : Nat} {b : Byte} {c : Host.Cell} (h : c ∈ m.write a b) :
    c = (a, b) ∨ c ∈ m := by
  induction m with
  | nil => simpa [Memory.write] using h
  | cons d m ih =>
    obtain ⟨j, e⟩ := d
    simp only [Memory.write] at h
    split at h
    · simpa using h
    · split at h
      · rcases List.mem_cons.mp h with h | h
        · exact .inl h
        · exact .inr (List.mem_cons_of_mem _ h)
      · rcases List.mem_cons.mp h with h | h
        · exact .inr (h ▸ List.mem_cons_self)
        · exact (ih h).imp_right (List.mem_cons_of_mem _)

/-- Every write keeps the canonical form. -/
theorem Memory.write_wf (m : Memory) (a : Nat) (b : Byte) (h : m.wf) : (m.write a b).wf := by
  induction m with
  | nil => simp [Memory.wf, Memory.write]
  | cons c m ih =>
    obtain ⟨k, d⟩ := c
    simp only [Memory.wf, List.map_cons, List.pairwise_cons] at h
    simp only [Memory.write]
    split
    · rename_i hlt
      simp only [Memory.wf, List.map_cons, List.pairwise_cons, List.mem_cons, forall_eq_or_imp]
      exact ⟨⟨hlt, fun x hx => Nat.lt_trans hlt (h.1 x hx)⟩, h⟩
    · split
      · rename_i heq
        simp only [Memory.wf, List.map_cons, List.pairwise_cons]
        exact ⟨fun x hx => heq ▸ h.1 x hx, h.2⟩
      · simp only [Memory.wf, List.map_cons, List.pairwise_cons]
        refine ⟨fun x hx => ?_, ih h.2⟩
        obtain ⟨c, hc, rfl⟩ := List.mem_map.mp hx
        rcases Memory.mem_write hc with rfl | hc
        · simp only; omega
        · exact h.1 _ (List.mem_map_of_mem hc)

/-- Memory after reset has the canonical form. -/
theorem Memory.reset_wf : State.reset.mem.wf := List.Pairwise.nil

/-- No address of the range is unwritten exactly when `firstUnwritten` finds none. -/
theorem Memory.firstUnwritten_none_iff (m : Memory) (a n : Nat) :
    m.firstUnwritten a n = none ↔ ∀ k, k < n → m.read (a + k) ≠ none := by
  induction n generalizing a with
  | zero => simp [Memory.firstUnwritten]
  | succ n ih =>
    simp only [Memory.firstUnwritten]
    split
    · rename_i h
      refine ⟨fun h' => by simp at h', fun h' => ?_⟩
      exact absurd (Option.isNone_iff_eq_none.mp h) (by simpa using h' 0 (by omega))
    · rename_i h
      rw [ih]
      constructor
      · intro h' k hk
        rcases k with _ | k
        · simpa using h
        · have := h' k (by omega)
          rwa [show a + 1 + k = a + (k + 1) by omega] at this
      · intro h' k hk
        have := h' (k + 1) (by omega)
        rwa [show a + (k + 1) = a + 1 + k by omega] at this

/-- `firstUnwritten` is the lowest unwritten address of the range. -/
theorem Memory.firstUnwritten_some (m : Memory) (a n u : Nat) (hu : u < n) (hn : m.read (a + u) = none)
    (hb : ∀ k, k < u → m.read (a + k) ≠ none) : m.firstUnwritten a n = some (a + u) := by
  induction n generalizing a u with
  | zero => omega
  | succ n ih =>
    simp only [Memory.firstUnwritten]
    rcases u with _ | u
    · simp at hn; simp [hn]
    · have h0 := hb 0 (by omega)
      rw [Nat.add_zero] at h0
      rw [if_neg (by simpa using h0)]
      rw [ih (a + 1) u (by omega) (by rwa [show a + 1 + u = a + (u + 1) by omega])
        (fun k hk => by
          have := hb (k + 1) (by omega)
          rwa [show a + (k + 1) = a + 1 + k by omega] at this)]
      congr 1; omega

/-- The fault set after a fault enters: the faults before, and the new one. -/
theorem mem_addFault {f g : Fault} {fs : List Fault} : g ∈ addFault f fs ↔ g ∈ fs ∨ g = f := by
  unfold addFault; split
  · rename_i h; exact ⟨.inl, fun h' => h'.elim id (· ▸ h)⟩
  · simp

/-- The same fault entering twice is the same as once. -/
theorem addFault_idem (f : Fault) (fs : List Fault) : addFault f (addFault f fs) = addFault f fs := by
  rw [addFault, if_pos (mem_addFault.mpr (.inr rfl))]

/-- A written byte is returned as written. -/
theorem State.messageByte_written {s : State} {a : Nat} {b : Byte} (h : s.mem.read a = some b) :
    s.messageByte a = b := by
  simp [State.messageByte, h]

/-- `MemRead(a, n)` has `n` bytes. -/
@[simp] theorem State.messageBytes_length (s : State) (a n : Nat) : (s.messageBytes a n).length = n := by
  induction n generalizing a with
  | zero => rfl
  | succ n ih => simp [State.messageBytes, ih]

/-- Byte `j` of `MemRead(a, n)`. -/
theorem State.messageBytes_get (s : State) (a n j : Nat) (h : j < n) :
    (s.messageBytes a n)[j]? = some (s.messageByte (a + j)) := by
  induction n generalizing a j with
  | zero => omega
  | succ n ih =>
    cases j with
    | zero => simp [State.messageBytes]
    | succ j =>
      simp only [State.messageBytes, List.getElem?_cons_succ]
      rw [ih (a + 1) j (by omega), show a + 1 + j = a + (j + 1) by omega]

/-- The bytes read depend on the memory and on which contents the unwritten bytes have, and on nothing else (R71). -/
theorem State.messageBytes_congr {s s' : State} (hm : s.mem = s'.mem) (hc : s.memContents = s'.memContents)
    (a n : Nat) : s.messageBytes a n = s'.messageBytes a n := by
  induction n generalizing a with
  | zero => rfl
  | succ n ih => simp [State.messageBytes, State.messageByte, hm, hc, ih]

end Sys2Proof.Machine
end

