-- ==== Sys2Proof/Laws/State.lean ====
section
/-! SUPPORT. For each named update of the state, what it leaves in each field: true by `rfl`, for `simp`. -/

namespace Sys2Proof.Machine

variable (s : State)

/-! `State.raise` -/

@[simp] theorem State.raise_params (code : ErrCode) : (s.raise code).params = s.params := rfl
@[simp] theorem State.raise_seed (code : ErrCode) : (s.raise code).seed = s.seed := rfl
@[simp] theorem State.raise_lcg (code : ErrCode) : (s.raise code).lcg = s.lcg := rfl
@[simp] theorem State.raise_hash (code : ErrCode) : (s.raise code).hash = s.hash := rfl
@[simp] theorem State.raise_out (code : ErrCode) : (s.raise code).out = s.out := rfl
@[simp] theorem State.raise_msg (code : ErrCode) : (s.raise code).msg = s.msg := rfl
@[simp] theorem State.raise_gbyte (code : ErrCode) : (s.raise code).gbyte = s.gbyte := rfl
@[simp] theorem State.raise_estk (code : ErrCode) : (s.raise code).estk = true := rfl
@[simp] theorem State.raise_err (code : ErrCode) : (s.raise code).err = code := rfl
@[simp] theorem State.raise_mem (code : ErrCode) : (s.raise code).mem = s.mem := rfl
@[simp] theorem State.raise_gen (code : ErrCode) : (s.raise code).gen = s.gen := rfl
@[simp] theorem State.raise_pending (code : ErrCode) : (s.raise code).pending = none := rfl
@[simp] theorem State.raise_entReq (code : ErrCode) : (s.raise code).entReq = s.entReq := rfl
@[simp] theorem State.raise_held (code : ErrCode) : (s.raise code).held = s.held := rfl
@[simp] theorem State.raise_lineage (code : ErrCode) : (s.raise code).lineage = s.lineage := rfl
@[simp] theorem State.raise_mixed (code : ErrCode) : (s.raise code).mixed = s.mixed := rfl
@[simp] theorem State.raise_faults (code : ErrCode) : (s.raise code).faults = s.faults := rfl
@[simp] theorem State.raise_memContents (code : ErrCode) : (s.raise code).memContents = s.memContents := rfl
@[simp] theorem State.raise_env (code : ErrCode) : (s.raise code).env = s.env := rfl
@[simp] theorem State.raise_hostOut (code : ErrCode) : (s.raise code).hostOut = s.hostOut := rfl
@[simp] theorem State.raise_portOut (code : ErrCode) : (s.raise code).portOut = s.portOut := rfl

/-! `State.succeed` -/

@[simp] theorem State.succeed_params : s.succeed.params = s.params := rfl
@[simp] theorem State.succeed_seed : s.succeed.seed = s.seed := rfl
@[simp] theorem State.succeed_lcg : s.succeed.lcg = s.lcg := rfl
@[simp] theorem State.succeed_hash : s.succeed.hash = s.hash := rfl
@[simp] theorem State.succeed_out : s.succeed.out = s.out := rfl
@[simp] theorem State.succeed_msg : s.succeed.msg = s.msg := rfl
@[simp] theorem State.succeed_gbyte : s.succeed.gbyte = s.gbyte := rfl
@[simp] theorem State.succeed_estk : s.succeed.estk = s.estk := rfl
@[simp] theorem State.succeed_err : s.succeed.err = .ok := rfl
@[simp] theorem State.succeed_mem : s.succeed.mem = s.mem := rfl
@[simp] theorem State.succeed_gen : s.succeed.gen = s.gen := rfl
@[simp] theorem State.succeed_pending : s.succeed.pending = none := rfl
@[simp] theorem State.succeed_entReq : s.succeed.entReq = s.entReq := rfl
@[simp] theorem State.succeed_held : s.succeed.held = s.held := rfl
@[simp] theorem State.succeed_lineage : s.succeed.lineage = s.lineage := rfl
@[simp] theorem State.succeed_mixed : s.succeed.mixed = s.mixed := rfl
@[simp] theorem State.succeed_faults : s.succeed.faults = s.faults := rfl
@[simp] theorem State.succeed_memContents : s.succeed.memContents = s.memContents := rfl
@[simp] theorem State.succeed_env : s.succeed.env = s.env := rfl
@[simp] theorem State.succeed_hostOut : s.succeed.hostOut = s.hostOut := rfl
@[simp] theorem State.succeed_portOut : s.succeed.portOut = s.portOut := rfl

/-! `State.clearSticky` -/

@[simp] theorem State.clearSticky_params : s.clearSticky.params = s.params := rfl
@[simp] theorem State.clearSticky_seed : s.clearSticky.seed = s.seed := rfl
@[simp] theorem State.clearSticky_lcg : s.clearSticky.lcg = s.lcg := rfl
@[simp] theorem State.clearSticky_hash : s.clearSticky.hash = s.hash := rfl
@[simp] theorem State.clearSticky_out : s.clearSticky.out = s.out := rfl
@[simp] theorem State.clearSticky_msg : s.clearSticky.msg = s.msg := rfl
@[simp] theorem State.clearSticky_gbyte : s.clearSticky.gbyte = s.gbyte := rfl
@[simp] theorem State.clearSticky_estk : s.clearSticky.estk = false := rfl
@[simp] theorem State.clearSticky_err : s.clearSticky.err = s.err := rfl
@[simp] theorem State.clearSticky_mem : s.clearSticky.mem = s.mem := rfl
@[simp] theorem State.clearSticky_gen : s.clearSticky.gen = s.gen := rfl
@[simp] theorem State.clearSticky_pending : s.clearSticky.pending = s.pending := rfl
@[simp] theorem State.clearSticky_entReq : s.clearSticky.entReq = s.entReq := rfl
@[simp] theorem State.clearSticky_held : s.clearSticky.held = s.held := rfl
@[simp] theorem State.clearSticky_lineage : s.clearSticky.lineage = s.lineage := rfl
@[simp] theorem State.clearSticky_mixed : s.clearSticky.mixed = s.mixed := rfl
@[simp] theorem State.clearSticky_faults : s.clearSticky.faults = s.faults := rfl
@[simp] theorem State.clearSticky_memContents : s.clearSticky.memContents = s.memContents := rfl
@[simp] theorem State.clearSticky_env : s.clearSticky.env = s.env := rfl
@[simp] theorem State.clearSticky_hostOut : s.clearSticky.hostOut = s.hostOut := rfl
@[simp] theorem State.clearSticky_portOut : s.clearSticky.portOut = s.portOut := rfl

/-! `State.request` -/

@[simp] theorem State.request_params (r : EntReq) (p : Pending) : (s.request r p).params = s.params := rfl
@[simp] theorem State.request_seed (r : EntReq) (p : Pending) : (s.request r p).seed = s.seed := rfl
@[simp] theorem State.request_lcg (r : EntReq) (p : Pending) : (s.request r p).lcg = s.lcg := rfl
@[simp] theorem State.request_hash (r : EntReq) (p : Pending) : (s.request r p).hash = s.hash := rfl
@[simp] theorem State.request_out (r : EntReq) (p : Pending) : (s.request r p).out = s.out := rfl
@[simp] theorem State.request_msg (r : EntReq) (p : Pending) : (s.request r p).msg = s.msg := rfl
@[simp] theorem State.request_gbyte (r : EntReq) (p : Pending) : (s.request r p).gbyte = s.gbyte := rfl
@[simp] theorem State.request_estk (r : EntReq) (p : Pending) : (s.request r p).estk = s.estk := rfl
@[simp] theorem State.request_err (r : EntReq) (p : Pending) : (s.request r p).err = s.err := rfl
@[simp] theorem State.request_mem (r : EntReq) (p : Pending) : (s.request r p).mem = s.mem := rfl
@[simp] theorem State.request_gen (r : EntReq) (p : Pending) : (s.request r p).gen = s.gen := rfl
@[simp] theorem State.request_pending (r : EntReq) (p : Pending) : (s.request r p).pending = some p := rfl
@[simp] theorem State.request_entReq (r : EntReq) (p : Pending) : (s.request r p).entReq = some r := rfl
@[simp] theorem State.request_held (r : EntReq) (p : Pending) : (s.request r p).held = s.held := rfl
@[simp] theorem State.request_lineage (r : EntReq) (p : Pending) : (s.request r p).lineage = s.lineage := rfl
@[simp] theorem State.request_mixed (r : EntReq) (p : Pending) : (s.request r p).mixed = s.mixed := rfl
@[simp] theorem State.request_faults (r : EntReq) (p : Pending) : (s.request r p).faults = s.faults := rfl
@[simp] theorem State.request_memContents (r : EntReq) (p : Pending) : (s.request r p).memContents = s.memContents := rfl
@[simp] theorem State.request_env (r : EntReq) (p : Pending) : (s.request r p).env = s.env := rfl
@[simp] theorem State.request_hostOut (r : EntReq) (p : Pending) : (s.request r p).hostOut = s.hostOut := rfl
@[simp] theorem State.request_portOut (r : EntReq) (p : Pending) : (s.request r p).portOut = s.portOut ++ [r.message] := rfl

/-! `State.answered` -/

@[simp] theorem State.answered_params : s.answered.params = s.params := rfl
@[simp] theorem State.answered_seed : s.answered.seed = s.seed := rfl
@[simp] theorem State.answered_lcg : s.answered.lcg = s.lcg := rfl
@[simp] theorem State.answered_hash : s.answered.hash = s.hash := rfl
@[simp] theorem State.answered_out : s.answered.out = s.out := rfl
@[simp] theorem State.answered_msg : s.answered.msg = s.msg := rfl
@[simp] theorem State.answered_gbyte : s.answered.gbyte = s.gbyte := rfl
@[simp] theorem State.answered_estk : s.answered.estk = s.estk := rfl
@[simp] theorem State.answered_err : s.answered.err = s.err := rfl
@[simp] theorem State.answered_mem : s.answered.mem = s.mem := rfl
@[simp] theorem State.answered_gen : s.answered.gen = s.gen := rfl
@[simp] theorem State.answered_pending : s.answered.pending = s.pending := rfl
@[simp] theorem State.answered_entReq : s.answered.entReq = none := rfl
@[simp] theorem State.answered_held : s.answered.held = s.held := rfl
@[simp] theorem State.answered_lineage : s.answered.lineage = s.lineage := rfl
@[simp] theorem State.answered_mixed : s.answered.mixed = s.mixed := rfl
@[simp] theorem State.answered_faults : s.answered.faults = s.faults := rfl
@[simp] theorem State.answered_memContents : s.answered.memContents = s.memContents := rfl
@[simp] theorem State.answered_env : s.answered.env = s.env := rfl
@[simp] theorem State.answered_hostOut : s.answered.hostOut = s.hostOut := rfl
@[simp] theorem State.answered_portOut : s.answered.portOut = s.portOut := rfl

/-! `State.closeSource` -/

@[simp] theorem State.closeSource_params : s.closeSource.params = s.params := rfl
@[simp] theorem State.closeSource_seed : s.closeSource.seed = s.seed := rfl
@[simp] theorem State.closeSource_lcg : s.closeSource.lcg = s.lcg := rfl
@[simp] theorem State.closeSource_hash : s.closeSource.hash = s.hash := rfl
@[simp] theorem State.closeSource_out : s.closeSource.out = s.out := rfl
@[simp] theorem State.closeSource_msg : s.closeSource.msg = s.msg := rfl
@[simp] theorem State.closeSource_gbyte : s.closeSource.gbyte = s.gbyte := rfl
@[simp] theorem State.closeSource_estk : s.closeSource.estk = s.estk := rfl
@[simp] theorem State.closeSource_err : s.closeSource.err = s.err := rfl
@[simp] theorem State.closeSource_mem : s.closeSource.mem = s.mem := rfl
@[simp] theorem State.closeSource_gen : s.closeSource.gen = { s.gen with owned := false } := rfl
@[simp] theorem State.closeSource_pending : s.closeSource.pending = s.pending := rfl
@[simp] theorem State.closeSource_entReq : s.closeSource.entReq = s.entReq := rfl
@[simp] theorem State.closeSource_held : s.closeSource.held = s.held := rfl
@[simp] theorem State.closeSource_lineage : s.closeSource.lineage = s.lineage := rfl
@[simp] theorem State.closeSource_mixed : s.closeSource.mixed = s.mixed := rfl
@[simp] theorem State.closeSource_faults : s.closeSource.faults = s.faults := rfl
@[simp] theorem State.closeSource_memContents : s.closeSource.memContents = s.memContents := rfl
@[simp] theorem State.closeSource_env : s.closeSource.env = s.env := rfl
@[simp] theorem State.closeSource_hostOut : s.closeSource.hostOut = s.hostOut := rfl
@[simp] theorem State.closeSource_portOut : s.closeSource.portOut = s.portOut ++ [.entClose] := rfl

/-! `State.acquireSource` -/

@[simp] theorem State.acquireSource_params : s.acquireSource.params = s.params := rfl
@[simp] theorem State.acquireSource_seed : s.acquireSource.seed = s.seed := rfl
@[simp] theorem State.acquireSource_lcg : s.acquireSource.lcg = s.lcg := rfl
@[simp] theorem State.acquireSource_hash : s.acquireSource.hash = s.hash := rfl
@[simp] theorem State.acquireSource_out : s.acquireSource.out = s.out := rfl
@[simp] theorem State.acquireSource_msg : s.acquireSource.msg = s.msg := rfl
@[simp] theorem State.acquireSource_gbyte : s.acquireSource.gbyte = s.gbyte := rfl
@[simp] theorem State.acquireSource_estk : s.acquireSource.estk = s.estk := rfl
@[simp] theorem State.acquireSource_err : s.acquireSource.err = s.err := rfl
@[simp] theorem State.acquireSource_mem : s.acquireSource.mem = s.mem := rfl
@[simp] theorem State.acquireSource_gen : s.acquireSource.gen = { s.gen with owned := true } := rfl
@[simp] theorem State.acquireSource_pending : s.acquireSource.pending = s.pending := rfl
@[simp] theorem State.acquireSource_entReq : s.acquireSource.entReq = s.entReq := rfl
@[simp] theorem State.acquireSource_held : s.acquireSource.held = s.held := rfl
@[simp] theorem State.acquireSource_lineage : s.acquireSource.lineage = s.lineage := rfl
@[simp] theorem State.acquireSource_mixed : s.acquireSource.mixed = s.mixed := rfl
@[simp] theorem State.acquireSource_faults : s.acquireSource.faults = s.faults := rfl
@[simp] theorem State.acquireSource_memContents : s.acquireSource.memContents = s.memContents := rfl
@[simp] theorem State.acquireSource_env : s.acquireSource.env = s.env := rfl
@[simp] theorem State.acquireSource_hostOut : s.acquireSource.hostOut = s.hostOut := rfl
@[simp] theorem State.acquireSource_portOut : s.acquireSource.portOut = s.portOut := rfl

/-! `State.terminate` -/

@[simp] theorem State.terminate_params : s.terminate.params = s.params := rfl
@[simp] theorem State.terminate_seed : s.terminate.seed = s.seed := rfl
@[simp] theorem State.terminate_lcg : s.terminate.lcg = s.lcg := rfl
@[simp] theorem State.terminate_hash : s.terminate.hash = s.hash := rfl
@[simp] theorem State.terminate_out : s.terminate.out = s.out := rfl
@[simp] theorem State.terminate_msg : s.terminate.msg = s.msg := rfl
@[simp] theorem State.terminate_gbyte : s.terminate.gbyte = s.gbyte := rfl
@[simp] theorem State.terminate_estk : s.terminate.estk = s.estk := rfl
@[simp] theorem State.terminate_err : s.terminate.err = s.err := rfl
@[simp] theorem State.terminate_mem : s.terminate.mem = s.mem := rfl
@[simp] theorem State.terminate_gen : s.terminate.gen = { s.gen with state := .terminated } := rfl
@[simp] theorem State.terminate_pending : s.terminate.pending = s.pending := rfl
@[simp] theorem State.terminate_entReq : s.terminate.entReq = s.entReq := rfl
@[simp] theorem State.terminate_held : s.terminate.held = s.held := rfl
@[simp] theorem State.terminate_lineage : s.terminate.lineage = s.lineage := rfl
@[simp] theorem State.terminate_mixed : s.terminate.mixed = s.mixed := rfl
@[simp] theorem State.terminate_faults : s.terminate.faults = s.faults := rfl
@[simp] theorem State.terminate_memContents : s.terminate.memContents = s.memContents := rfl
@[simp] theorem State.terminate_env : s.terminate.env = s.env := rfl
@[simp] theorem State.terminate_hostOut : s.terminate.hostOut = s.hostOut := rfl
@[simp] theorem State.terminate_portOut : s.terminate.portOut = s.portOut := rfl

/-! `State.recordRead` -/

@[simp] theorem State.recordRead_params (a n : Nat) : (s.recordRead a n).params = s.params := rfl
@[simp] theorem State.recordRead_seed (a n : Nat) : (s.recordRead a n).seed = s.seed := rfl
@[simp] theorem State.recordRead_lcg (a n : Nat) : (s.recordRead a n).lcg = s.lcg := rfl
@[simp] theorem State.recordRead_hash (a n : Nat) : (s.recordRead a n).hash = s.hash := rfl
@[simp] theorem State.recordRead_out (a n : Nat) : (s.recordRead a n).out = s.out := rfl
@[simp] theorem State.recordRead_msg (a n : Nat) : (s.recordRead a n).msg = s.msg := rfl
@[simp] theorem State.recordRead_gbyte (a n : Nat) : (s.recordRead a n).gbyte = s.gbyte := rfl
@[simp] theorem State.recordRead_estk (a n : Nat) : (s.recordRead a n).estk = s.estk := rfl
@[simp] theorem State.recordRead_err (a n : Nat) : (s.recordRead a n).err = s.err := rfl
@[simp] theorem State.recordRead_mem (a n : Nat) : (s.recordRead a n).mem = s.mem := rfl
@[simp] theorem State.recordRead_gen (a n : Nat) : (s.recordRead a n).gen = s.gen := rfl
@[simp] theorem State.recordRead_pending (a n : Nat) : (s.recordRead a n).pending = s.pending := rfl
@[simp] theorem State.recordRead_entReq (a n : Nat) : (s.recordRead a n).entReq = s.entReq := rfl
@[simp] theorem State.recordRead_held (a n : Nat) : (s.recordRead a n).held = s.held := rfl
@[simp] theorem State.recordRead_lineage (a n : Nat) : (s.recordRead a n).lineage = s.lineage := rfl
@[simp] theorem State.recordRead_mixed (a n : Nat) : (s.recordRead a n).mixed = s.mixed := rfl
@[simp] theorem State.recordRead_memContents (a n : Nat) : (s.recordRead a n).memContents = s.memContents := rfl
@[simp] theorem State.recordRead_env (a n : Nat) : (s.recordRead a n).env = s.env := rfl
@[simp] theorem State.recordRead_hostOut (a n : Nat) : (s.recordRead a n).hostOut = s.hostOut := rfl
@[simp] theorem State.recordRead_portOut (a n : Nat) : (s.recordRead a n).portOut = s.portOut := rfl

/-! `State.markLineage` -/

@[simp] theorem State.markLineage_params (v : Variant) (w : Width) : (s.markLineage v w).params = s.params := rfl
@[simp] theorem State.markLineage_seed (v : Variant) (w : Width) : (s.markLineage v w).seed = s.seed := rfl
@[simp] theorem State.markLineage_lcg (v : Variant) (w : Width) : (s.markLineage v w).lcg = s.lcg := rfl
@[simp] theorem State.markLineage_hash (v : Variant) (w : Width) : (s.markLineage v w).hash = s.hash := rfl
@[simp] theorem State.markLineage_out (v : Variant) (w : Width) : (s.markLineage v w).out = s.out := rfl
@[simp] theorem State.markLineage_msg (v : Variant) (w : Width) : (s.markLineage v w).msg = s.msg := rfl
@[simp] theorem State.markLineage_gbyte (v : Variant) (w : Width) : (s.markLineage v w).gbyte = s.gbyte := rfl
@[simp] theorem State.markLineage_estk (v : Variant) (w : Width) : (s.markLineage v w).estk = s.estk := rfl
@[simp] theorem State.markLineage_err (v : Variant) (w : Width) : (s.markLineage v w).err = s.err := rfl
@[simp] theorem State.markLineage_mem (v : Variant) (w : Width) : (s.markLineage v w).mem = s.mem := rfl
@[simp] theorem State.markLineage_gen (v : Variant) (w : Width) : (s.markLineage v w).gen = s.gen := rfl
@[simp] theorem State.markLineage_pending (v : Variant) (w : Width) : (s.markLineage v w).pending = s.pending := rfl
@[simp] theorem State.markLineage_entReq (v : Variant) (w : Width) : (s.markLineage v w).entReq = s.entReq := rfl
@[simp] theorem State.markLineage_held (v : Variant) (w : Width) : (s.markLineage v w).held = s.held := rfl
@[simp] theorem State.markLineage_lineage (v : Variant) (w : Width) : (s.markLineage v w).lineage = some (v, w) := rfl
@[simp] theorem State.markLineage_mixed (v : Variant) (w : Width) : (s.markLineage v w).mixed = (s.mixed || (s.lineage.isSome && s.lineage != some (v, w))) := rfl
@[simp] theorem State.markLineage_faults (v : Variant) (w : Width) : (s.markLineage v w).faults = s.faults := rfl
@[simp] theorem State.markLineage_memContents (v : Variant) (w : Width) : (s.markLineage v w).memContents = s.memContents := rfl
@[simp] theorem State.markLineage_env (v : Variant) (w : Width) : (s.markLineage v w).env = s.env := rfl
@[simp] theorem State.markLineage_hostOut (v : Variant) (w : Width) : (s.markLineage v w).hostOut = s.hostOut := rfl
@[simp] theorem State.markLineage_portOut (v : Variant) (w : Width) : (s.markLineage v w).portOut = s.portOut := rfl

/-! `State.commitRound` -/

@[simp] theorem State.commitRound_params (v : Variant) (w : Width) (r : RoundResult w.bits) : (s.commitRound v w r).params = s.params := rfl
@[simp] theorem State.commitRound_seed (v : Variant) (w : Width) (r : RoundResult w.bits) : (s.commitRound v w r).seed = zext64 r.seed := rfl
@[simp] theorem State.commitRound_lcg (v : Variant) (w : Width) (r : RoundResult w.bits) : (s.commitRound v w r).lcg = zext64 r.lcg := rfl
@[simp] theorem State.commitRound_hash (v : Variant) (w : Width) (r : RoundResult w.bits) : (s.commitRound v w r).hash = zext64 r.hash := rfl
@[simp] theorem State.commitRound_out (v : Variant) (w : Width) (r : RoundResult w.bits) : (s.commitRound v w r).out = zext64 r.out := rfl
@[simp] theorem State.commitRound_msg (v : Variant) (w : Width) (r : RoundResult w.bits) : (s.commitRound v w r).msg = s.msg := rfl
@[simp] theorem State.commitRound_gbyte (v : Variant) (w : Width) (r : RoundResult w.bits) : (s.commitRound v w r).gbyte = s.gbyte := rfl
@[simp] theorem State.commitRound_estk (v : Variant) (w : Width) (r : RoundResult w.bits) : (s.commitRound v w r).estk = s.estk := rfl
@[simp] theorem State.commitRound_err (v : Variant) (w : Width) (r : RoundResult w.bits) : (s.commitRound v w r).err = .ok := rfl
@[simp] theorem State.commitRound_mem (v : Variant) (w : Width) (r : RoundResult w.bits) : (s.commitRound v w r).mem = s.mem := rfl
@[simp] theorem State.commitRound_gen (v : Variant) (w : Width) (r : RoundResult w.bits) : (s.commitRound v w r).gen = s.gen := rfl
@[simp] theorem State.commitRound_pending (v : Variant) (w : Width) (r : RoundResult w.bits) : (s.commitRound v w r).pending = none := rfl
@[simp] theorem State.commitRound_entReq (v : Variant) (w : Width) (r : RoundResult w.bits) : (s.commitRound v w r).entReq = s.entReq := rfl
@[simp] theorem State.commitRound_held (v : Variant) (w : Width) (r : RoundResult w.bits) : (s.commitRound v w r).held = s.held := rfl
@[simp] theorem State.commitRound_lineage (v : Variant) (w : Width) (r : RoundResult w.bits) : (s.commitRound v w r).lineage = some (v, w) := rfl
@[simp] theorem State.commitRound_mixed (v : Variant) (w : Width) (r : RoundResult w.bits) : (s.commitRound v w r).mixed = (s.mixed || (s.lineage.isSome && s.lineage != some (v, w))) := rfl
@[simp] theorem State.commitRound_faults (v : Variant) (w : Width) (r : RoundResult w.bits) : (s.commitRound v w r).faults = s.faults := rfl
@[simp] theorem State.commitRound_memContents (v : Variant) (w : Width) (r : RoundResult w.bits) : (s.commitRound v w r).memContents = s.memContents := rfl
@[simp] theorem State.commitRound_env (v : Variant) (w : Width) (r : RoundResult w.bits) : (s.commitRound v w r).env = s.env := rfl
@[simp] theorem State.commitRound_hostOut (v : Variant) (w : Width) (r : RoundResult w.bits) : (s.commitRound v w r).hostOut = s.hostOut := rfl
@[simp] theorem State.commitRound_portOut (v : Variant) (w : Width) (r : RoundResult w.bits) : (s.commitRound v w r).portOut = s.portOut := rfl

/-! `State.emit` -/

@[simp] theorem State.emit_params (g : Gen) : (s.emit g).params = s.params := rfl
@[simp] theorem State.emit_seed (g : Gen) : (s.emit g).seed = s.seed := rfl
@[simp] theorem State.emit_lcg (g : Gen) : (s.emit g).lcg = s.lcg := rfl
@[simp] theorem State.emit_hash (g : Gen) : (s.emit g).hash = s.hash := rfl
@[simp] theorem State.emit_out (g : Gen) : (s.emit g).out = s.out := rfl
@[simp] theorem State.emit_msg (g : Gen) : (s.emit g).msg = s.msg := rfl
@[simp] theorem State.emit_gbyte (g : Gen) : (s.emit g).gbyte = zext64 g.emitted := rfl
@[simp] theorem State.emit_estk (g : Gen) : (s.emit g).estk = s.estk := rfl
@[simp] theorem State.emit_err (g : Gen) : (s.emit g).err = .ok := rfl
@[simp] theorem State.emit_mem (g : Gen) : (s.emit g).mem = s.mem := rfl
@[simp] theorem State.emit_gen (g : Gen) : (s.emit g).gen = g.afterEmit := rfl
@[simp] theorem State.emit_pending (g : Gen) : (s.emit g).pending = none := rfl
@[simp] theorem State.emit_entReq (g : Gen) : (s.emit g).entReq = s.entReq := rfl
@[simp] theorem State.emit_held (g : Gen) : (s.emit g).held = s.held := rfl
@[simp] theorem State.emit_lineage (g : Gen) : (s.emit g).lineage = s.lineage := rfl
@[simp] theorem State.emit_mixed (g : Gen) : (s.emit g).mixed = s.mixed := rfl
@[simp] theorem State.emit_faults (g : Gen) : (s.emit g).faults = s.faults := rfl
@[simp] theorem State.emit_memContents (g : Gen) : (s.emit g).memContents = s.memContents := rfl
@[simp] theorem State.emit_env (g : Gen) : (s.emit g).env = s.env := rfl
@[simp] theorem State.emit_hostOut (g : Gen) : (s.emit g).hostOut = s.hostOut := rfl
@[simp] theorem State.emit_portOut (g : Gen) : (s.emit g).portOut = s.portOut := rfl

/-! `State.commitInstance` -/

@[simp] theorem State.commitInstance_params (work : Gen) : (s.commitInstance work).params = s.params := rfl
@[simp] theorem State.commitInstance_seed (work : Gen) : (s.commitInstance work).seed = s.seed := rfl
@[simp] theorem State.commitInstance_lcg (work : Gen) : (s.commitInstance work).lcg = s.lcg := rfl
@[simp] theorem State.commitInstance_hash (work : Gen) : (s.commitInstance work).hash = s.hash := rfl
@[simp] theorem State.commitInstance_out (work : Gen) : (s.commitInstance work).out = s.out := rfl
@[simp] theorem State.commitInstance_msg (work : Gen) : (s.commitInstance work).msg = s.msg := rfl
@[simp] theorem State.commitInstance_gbyte (work : Gen) : (s.commitInstance work).gbyte = s.gbyte := rfl
@[simp] theorem State.commitInstance_estk (work : Gen) : (s.commitInstance work).estk = s.estk := rfl
@[simp] theorem State.commitInstance_err (work : Gen) : (s.commitInstance work).err = .ok := rfl
@[simp] theorem State.commitInstance_mem (work : Gen) : (s.commitInstance work).mem = s.mem := rfl
@[simp] theorem State.commitInstance_gen (work : Gen) : (s.commitInstance work).gen = { work with state := .ready } := rfl
@[simp] theorem State.commitInstance_pending (work : Gen) : (s.commitInstance work).pending = none := rfl
@[simp] theorem State.commitInstance_entReq (work : Gen) : (s.commitInstance work).entReq = s.entReq := rfl
@[simp] theorem State.commitInstance_held (work : Gen) : (s.commitInstance work).held = s.held := rfl
@[simp] theorem State.commitInstance_lineage (work : Gen) : (s.commitInstance work).lineage = s.lineage := rfl
@[simp] theorem State.commitInstance_mixed (work : Gen) : (s.commitInstance work).mixed = s.mixed := rfl
@[simp] theorem State.commitInstance_faults (work : Gen) : (s.commitInstance work).faults = s.faults := rfl
@[simp] theorem State.commitInstance_memContents (work : Gen) : (s.commitInstance work).memContents = s.memContents := rfl
@[simp] theorem State.commitInstance_env (work : Gen) : (s.commitInstance work).env = s.env := rfl
@[simp] theorem State.commitInstance_hostOut (work : Gen) : (s.commitInstance work).hostOut = s.hostOut := rfl
@[simp] theorem State.commitInstance_portOut (work : Gen) : (s.commitInstance work).portOut = s.portOut := rfl

/-! `State.accept` -/

@[simp] theorem State.accept_params (v : Word) : (s.accept v).params = s.params := rfl
@[simp] theorem State.accept_seed (v : Word) : (s.accept v).seed = s.seed := rfl
@[simp] theorem State.accept_lcg (v : Word) : (s.accept v).lcg = s.lcg := rfl
@[simp] theorem State.accept_hash (v : Word) : (s.accept v).hash = s.hash := rfl
@[simp] theorem State.accept_out (v : Word) : (s.accept v).out = s.out := rfl
@[simp] theorem State.accept_msg (v : Word) : (s.accept v).msg = s.msg := rfl
@[simp] theorem State.accept_gbyte (v : Word) : (s.accept v).gbyte = s.gbyte := rfl
@[simp] theorem State.accept_estk (v : Word) : (s.accept v).estk = s.estk := rfl
@[simp] theorem State.accept_err (v : Word) : (s.accept v).err = s.err := rfl
@[simp] theorem State.accept_mem (v : Word) : (s.accept v).mem = s.mem := rfl
@[simp] theorem State.accept_gen (v : Word) : (s.accept v).gen = s.gen := rfl
@[simp] theorem State.accept_pending (v : Word) : (s.accept v).pending = some (.issued v) := rfl
@[simp] theorem State.accept_entReq (v : Word) : (s.accept v).entReq = s.entReq := rfl
@[simp] theorem State.accept_held (v : Word) : (s.accept v).held = s.held := rfl
@[simp] theorem State.accept_lineage (v : Word) : (s.accept v).lineage = s.lineage := rfl
@[simp] theorem State.accept_mixed (v : Word) : (s.accept v).mixed = s.mixed := rfl
@[simp] theorem State.accept_faults (v : Word) : (s.accept v).faults = s.faults := rfl
@[simp] theorem State.accept_memContents (v : Word) : (s.accept v).memContents = s.memContents := rfl
@[simp] theorem State.accept_env (v : Word) : (s.accept v).env = s.env := rfl
@[simp] theorem State.accept_hostOut (v : Word) : (s.accept v).hostOut = s.hostOut := rfl
@[simp] theorem State.accept_portOut (v : Word) : (s.accept v).portOut = s.portOut := rfl

/-! `State.hold` -/

@[simp] theorem State.hold_params (t : Transaction) : (s.hold t).params = s.params := rfl
@[simp] theorem State.hold_seed (t : Transaction) : (s.hold t).seed = s.seed := rfl
@[simp] theorem State.hold_lcg (t : Transaction) : (s.hold t).lcg = s.lcg := rfl
@[simp] theorem State.hold_hash (t : Transaction) : (s.hold t).hash = s.hash := rfl
@[simp] theorem State.hold_out (t : Transaction) : (s.hold t).out = s.out := rfl
@[simp] theorem State.hold_msg (t : Transaction) : (s.hold t).msg = s.msg := rfl
@[simp] theorem State.hold_gbyte (t : Transaction) : (s.hold t).gbyte = s.gbyte := rfl
@[simp] theorem State.hold_estk (t : Transaction) : (s.hold t).estk = s.estk := rfl
@[simp] theorem State.hold_err (t : Transaction) : (s.hold t).err = s.err := rfl
@[simp] theorem State.hold_mem (t : Transaction) : (s.hold t).mem = s.mem := rfl
@[simp] theorem State.hold_gen (t : Transaction) : (s.hold t).gen = s.gen := rfl
@[simp] theorem State.hold_pending (t : Transaction) : (s.hold t).pending = s.pending := rfl
@[simp] theorem State.hold_entReq (t : Transaction) : (s.hold t).entReq = s.entReq := rfl
@[simp] theorem State.hold_held (t : Transaction) : (s.hold t).held = some t := rfl
@[simp] theorem State.hold_lineage (t : Transaction) : (s.hold t).lineage = s.lineage := rfl
@[simp] theorem State.hold_mixed (t : Transaction) : (s.hold t).mixed = s.mixed := rfl
@[simp] theorem State.hold_faults (t : Transaction) : (s.hold t).faults = s.faults := rfl
@[simp] theorem State.hold_memContents (t : Transaction) : (s.hold t).memContents = s.memContents := rfl
@[simp] theorem State.hold_env (t : Transaction) : (s.hold t).env = s.env := rfl
@[simp] theorem State.hold_hostOut (t : Transaction) : (s.hold t).hostOut = s.hostOut := rfl
@[simp] theorem State.hold_portOut (t : Transaction) : (s.hold t).portOut = s.portOut := rfl

/-! `State.respond` -/

@[simp] theorem State.respond_params (r : Response) : (s.respond r).params = s.params := rfl
@[simp] theorem State.respond_seed (r : Response) : (s.respond r).seed = s.seed := rfl
@[simp] theorem State.respond_lcg (r : Response) : (s.respond r).lcg = s.lcg := rfl
@[simp] theorem State.respond_hash (r : Response) : (s.respond r).hash = s.hash := rfl
@[simp] theorem State.respond_out (r : Response) : (s.respond r).out = s.out := rfl
@[simp] theorem State.respond_msg (r : Response) : (s.respond r).msg = s.msg := rfl
@[simp] theorem State.respond_gbyte (r : Response) : (s.respond r).gbyte = s.gbyte := rfl
@[simp] theorem State.respond_estk (r : Response) : (s.respond r).estk = s.estk := rfl
@[simp] theorem State.respond_err (r : Response) : (s.respond r).err = s.err := rfl
@[simp] theorem State.respond_mem (r : Response) : (s.respond r).mem = s.mem := rfl
@[simp] theorem State.respond_gen (r : Response) : (s.respond r).gen = s.gen := rfl
@[simp] theorem State.respond_pending (r : Response) : (s.respond r).pending = s.pending := rfl
@[simp] theorem State.respond_entReq (r : Response) : (s.respond r).entReq = s.entReq := rfl
@[simp] theorem State.respond_held (r : Response) : (s.respond r).held = s.held := rfl
@[simp] theorem State.respond_lineage (r : Response) : (s.respond r).lineage = s.lineage := rfl
@[simp] theorem State.respond_mixed (r : Response) : (s.respond r).mixed = s.mixed := rfl
@[simp] theorem State.respond_faults (r : Response) : (s.respond r).faults = s.faults := rfl
@[simp] theorem State.respond_memContents (r : Response) : (s.respond r).memContents = s.memContents := rfl
@[simp] theorem State.respond_env (r : Response) : (s.respond r).env = s.env := rfl
@[simp] theorem State.respond_hostOut (r : Response) : (s.respond r).hostOut = s.hostOut ++ [r] := rfl
@[simp] theorem State.respond_portOut (r : Response) : (s.respond r).portOut = s.portOut := rfl

/-! `State.applyReset` -/

@[simp] theorem State.applyReset_params : s.applyReset.params = s.params := rfl
@[simp] theorem State.applyReset_seed : s.applyReset.seed = 0 := rfl
@[simp] theorem State.applyReset_lcg : s.applyReset.lcg = 0 := rfl
@[simp] theorem State.applyReset_hash : s.applyReset.hash = 0 := rfl
@[simp] theorem State.applyReset_out : s.applyReset.out = 0 := rfl
@[simp] theorem State.applyReset_msg : s.applyReset.msg = 0 := rfl
@[simp] theorem State.applyReset_gbyte : s.applyReset.gbyte = 0 := rfl
@[simp] theorem State.applyReset_estk : s.applyReset.estk = false := rfl
@[simp] theorem State.applyReset_err : s.applyReset.err = .ok := rfl
@[simp] theorem State.applyReset_mem : s.applyReset.mem = [] := rfl
@[simp] theorem State.applyReset_gen : s.applyReset.gen = Gen.reset := rfl
@[simp] theorem State.applyReset_pending : s.applyReset.pending = none := rfl
@[simp] theorem State.applyReset_entReq : s.applyReset.entReq = none := rfl
@[simp] theorem State.applyReset_held : s.applyReset.held = none := rfl
@[simp] theorem State.applyReset_lineage : s.applyReset.lineage = none := rfl
@[simp] theorem State.applyReset_mixed : s.applyReset.mixed = false := rfl
@[simp] theorem State.applyReset_faults : s.applyReset.faults = s.faults := rfl
@[simp] theorem State.applyReset_memContents : s.applyReset.memContents = s.memContents + 1 := rfl
@[simp] theorem State.applyReset_env : s.applyReset.env = s.env := rfl
@[simp] theorem State.applyReset_hostOut : s.applyReset.hostOut = s.hostOut := rfl
@[simp] theorem State.applyReset_portOut : s.applyReset.portOut = (if s.gen.owned then s.portOut ++ [.entClose] else s.portOut) := rfl

end Sys2Proof.Machine
end

