-- ==== Sys2Proof/Laws/Ops.lean ====
section
/-! SUPPORT. For each shared operation, once, everything it can do: the lemmas later proofs cite instead of unfolding
the operation. -/

namespace Sys2Proof.Machine

/-! ## Operands -/

/-- `l - ~l` is `2l + 1` (R113). -/
theorem multiplier_eq {w : Nat} (l : BitVec w) : multiplier l = 2 * l + 1 := by
  rw [multiplier, BitVec.not_eq_neg_add]
  show l - (-l - 1) = 2 * l + 1
  ring

/-- A rotation by half an even width is the same in both directions (R12). -/
theorem rotHalf_eq_rotateLeft (w : Width) (x : BitVec w.bits) : rotHalf x = x.rotateLeft (w.bits / 2) := by
  cases w <;> rw [rotHalf, BitVec.or_comm] <;> rfl

/-! ## The loaders -/

/-- What a loader command does (R141): `MEM_BOUNDS` and nothing else outside the memory; inside it, the word of the
bytes into `MSG`, the read recorded, and success. -/
theorem loaderCommand_cases (a n : Nat) (word : List Byte → Word) (s : State) :
    (s.params.msgBytes < a + n ∧ loaderCommand a n word s = s.raise .memBounds) ∨
    (a + n ≤ s.params.msgBytes ∧
      loaderCommand a n word s =
        { s with
          msg := word (s.messageBytes a n), err := .ok, pending := none
          faults := (s.recordRead a n).faults }) := by
  unfold loaderCommand State.outOfBounds
  by_cases h : a + n > s.params.msgBytes
  · exact .inl ⟨h, by simp [h]⟩
  · exact .inr ⟨by omega, by simp [h, State.succeed, State.recordRead]⟩

/-- A read over written bytes records nothing. -/
theorem State.recordRead_written (s : State) (a n : Nat) (h : ∀ k, k < n → s.mem.read (a + k) ≠ none) :
    s.recordRead a n = s := by
  have h0 : s.mem.firstUnwritten a n = none := (Memory.firstUnwritten_none_iff _ _ _).mpr h
  simp [State.recordRead, h0]

/-- Reading the same bytes again records nothing new (R71). -/
theorem State.recordRead_idem (s : State) (a n : Nat) : (s.recordRead a n).recordRead a n = s.recordRead a n := by
  simp only [State.recordRead]
  cases s.mem.firstUnwritten a n with
  | none => rfl
  | some u => simp [addFault_idem]

/-- What a read adds to the fault set: the first unwritten address of the range, when there is one. -/
theorem State.recordRead_faults (s : State) (a n : Nat) (f : Fault) :
    f ∈ (s.recordRead a n).faults ↔
      f ∈ s.faults ∨ ∃ u, s.mem.firstUnwritten a n = some u ∧ f = .unwrittenRead u := by
  simp only [State.recordRead]
  cases h : s.mem.firstUnwritten a n with
  | none => simp
  | some u => simp [mem_addFault]

/-! ## The command engine -/

/-- The only two ways an answer is taken (R161). -/
theorem takeAnswer_cases {a : Answer} {s s' : State} (h : takeAnswer a s = some s') :
    (∃ ok, a = .opened ok ∧ s.entReq = some .openSource ∧ s' = answerOpen ok s.answered) ∨
    (∃ b, a = .byte b ∧ s.entReq = some .readByte ∧ s' = answerRead b s.answered) := by
  unfold takeAnswer at h
  split at h
  · exact .inl ⟨_, rfl, by assumption, by simpa using h.symm⟩
  · exact .inr ⟨_, rfl, by assumption, by simpa using h.symm⟩
  · simp at h

/-- What the answer to `EntOpen` can do (R165, R167). -/
theorem answerOpen_cases (ok : Bool) (s : State) :
    (∃ gw p, s.pending = some (.ginitOpen gw p) ∧
      ((ok = false ∧ answerOpen ok s = s.raise .sourceUnavailable) ∨
       (ok = true ∧ p = false ∧
          answerOpen ok s = s.acquireSource.commitInstance ({ s.gen with owned := true }.fresh s.params gw)) ∨
       (ok = true ∧ p = true ∧
          answerOpen ok s = s.acquireSource.request .readByte
            (.ginitPrewarm prewarmRounds ({ s.gen with owned := true }.fresh s.params gw))))) ∨
    ((∀ gw p, s.pending ≠ some (.ginitOpen gw p)) ∧ answerOpen ok s = s) := by
  by_cases h : ∃ gw p, s.pending = some (.ginitOpen gw p)
  · obtain ⟨gw, p, h⟩ := h
    refine .inl ⟨gw, p, h, ?_⟩
    cases ok <;> cases p <;> simp [answerOpen, h, ginitOpened]
  · refine .inr ⟨fun gw p hp => h ⟨gw, p, hp⟩, ?_⟩
    unfold answerOpen
    split
    · rename_i gw p hp; exact absurd ⟨gw, p, hp⟩ h
    · rfl

/-- What the answer to `EntRead` can do (R166, R172). -/
theorem answerRead_cases (b : Byte) (s : State) :
    (∃ left work, s.pending = some (.ginitPrewarm left work) ∧
      ((left ≤ 1 ∧ answerRead b s = s.commitInstance (work.prewarmRound b)) ∨
       (1 < left ∧ answerRead b s = s.request .readByte (.ginitPrewarm (left - 1) (work.prewarmRound b))))) ∨
    (s.pending = some .gnextSchedule ∧ answerRead b s = s.request .readByte (.gnextMessage b)) ∨
    (∃ e, s.pending = some (.gnextMessage e) ∧ answerRead b s = s.emit ((s.gen.schedule e).refill b)) ∨
    answerRead b s = s := by
  unfold answerRead
  split
  · rename_i left work hp
    refine .inl ⟨left, work, hp, ?_⟩
    unfold ginitPrewarmed
    by_cases h : left ≤ 1
    · exact .inl ⟨h, if_pos h⟩
    · exact .inr ⟨by omega, if_neg h⟩
  · rename_i hp; exact .inr (.inl ⟨hp, rfl⟩)
  · rename_i e hp; exact .inr (.inr (.inl ⟨e, hp, rfl⟩))
  · exact .inr (.inr (.inr rfl))

/-- What every answer keeps, and what a change of the coming events keeps, the engine's run keeps. -/
theorem runEngine_induct (P : State → Prop) (hans : ∀ a s s', P s → takeAnswer a s = some s' → P s')
    (henv : ∀ s e, P s → P { s with env := e }) : ∀ (es : List Event) (s : State), P s → P (runEngine es s)
  | [], s, h => henv s _ h
  | .answer a :: rest, s, h => by
    rw [runEngine]
    cases ht : takeAnswer a s with
    | none => exact henv s _ h
    | some s' => exact runEngine_induct P hans henv rest s' (hans a s s' h ht)
  | .host _ :: _, s, h => henv s _ h
  | .late _ :: _, s, h => henv s _ h
  | .reset :: _, s, h => henv s _ h
  | .pause :: _, s, h => henv s _ h

/-- With no request outstanding the engine stops where it is. -/
theorem runEngine_done (es : List Event) (s : State) (h : s.entReq = none) : runEngine es s = { s with env := es } := by
  cases es with
  | nil => rfl
  | cons e es => cases e <;> simp [runEngine, takeAnswer, h]

/-- While it waits on `EntRead`, the engine stops at whatever is no byte. -/
theorem runEngine_waits_read {es : List Event} {s : State} (h : s.entReq = some .readByte)
    (hes : ∀ b rest, es ≠ .answer (.byte b) :: rest) : runEngine es s = { s with env := es } := by
  match es with
  | [] => rfl
  | .answer (.byte b) :: rest => exact absurd rfl (hes b rest)
  | .answer (.opened _) :: _ => simp [runEngine, takeAnswer, h]
  | .host _ :: _ | .late _ :: _ | .reset :: _ | .pause :: _ => rfl

/-- While it waits on `EntOpen`, the engine stops at whatever is no answer to it. -/
theorem runEngine_waits_open {es : List Event} {s : State} (h : s.entReq = some .openSource)
    (hes : ∀ ok rest, es ≠ .answer (.opened ok) :: rest) : runEngine es s = { s with env := es } := by
  match es with
  | [] => rfl
  | .answer (.opened ok) :: rest => exact absurd rfl (hes ok rest)
  | .answer (.byte _) :: _ => simp [runEngine, takeAnswer, h]
  | .host _ :: _ | .late _ :: _ | .reset :: _ | .pause :: _ => rfl

/-- The answer the engine waits for is taken. -/
theorem runEngine_answer {a : Answer} {s s' : State} (rest : List Event) (h : takeAnswer a s = some s') :
    runEngine (.answer a :: rest) s = runEngine rest s' := by
  simp [runEngine, h]

/-! ## The host interface -/

/-- What a byte read by the host does (R197). -/
theorem State.memRead_cases (a : BitVec 16) (s : State) :
    (a.toNat < s.params.msgBytes ∧
      s.memRead a = (s.recordRead a.toNat 1).respond (.byte (s.messageByte a.toNat))) ∨
    (s.params.msgBytes ≤ a.toNat ∧ s.memRead a = s.respond (.byte 0)) := by
  unfold State.memRead State.inMemory
  by_cases h : a.toNat < s.params.msgBytes
  · exact .inl ⟨h, by simp [h]⟩
  · exact .inr ⟨by omega, by simp [h]⟩

/-- What an accepted transaction does (R191). -/
theorem acceptTransaction_cases (t : Transaction) (s : State) :
    (∃ i, t = .regRd i ∧ acceptTransaction t s = .next (s.respond (.word (s.readReg i)))) ∨
    (∃ v, t = .regWr cmdIndex v ∧ acceptTransaction t s = issueCommand v s) ∨
    (∃ i v, t = .regWr i v ∧ i ≠ cmdIndex ∧ acceptTransaction t s = .next (s.writeReg i v)) ∨
    (∃ a, t = .memRd a ∧ acceptTransaction t s = .next (s.memRead a)) ∨
    (∃ a b, t = .memWr a b ∧ acceptTransaction t s = .next (s.memWrite a b)) := by
  cases t with
  | regRd i => exact .inl ⟨i, rfl, rfl⟩
  | regWr i v =>
    by_cases h : i = cmdIndex
    · subst h; exact .inr (.inl ⟨v, rfl, by simp [acceptTransaction]⟩)
    · exact .inr (.inr (.inl ⟨i, v, rfl, h, by simp [acceptTransaction, h]⟩))
  | memRd a => exact .inr (.inr (.inr (.inl ⟨a, rfl, rfl⟩)))
  | memWr a b => exact .inr (.inr (.inr (.inr ⟨a, b, rfl, rfl⟩)))

/-- What issuing a command does (R192). -/
theorem issueCommand_cases (v : Word) (s : State) :
    (∃ e, decode v = .error e ∧ issueCommand v s = .next ((s.accept v).raise .illegalCmd)) ∨
    (∃ i, decode v = .ok i ∧ issueCommand v s = exec i (s.accept v)) := by
  unfold issueCommand
  cases h : decode v with
  | error e => exact .inl ⟨e, rfl, rfl⟩
  | ok i => exact .inr ⟨i, rfl, rfl⟩

/-- `resetNext` says that the next event is a reset. -/
theorem resetNext_iff (es : List Event) : resetNext es = true ↔ ∃ rest, es = .reset :: rest := by
  cases es with
  | nil => simp [resetNext]
  | cons e es => cases e <;> simp [resetNext]

/-- A held transaction is what an idle block accepts next, unless a reset comes (R193, R240). -/
theorem step_held {s : State} {x : Transaction} (hh : s.held = some x) (hp : s.pending = none)
    (hr : ∀ rest, s.env ≠ .reset :: rest) : step s = acceptTransaction x { s with held := none } := by
  have : resetNext s.env = false := by
    rw [Bool.eq_false_iff, ne_eq, resetNext_iff]; rintro ⟨rest, h⟩; exact hr rest h
  simp [step, nextMove, hh, State.busy, hp, this]

/-- Otherwise the next event takes place. -/
theorem step_event {s : State} (h : s.held = none ∨ s.pending ≠ none ∨ ∃ rest, s.env = .reset :: rest) :
    step s = takeEvent s := by
  unfold step nextMove
  split
  · rename_i x hx hb
    rw [Bool.or_eq_false_iff] at hb
    rcases h with h | h | h
    · simp [h] at hx
    · simp [State.busy, h] at hb
    · rw [(resetNext_iff _).mpr h] at hb; simp at hb
  · rfl

/-- Everything a step that answers a next state can have done (R193, R240): accepted the held transaction; waited for
events; accepted or held the transaction presented; taken an answer and run on; ignored a late answer; reset; let a
moment pass. -/
theorem step_cases {s t : State} (h : step s = .next t) :
    (∃ x, s.held = some x ∧ s.pending = none ∧ (∀ rest, s.env ≠ .reset :: rest) ∧
      acceptTransaction x { s with held := none } = .next t) ∨
    (s.env = [] ∧ (s.held = none ∨ s.pending ≠ none) ∧ t = s) ∨
    (∃ x rest, s.env = .host x :: rest ∧ s.held = none ∧ (s.pending = none ∨ x = .regRd statusIndex) ∧
      acceptTransaction x { s with env := rest } = .next t) ∨
    (∃ x rest, s.env = .host x :: rest ∧ s.held = none ∧ s.pending ≠ none ∧
      t = { s with env := rest, held := some x }) ∨
    (∃ a rest s', s.env = .answer a :: rest ∧ takeAnswer a { s with env := rest } = some s' ∧
      t = runEngine s'.env s') ∨
    (∃ a rest, s.env = .late a :: rest ∧ (s.held = none ∨ s.pending ≠ none) ∧ t = { s with env := rest }) ∨
    (∃ rest, s.env = .reset :: rest ∧ t = { s with env := rest }.applyReset) ∨
    (∃ rest, s.env = .pause :: rest ∧ (s.held = none ∨ s.pending ≠ none) ∧ t = { s with env := rest }) := by
  by_cases hc : s.held = none ∨ s.pending ≠ none ∨ ∃ rest, s.env = .reset :: rest
  · right
    rw [step_event hc] at h
    have hw : (∀ rest, s.env ≠ .reset :: rest) → s.held = none ∨ s.pending ≠ none := fun hr =>
      hc.imp_right fun hc => hc.elim id fun ⟨rest, he⟩ => absurd he (hr rest)
    unfold takeEvent at h
    split at h
    · rename_i he; simp only [Host.Outcome.next.injEq] at h; exact .inl ⟨he, hw (by simp [he]), h.symm⟩
    · rename_i e rest he
      right
      cases e with
      | host x =>
        simp only [applyEvent, presentTransaction] at h
        split at h
        · simp at h
        · rename_i hh
          have hh' : s.held = none := by simpa using hh
          split at h
          · rename_i hb
            simp only [Host.Outcome.next.injEq] at h
            refine .inr (.inl ⟨x, rest, he, hh', ?_, h.symm⟩)
            intro hp; simp [State.busy, hp] at hb
          · rename_i hb
            refine .inl ⟨x, rest, he, hh', ?_, h⟩
            by_cases hp : s.pending = none
            · exact .inl hp
            · right
              by_contra hx
              apply hb
              simp [State.busy, hx, Option.isSome_iff_ne_none, hp]
      | answer a =>
        simp only [applyEvent, receiveAnswer] at h
        split at h
        · rename_i s' ht
          simp only [Host.Outcome.next.injEq] at h
          exact .inr (.inr (.inl ⟨a, rest, s', he, ht, h.symm⟩))
        · simp at h
      | late a =>
        simp only [applyEvent, Host.Outcome.next.injEq] at h
        exact .inr (.inr (.inr (.inl ⟨a, rest, he, hw (by simp [he]), h.symm⟩)))
      | reset =>
        simp only [applyEvent, Host.Outcome.next.injEq] at h
        exact .inr (.inr (.inr (.inr (.inl ⟨rest, he, h.symm⟩))))
      | pause =>
        simp only [applyEvent, Host.Outcome.next.injEq] at h
        exact .inr (.inr (.inr (.inr (.inr ⟨rest, he, hw (by simp [he]), h.symm⟩))))
  · push Not at hc
    obtain ⟨x, hx⟩ := Option.ne_none_iff_exists'.mp hc.1
    rw [step_held hx hc.2.1 hc.2.2] at h
    exact .inl ⟨x, hx, hc.2.1, hc.2.2, h⟩

/-! ## The generator commands -/

/-- Everything `GINIT` does (R165, R168). -/
theorem execGinit_cases (gw : GenWidth) (p : Bool) (s : State) :
    (s.gen.state = .ready ∧ execGinit gw p s = .next (s.raise .genState)) ∨
    (s.gen.state ≠ .ready ∧
      execGinit gw p s = .next (runEngine s.env (s.request .openSource (.ginitOpen gw p)))) := by
  unfold execGinit
  by_cases h : s.gen.state = .ready <;> simp [h]

/-- Everything `GNEXT` does (R172). -/
theorem execGnext_cases (s : State) :
    (s.gen.state ≠ .ready ∧ execGnext s = .next (s.raise .genState)) ∨
    (s.gen.state = .ready ∧ s.gen.hashLeft ≠ 0 ∧ execGnext s = .next (s.emit s.gen)) ∨
    (s.gen.state = .ready ∧ s.gen.hashLeft = 0 ∧ s.gen.entCtr ≠ 0 ∧ execGnext s = .next (s.emit (s.gen.refill 0))) ∨
    (s.gen.state = .ready ∧ s.gen.hashLeft = 0 ∧ s.gen.entCtr = 0 ∧
      execGnext s = .next (runEngine s.env (s.request .readByte .gnextSchedule))) := by
  unfold execGnext
  by_cases h : s.gen.state = .ready
  · rw [if_neg (not_not.mpr h)]
    by_cases h1 : s.gen.hashLeft = 0
    · rw [if_neg (not_not.mpr h1)]
      by_cases h2 : s.gen.entCtr = 0
      · exact .inr (.inr (.inr ⟨h, h1, h2, by rw [if_neg (not_not.mpr h2)]⟩))
      · exact .inr (.inr (.inl ⟨h, h1, h2, by rw [if_pos h2]⟩))
    · exact .inr (.inl ⟨h, h1, by rw [if_pos h1]⟩)
  · exact .inl ⟨h, by rw [if_pos h]⟩

/-- Everything `GFINAL` does (R180). -/
theorem execGfinal_cases (s : State) :
    (s.gen.state ≠ .ready ∧ execGfinal s = .next (s.raise .genState)) ∨
    (s.gen.state = .ready ∧ execGfinal s = .next s.closeSource.terminate.succeed) := by
  unfold execGfinal
  by_cases h : s.gen.state = .ready <;> simp [h]

end Sys2Proof.Machine
end

