-- ==== Sys2Proof/Laws/PerInstr.lean ====
section
/-! SUPPORT. Facts of every command as syntax, one lemma per constructor. -/

namespace Sys2Proof

/-- The command's word selects its row of the opcode table: some row has its opcode, and the word agrees with the row on
the fixed bits of the row's format (R89, R94). -/
def Laws.EncodesInItsRow.Statement (i : Instr) : Prop :=
  ∃ r, opcodeTable.find? (fun r => r.opc == fieldOPC (encode i)) = some r ∧ encode i &&& r.format.mask = r.fixed

theorem Laws.EncodesInItsRow.rnda2 (inj : Bool) : Laws.EncodesInItsRow.Statement (.rnda2 inj) := by
  refine ⟨_, (by rw [encode, fieldOPC_encodeR]; rfl), ?_⟩
  exact encodeR_and_mask 0x11#8 _

theorem Laws.EncodesInItsRow.rnda4 (inj : Bool) : Laws.EncodesInItsRow.Statement (.rnda4 inj) := by
  refine ⟨_, (by rw [encode, fieldOPC_encodeR]; rfl), ?_⟩
  exact encodeR_and_mask 0x12#8 _

theorem Laws.EncodesInItsRow.rnda8 (inj : Bool) : Laws.EncodesInItsRow.Statement (.rnda8 inj) := by
  refine ⟨_, (by rw [encode, fieldOPC_encodeR]; rfl), ?_⟩
  exact encodeR_and_mask 0x13#8 _

theorem Laws.EncodesInItsRow.rnda16 (inj : Bool) : Laws.EncodesInItsRow.Statement (.rnda16 inj) := by
  refine ⟨_, (by rw [encode, fieldOPC_encodeR]; rfl), ?_⟩
  exact encodeR_and_mask 0x14#8 _

theorem Laws.EncodesInItsRow.rnda32 (inj : Bool) : Laws.EncodesInItsRow.Statement (.rnda32 inj) := by
  refine ⟨_, (by rw [encode, fieldOPC_encodeR]; rfl), ?_⟩
  exact encodeR_and_mask 0x15#8 _

theorem Laws.EncodesInItsRow.rnda64 (inj : Bool) : Laws.EncodesInItsRow.Statement (.rnda64 inj) := by
  refine ⟨_, (by rw [encode, fieldOPC_encodeR]; rfl), ?_⟩
  exact encodeR_and_mask 0x16#8 _

theorem Laws.EncodesInItsRow.rndb2 (inj : Bool) : Laws.EncodesInItsRow.Statement (.rndb2 inj) := by
  refine ⟨_, (by rw [encode, fieldOPC_encodeR]; rfl), ?_⟩
  exact encodeR_and_mask 0x21#8 _

theorem Laws.EncodesInItsRow.rndb64 (inj : Bool) : Laws.EncodesInItsRow.Statement (.rndb64 inj) := by
  refine ⟨_, (by rw [encode, fieldOPC_encodeR]; rfl), ?_⟩
  exact encodeR_and_mask 0x26#8 _

theorem Laws.EncodesInItsRow.ldw32 (addr : Nat) : Laws.EncodesInItsRow.Statement (.ldw32 addr) := by
  refine ⟨_, (by rw [encode, fieldOPC_encodeM]; rfl), ?_⟩
  exact encodeM_and_mask 0x35#8 _

theorem Laws.EncodesInItsRow.ldw64 (addr : Nat) : Laws.EncodesInItsRow.Statement (.ldw64 addr) := by
  refine ⟨_, (by rw [encode, fieldOPC_encodeM]; rfl), ?_⟩
  exact encodeM_and_mask 0x36#8 _

theorem Laws.EncodesInItsRow.ldp64 (addr len : Nat) (fb : Byte) : Laws.EncodesInItsRow.Statement (.ldp64 addr len fb) := by
  refine ⟨_, (by rw [encode, fieldOPC_encodeP]; rfl), ?_⟩
  exact encodeP_and_mask 0x3E#8 _ _ _

theorem Laws.EncodesInItsRow.ginit (gw : GenWidth) (prewarm : Bool) : Laws.EncodesInItsRow.Statement (.ginit gw prewarm) := by
  refine ⟨_, (by rw [encode, fieldOPC_encodeG]; rfl), ?_⟩
  exact encodeG_and_mask 0x40#8 _ _

theorem Laws.EncodesInItsRow.gnext : Laws.EncodesInItsRow.Statement .gnext := by
  refine ⟨_, (by rw [encode, fieldOPC_encodeN]; rfl), ?_⟩
  exact encodeN_and_mask 0x41#8

theorem Laws.EncodesInItsRow.gfinal : Laws.EncodesInItsRow.Statement .gfinal := by
  refine ⟨_, (by rw [encode, fieldOPC_encodeN]; rfl), ?_⟩
  exact encodeN_and_mask 0x42#8

end Sys2Proof
end

