-- ==== Sys2Proof/Tests/Slice0.lean ====
section
/-! SUPPORT. Our own tests: ill-formed commands, decoding, the spec's vectors (95_test_vectors) one step at a time, and
for every statement with hypotheses a concrete case that meets them. -/

namespace Sys2Proof.Tests

open Sys2Proof.Machine

/-! ## Small states -/

/-- The illustration constants of 95_test_vectors and a memory of 16 bytes. -/
def params16 : Params :=
  { msgBytes := 16, bswap2 := .identity, genSeed32 := 1, genLcg32 := 2, genSeed64 := 1, genLcg64 := 2 }

/-- Right after reset, with those parameters. -/
def base : State := { State.reset with params := params16 }

/-- The triple `(s, l, h)` and the message word `m` on top of `base`. -/
def triple (s l h m : Word) : State := { base with seed := s, lcg := l, hash := h, msg := m }

/-- The memory bytes `bs` from address `a` on. -/
def bytesFrom (a : Nat) (bs : List Byte) : Memory := (List.range bs.length).zip bs |>.map fun p => (a + p.1, p.2)

/-- `mem0` of 41_loader at address 0. -/
def mem0 : State :=
  { base with mem := bytesFrom 0 [0x10, 0x32, 0x54, 0x76, 0x98, 0xBA, 0xDC, 0xFE, 0x01, 0x02, 0x03] }

/-- Bytes `01` to `08` at `0xFFF8` to `0xFFFF` of a memory of 65536 bytes, and `MSG` as in section 5 of the vectors. -/
def top : State :=
  { base with
    params := { params16 with msgBytes := 65536 }
    mem := bytesFrom 0xFFF8 [1, 2, 3, 4, 5, 6, 7, 8]
    msg := 0x1111111111111111#64 }

/-- `base` with the next event `e`. -/
def facing (e : Event) : State := { base with env := [e] }

/-- A generator of width `gw` in `READY`, its source held, its triple that of `GINIT` without prewarm. -/
def readyGen (gw : GenWidth) : Gen :=
  { state := .ready, gw := gw, seed := 1, lcg := 2, hash := 0, entCtr := 0, hashLeft := 0, lastHash := 0, owned := true }

/-- An idle state with that generator. -/
def ready (gw : GenWidth) : State := { base with gen := readyGen gw }

/-- A ready 32-bit generator with two bytes of the word `0x01530000` left (vector G1 after `gnext` #1). -/
def buffered : State :=
  { base with gen := { readyGen .w32 with hash := 0x01530000#64, lastHash := 0x0153#64, hashLeft := 2#4, entCtr := 3#12 } }

/-- A `GNEXT` that waits on its first read. -/
def waiting : State := { ready .w32 with pending := some .gnextSchedule, entReq := some .readByte }

/-- A `GINIT` that waits on `EntOpen`. -/
def opening (prewarm : Bool) : State :=
  { base with pending := some (.ginitOpen .w32 prewarm), entReq := some .openSource }

/-- A `GINIT` with `left` prewarm rounds to go. -/
def prewarming (left : Nat) : State :=
  { base with
    gen := { Gen.reset with owned := true }, entReq := some .readByte
    pending := some (.ginitPrewarm left { readyGen .w32 with state := .uninit }) }

/-- The next state of an outcome. -/
def nextOf : Host.Outcome State Fault Refusal → Option State
  | .next s => some s
  | .fault _ => none
  | .refused _ => none

/-- The round-core registers after an outcome. -/
def roundOut (o : Host.Outcome State Fault Refusal) : Option (Word × Word × Word × Word) :=
  (nextOf o).map fun s => (s.seed, s.lcg, s.hash, s.out)

/-- `MSG`, `STATUS.ERR` and the fault set after an outcome. -/
def loadOut (o : Host.Outcome State Fault Refusal) : Option (Word × ErrCode × List Fault) :=
  (nextOf o).map fun s => (s.msg, s.err, s.faults)

/-- `GBYTE`, the generator's triple, `EntCtr`, `HashLeft` and `LastHash` after an outcome. -/
def genOut (o : Host.Outcome State Fault Refusal) :
    Option (Word × Word × Word × Word × BitVec 12 × BitVec 4 × Word) :=
  (nextOf o).map fun s =>
    (s.gbyte, s.gen.seed, s.gen.lcg, s.gen.hash, s.gen.entCtr, s.gen.hashLeft, s.gen.lastHash)

/-- `STATUS` after an outcome. -/
def statusOut (o : Host.Outcome State Fault Refusal) : Option Word := (nextOf o).map State.status

/-! ## Ill-formed commands (R87, R95) -/

theorem test_wf_refuses_long_address :
    Instr.wf (.ldw32 0x10000) = false ∧ Instr.wf (.ldw64 0x10000) = false ∧ Instr.wf (.ldp64 0x10000 0 0) = false := by
  decide

theorem test_wf_refuses_long_length : Instr.wf (.ldp64 0 8 0) = false ∧ Instr.wf (.ldp64 0xFFFF 7 0xFF) = true := by
  decide

theorem test_assembler_refuses :
    (AsmLine.ldw64 0x10000).expand = none ∧ (AsmLine.ldp64 0 8 0).expand = none ∧
      (AsmLine.ldp64 0 0 0x100).expand = none ∧ (AsmLine.rnda 12 false).expand = none ∧
      (AsmLine.rndb 4 false).expand = none ∧ (AsmLine.ginit 16 false).expand = none := by
  decide

/-! ## Decoding: words of 30_encoding and of 95_test_vectors section 4 -/

theorem test_decode_round_commands :
    [0x011, 0x111, 0x012, 0x013, 0x014, 0x015, 0x116, 0x021, 0x026].map (decodeTableWord 64) =
      [some (.rnda2 false), some (.rnda2 true), some (.rnda4 false), some (.rnda8 false), some (.rnda16 false),
        some (.rnda32 false), some (.rnda64 true), some (.rndb2 false), some (.rndb64 false)] := by
  decide

theorem test_decode_loader_commands :
    [0x0000123400000035, 0x0000FFF800000036, 0x000000080103003E, 0x000000008007003E].map (decodeTableWord 64) =
      [some (.ldw32 0x1234), some (.ldw64 0xFFF8), some (.ldp64 8 3 0x01), some (.ldp64 0 7 0x80)] := by
  decide

theorem test_decode_generator_commands :
    [0x0040, 0x1040, 0x2040, 0x3040, 0x0041, 0x0042].map (decodeTableWord 64) =
      [some (.ginit .w32 false), some (.ginit .w64 false), some (.ginit .w32 true), some (.ginit .w64 true),
        some .gnext, some .gfinal] := by
  decide

/-- E13 to E22. -/
theorem test_decode_illegal_words :
    [0, 0x22, 0x17, 0xFF, 0x8000000000000016, 0x136, 0x0001000000000036, 0x8003E, 0x840, 0x141].map
      (decodeTableWord 64) = List.replicate 10 none := by
  decide

/-- The worked words of R95, encoded. -/
theorem test_encode_worked_words :
    [Instr.rnda64 true, .ldw64 0x10, .ldp64 8 4 0x01, .ginit .w64 true].map encode =
      [0x116#64, 0x0000001000000036#64, 0x000000080104003E#64, 0x3040#64] := by
  decide

/-- The same lines as text, the last one an expansion of R97. -/
theorem test_assemble_text :
    assembleText "RNDA.64 inj".toList = some [.regWr 2#8 0x116#64] ∧
      assembleText "ldp64 0x0008, 4, 0x01".toList = some [.regWr 2#8 0x000000080104003E#64] ∧
      assembleText "hash64 0x10".toList = some [.regWr 2#8 0x0000001000000036#64, .regWr 2#8 0x116#64] := by
  decide

/-! ## Round core: vectors of sections 2 and 3 -/

/-- A2-1. -/
theorem test_rnda2 : roundOut (exec (.rnda2 false) (triple 1 2 3 0)) = some (3, 0, 1, 2) := by decide

/-- A4-2: only `MSG[3:0]` is injected. -/
theorem test_rnda4_inj : roundOut (exec (.rnda4 true) (triple 5 0xA 3 0xF3)) = some (0xB, 9, 2, 6) := by decide

/-- A8-W2. -/
theorem test_rnda8_wraps :
    roundOut (exec (.rnda8 false) (triple 0xC3 0x7F 0xFE 0)) = some (0xAE, 0x41, 0xD1, 0x92) := by decide

/-- A-HI: high bits are ignored and cleared. -/
theorem test_rnda8_high_bits :
    roundOut (exec (.rnda8 false) (triple 0xFFFFFFFFFFFFFF12 0xAAAAAAAAAAAAAA34 0x5555555555555556 0)) =
      some (0x48, 0xD1, 0x7C, 0xF7) := by
  decide

/-- A16-1. -/
theorem test_rnda16 :
    roundOut (exec (.rnda16 false) (triple 0x1234 0x5678 0x9ABC 0)) = some (0xD8B6, 0x4383, 0x8ECE, 0xB791) := by
  decide

/-- A32-I: `MSG[63:32]` is ignored. -/
theorem test_rnda32_inj :
    roundOut (exec (.rnda32 true) (triple 0x12345678 0x9ABCDEF0 0x0F1E2D3C 0xFFFFFFFFDEADBEEF)) =
      some (0x12B644F8, 0x4C661896, 0x56A724E7, 0x0BEEEF3D) := by
  decide

/-- A64-2. -/
theorem test_rnda64_inj :
    roundOut (exec (.rnda64 true)
        (triple 0x0123456789ABCDEF 0xFEDCBA9876543210 0x0F1E2D3C4B5A6978 0x0807060504030201)) =
      some (0xD59D48749C1CDF84, 0x53EA36805E2E6863, 0x2346F4E9EE4BEF95, 0x47C2F12DFCDFEE7E) := by
  decide

/-- B2-1 and B2-2: the two values of `P_BSWAP2`. -/
theorem test_rndb2 :
    roundOut (exec (.rndb2 false) (triple 1 0 0 0)) = some (1, 2, 1, 3) ∧
      roundOut (exec (.rndb2 false) { triple 1 0 0 0 with params := { params16 with bswap2 := .bitswap } }) =
        some (1, 2, 2, 0) := by
  decide

/-- B64-2. -/
theorem test_rndb64_inj :
    roundOut (exec (.rndb64 true)
        (triple 0x0123456789ABCDEF 0xFEDCBA9876543210 0x0F1E2D3C4B5A6978 0x0807060504030201)) =
      some (0x27750344E98C8E52, 0xCF66B95888CAA1BE, 0x61ACBA258F5DDE9F, 0x9DE835B1CCC9D499) := by
  decide

/-! ## Loaders: R142 to R144, vectors of section 5 -/

theorem test_ldw32 : loadOut (exec (.ldw32 3) mem0) = some (0xDCBA9876, .ok, []) := by decide

/-- L4. -/
theorem test_ldw32_bounds : loadOut (exec (.ldw32 0xFFFD) top) = some (0x1111111111111111, .memBounds, []) := by decide

theorem test_ldw64 : loadOut (exec (.ldw64 1) mem0) = some (0x01FEDCBA98765432, .ok, []) := by decide

/-- L1. -/
theorem test_ldw64_top : loadOut (exec (.ldw64 0xFFF8) top) = some (0x0807060504030201, .ok, []) := by decide

theorem test_ldp64 : loadOut (exec (.ldp64 8 3 0x01) mem0) = some (0x01030201, .ok, []) := by decide

/-- L12 and L13. -/
theorem test_ldp64_empty :
    loadOut (exec (.ldp64 16 0 0xAA) base) = some (0xAA, .ok, []) ∧
      loadOut (exec (.ldp64 17 0 0xAA) base) = some (0, .memBounds, []) := by
  decide

/-- Section 5, the last line: with only byte 0 written, `ldw32 0` is a model fault at address 1. -/
theorem test_ldw32_unwritten :
    (nextOf (exec (.ldw32 0) { base with mem := [(0, 0x01)] })).map State.faults = some [.unwrittenRead 1] := by
  decide

/-! ## Generator: vectors of section 6 -/

/-- G1, `ginit.32`: the triple, the counters, `STATUS`. -/
theorem test_ginit :
    statusOut (exec (.ginit .w32 false) { base with env := [.answer (.opened true)] }) = some 0x4 ∧
      genOut (exec (.ginit .w32 false) { base with env := [.answer (.opened true)] }) = some (0, 1, 2, 0, 0, 0, 0) := by
  decide

/-- G3: after 32 prewarm reads `0x00` to `0x1F`. -/
theorem test_ginit_prewarm :
    genOut (exec (.ginit .w32 true)
      { base with
        env := .answer (.opened true) :: (List.range 32).map fun k => .answer (.byte (BitVec.ofNat 8 k)) }) =
      some (0, 0xAD1C6D55, 0xB894699A, 0x9634475D, 0, 0, 0) := by
  decide +kernel

/-- G1, `gnext` #0. -/
theorem test_gnext_injects :
    genOut (exec .gnext { ready .w32 with env := [.answer (.byte 0x00), .answer (.byte 0xAB)] }) =
      some (0x00, 0x015300A9, 0xFFFFFF55, 0x01530000, 3, 3, 0x00015300) := by
  decide

/-- G1, `gnext` #4. -/
theorem test_gnext_refills :
    genOut (exec .gnext { base with gen :=
        { readyGen .w32 with seed := 0x015300A9, lcg := 0xFFFFFF55, hash := 0x01530000, entCtr := 3 } }) =
      some (0x70, 0xDFC9C325, 0xC38FE071, 0x20363C70, 2, 3, 0x0020363C) := by
  decide

/-- G5, steps 6 and 7. -/
theorem test_gfinal :
    statusOut (exec .gfinal { ready .w64 with estk := true }) = some 0x1A ∧
      statusOut (exec .gnext { ready .w64 with estk := true, gen := { readyGen .w64 with state := .terminated } }) =
        some 0x21A := by
  decide

/-! ## Host interface: vectors of sections 7 and 8 -/

/-- H9: bit 1 clears `ESTK`, `ERR` is kept. -/
theorem test_clear_sticky :
    statusOut (step { facing (.host (.regWr 1#8 0x2#64)) with estk := true, err := .illegalCmd }) = some 0x100 := by
  decide

/-- H10 and H11. -/
theorem test_mem_wr :
    (nextOf (step (facing (.host (.memWr 16#16 0x55#8))))).map State.mem = some [] ∧
      (nextOf (step (facing (.host (.memWr 5#16 0x9C#8))))).map State.mem = some [(5, 0x9C#8)] := by
  decide

/-- H13: the read of `STATUS` is answered, the read of `GBYTE` is held. -/
theorem test_reads_while_busy :
    (nextOf (step { waiting with env := [.host (.regRd 1#8)] })).map State.hostOut = some [.word 0x5] ∧
      (nextOf (step { waiting with env := [.host (.regRd 8#8)] })).map State.held = some (some (.regRd 8#8)) := by
  decide

/-- P4, line 1: the all-zero word. -/
theorem test_zero_word_is_illegal : statusOut (step (facing (.host (.regWr 2#8 0)))) = some 0x102 := by decide

/-- Section 8: a reset with the source held puts one `EntClose` on the port. -/
theorem test_reset_closes_source :
    (nextOf (step { waiting with env := [.reset] })).map (fun s => (s.portOut, s.status, s.gbyte)) =
      some ([.entClose], 0, 0) := by
  decide

/-- R240: a reset that comes next drops the transaction an idle block holds; a moment before it lets it be accepted. -/
theorem test_reset_before_and_after_held :
    (nextOf (step { base with held := some (.regRd 0#8), env := [.reset] })).map (fun s => (s.held, s.hostOut)) =
        some (none, []) ∧
      (nextOf (step { base with held := some (.regRd 0#8), env := [.pause, .reset] })).map
        (fun s => (s.held, s.hostOut)) = some (none, [.word 0x0000000148565250#64]) := by
  decide

/-- R71: two reads of one unwritten byte return the same byte. -/
theorem test_reads_of_unwritten_byte_agree :
    ∃ b, (nextOf (Host.Core.run Sys2Proof.core 2
        { base with env := [.host (.memRd 3#16), .host (.memRd 3#16)] })).map State.hostOut =
      some [.byte b, .byte b] :=
  ⟨_, rfl⟩

/-- R161: the answer to a waiting `GINIT` comes in a later step; section 6, G1. -/
theorem test_ginit_answered_later :
    genOut (step { opening false with env := [.answer (.opened true)] }) = some (0, 1, 2, 0, 0, 0, 0) := by
  decide

/-- R161: the second byte of G1, `gnext` #0, comes in a later step. -/
theorem test_gnext_answered_later :
    genOut (step { waiting with pending := some (.gnextMessage 0x00), env := [.answer (.byte 0xAB)] }) =
      some (0x00, 0x015300A9, 0xFFFFFF55, 0x01530000, 3, 3, 0x00015300) := by
  decide

/-- R200: the observation of H11 and H4 as one run. -/
theorem test_observation :
    ({ base with env := [.host (.memWr 5#16 0x9C#8), .host (.memRd 5#16), .host (.regRd 2#8)] }.observe 3).map
      Observation.reads = some [.byte 0x9C#8, .word 0] := by
  decide

/-- The step after `withFetchWord` runs the command, here the `ldp64 0, 0, 0xFF` of S3. -/
theorem test_fetch_word_runs : loadOut (step (base.withFetchWord 64 0xFF00003E)) = some (0xFF, .ok, []) := by decide

/-! ## A case that meets the hypotheses of each statement -/

theorem witness_DecodeOfEncode : Instr.wf (.ldp64 0xFFFF 7 0xFF) = true := by decide

theorem witness_EncodeOfDecode : decode 0x0000FFFFFF07003E#64 = .ok (.ldp64 0xFFFF 7 0xFF) := rfl

theorem witness_AssembledLines :
    (∀ r x, AsmLine.hash64 0xFFFF ≠ .wr r x) ∧
      (AsmLine.hash64 0xFFFF).expand = some [.regWr 2#8 0x0000FFFF00000036#64, .regWr 2#8 0x116#64] ∧
      Transaction.regWr 2#8 0x116#64 ∈ [Transaction.regWr 2#8 0x0000FFFF00000036#64, .regWr 2#8 0x116#64] :=
  ⟨fun _ _ h => AsmLine.noConfusion h, by decide, by decide⟩

/-- `hash64` and `hash32`, `hashtail64` and `mwrs` at the ends of their ranges. -/
theorem witness_PseudoInstructions :
    0xFFFF < 65536 ∧ 7 ≤ 7 ∧ 0xFF ≤ 0xFF ∧ 0xFFFE + [0x01#8, 0x02#8].length ≤ 65536 := by decide

/-- The command as the next event, and as the transaction held. -/
theorem witness_StepRunsTheDecodedCommand :
    decode 0x41#64 = .ok .gnext ∧ (facing (.host (.regWr 2#8 0x41#64))).pending = none ∧
      (facing (.host (.regWr 2#8 0x41#64))).held = none ∧
      (facing (.host (.regWr 2#8 0x41#64))).env = .host (.regWr 2#8 0x41#64) :: [] ∧
      { facing .pause with held := some (.regWr 2#8 0x41#64) }.held = some (.regWr 2#8 0x41#64) ∧
      { facing .pause with held := some (.regWr 2#8 0x41#64) }.pending = none ∧
      ∀ rest, { facing .pause with held := some (.regWr 2#8 0x41#64) }.env ≠ .reset :: rest :=
  ⟨rfl, rfl, rfl, rfl, rfl, rfl, by simp [facing]⟩

/-- A write to `CMD` that faces an idle block. -/
theorem witness_idle_facing_cmd (v : Word) :
    (facing (.host (.regWr 2#8 v))).pending = none ∧ (facing (.host (.regWr 2#8 v))).held = none ∧
      (facing (.host (.regWr 2#8 v))).env = .host (.regWr 2#8 v) :: [] :=
  ⟨rfl, rfl, rfl⟩

/-- Both ends of every range of reserved opcodes, on the states of `witness_idle_facing_cmd`. -/
theorem witness_ReservedOpcode :
    ∀ v ∈ [0x00#64, 0x10#64, 0x17#64, 0x20#64, 0x22#64, 0x25#64, 0x27#64, 0x34#64, 0x37#64, 0x3D#64, 0x3F#64, 0x43#64,
        0xFF#64],
      let c := v.toNat % 256
      c ≤ 0x10 ∨ (0x17 ≤ c ∧ c ≤ 0x20) ∨ (0x22 ≤ c ∧ c ≤ 0x25) ∨ (0x27 ≤ c ∧ c ≤ 0x34) ∨
        (0x37 ≤ c ∧ c ≤ 0x3D) ∨ c = 0x3F ∨ 0x43 ≤ c := by
  intro v hv; fin_cases hv <;> decide

/-- Words with one reserved bit set, for every row, on the states of `witness_idle_facing_cmd`. -/
theorem witness_ReservedBits :
    (∀ p ∈ [(0x211#64, 0x11#64), (0x212, 0x12), (0x213, 0x13), (0x214, 0x14), (0x215, 0x15), (0x8000000000000016, 0x16),
        (0x221, 0x21), (0x8000000000000026, 0x26)], p.1 &&& 0xFF = p.2 ∧ p.1 &&& 0xFFFFFFFFFFFFFEFF ≠ p.2) ∧
    (∀ p ∈ [(0x135#64, 0x35#64), (0x8000000000000036, 0x36)],
      p.1 &&& 0xFF = p.2 ∧ p.1 &&& 0xFFFF0000FFFFFFFF ≠ p.2) ∧
    (0x8003E#64 &&& 0xFF = 0x3E ∧ 0x8003E#64 &&& 0xFFFF000000F8FFFF ≠ 0x3E) ∧
    (0x840#64 &&& 0xFF = 0x40 ∧ 0x840#64 &&& 0xFFFFFFFFFFFFCFFF ≠ 0x40) ∧
    (0x141#64 &&& 0xFF = 0x41 ∧ 0x141#64 &&& 0xFFFFFFFFFFFFFFFF ≠ 0x41) ∧
    (0x8000000000000042#64 &&& 0xFF = 0x42 ∧ 0x8000000000000042#64 &&& 0xFFFFFFFFFFFFFFFF ≠ 0x42) := by
  refine ⟨?_, ?_, by decide, by decide, by decide, by decide⟩ <;> intro p hp <;> fin_cases hp <;> decide

/-- The read of `STATUS`; another transaction; a transaction held while busy; one held while idle. -/
theorem witness_BusyBlock :
    (waiting.pending ≠ none ∧ waiting.held = none) ∧ Transaction.regRd 8#8 ≠ .regRd 1#8 ∧
      ({ waiting with held := some (.regRd 8#8) }.pending ≠ none ∧
        (∀ rest, { waiting with held := some (.regRd 8#8) }.env ≠ .reset :: rest) ∧
        ∃ t, step { waiting with held := some (.regRd 8#8) } = .next t) ∧
      ({ base with held := some (.regRd 8#8) }.pending = none ∧
        { base with held := some (.regRd 8#8) }.held = some (.regRd 8#8) ∧
        ∀ rest, { base with held := some (.regRd 8#8) }.env ≠ .reset :: rest) :=
  ⟨by decide, by decide, ⟨by decide, by simp [waiting, ready, base, State.reset], _, rfl⟩,
    rfl, rfl, by simp [base, State.reset]⟩

/-- Every index of the map, and the ends of the reserved ones. -/
theorem witness_RegisterTransactions :
    ∀ i ∈ [0#8, 1#8, 2#8, 3#8, 4#8, 5#8, 6#8, 7#8, 8#8, 9#8, 10#8, 255#8],
      (facing (.host (.regRd i))).pending = none ∧ (facing (.host (.regRd i))).held = none ∧
        (facing (.host (.regRd i))).env = .host (.regRd i) :: [] ∧
        (facing (.host (.regWr i 0xFFFFFFFFFFFFFFFF#64))).env = .host (.regWr i 0xFFFFFFFFFFFFFFFF#64) :: [] := by
  intro i hi; fin_cases hi <;> decide

/-- A read of `STATUS` while a command is in flight. -/
theorem witness_RegRdWhileBusy :
    (waiting.pending = none ∨ 1#8 = 1#8) ∧ waiting.held = none ∧
      { waiting with env := [.host (.regRd 1#8)] }.env = .host (.regRd 1#8) :: [] := by
  decide

theorem witness_ReservedIndices : 10 ≤ (10#8).toNat ∧ 10 ≤ (255#8).toNat ∧ base.pending = none ∧ base.held = none := by
  decide

/-- Both ends of the range of `P_MSGMEM_BYTES`. -/
theorem witness_Caps :
    Params.wf { params16 with msgBytes := 8 } ∧ Params.wf { params16 with msgBytes := 65536, bswap2 := .bitswap } ∧
      ∃ t, step base = .next t :=
  ⟨by decide, by decide, _, rfl⟩

/-- A reset, a write as the next event, and a write as the transaction held. -/
theorem witness_StickyError :
    (nextOf (step { facing .reset with estk := true })).map State.estk = some false ∧
      (nextOf (step { facing (.host (.regWr 1#8 2#64)) with estk := true })).map State.estk = some false ∧
      (nextOf (step { base with estk := true, held := some (.regWr 1#8 2#64) })).map State.estk = some false := by
  decide

/-- The last address of the memory, and the first one outside it. -/
theorem witness_MemWr :
    ∀ a ∈ [15#16, 16#16],
      (facing (.host (.memWr a 0x55#8))).pending = none ∧ (facing (.host (.memWr a 0x55#8))).held = none ∧
        (facing (.host (.memWr a 0x55#8))).env = .host (.memWr a 0x55#8) :: [] ∧
        (a = 15#16 → a.toNat < params16.msgBytes) ∧ (a = 16#16 → params16.msgBytes ≤ a.toNat) := by
  intro a ha; fin_cases ha <;> decide

theorem witness_MemRd :
    (let s := { facing (.host (.memRd 15#16)) with mem := [(15, 0x9C#8)] }
     s.pending = none ∧ s.held = none ∧ s.env = .host (.memRd 15#16) :: [] ∧ (15#16).toNat < s.params.msgBytes ∧
       s.mem.read (15#16).toNat = some 0x9C#8) ∧
    base.params.msgBytes ≤ (16#16).toNat := by
  decide

/-- The last byte of the memory, read twice. -/
theorem witness_MemRdOfUnwrittenByte :
    let s := { base with env := [.host (.memRd 15#16), .host (.memRd 15#16)] }
    s.pending = none ∧ s.held = none ∧ s.env = .host (.memRd 15#16) :: [.host (.memRd 15#16)] ∧
      (15#16).toNat < s.params.msgBytes ∧ s.mem.read (15#16).toNat = none := by
  decide

/-- Each loader at the first address that is out of bounds. -/
theorem witness_AccessesOutside :
    ∀ p ∈ [(Instr.ldw32 13, 13, 4), (.ldw64 9, 9, 8), (.ldp64 17 0 0, 17, 0)],
      loaderRange p.1 = some p.2 ∧ base.params.msgBytes < p.2.1 + p.2.2 := by
  decide

theorem witness_Ldw32 :
    7 + 4 ≤ mem0.params.msgBytes ∧ mem0.mem.read 7 = some 0xFE#8 ∧ mem0.mem.read (7 + 1) = some 0x01#8 ∧
      mem0.mem.read (7 + 2) = some 0x02#8 ∧ mem0.mem.read (7 + 3) = some 0x03#8 := by
  decide

theorem witness_Ldw64 :
    0xFFF8 + 8 ≤ top.params.msgBytes ∧ top.mem.read 0xFFF8 = some 1#8 ∧ top.mem.read (0xFFF8 + 1) = some 2#8 ∧
      top.mem.read (0xFFF8 + 2) = some 3#8 ∧ top.mem.read (0xFFF8 + 3) = some 4#8 ∧
      top.mem.read (0xFFF8 + 4) = some 5#8 ∧ top.mem.read (0xFFF8 + 5) = some 6#8 ∧
      top.mem.read (0xFFF8 + 6) = some 7#8 ∧ top.mem.read (0xFFF8 + 7) = some 8#8 := by
  decide

/-- Length 7 at the top of memory, and length 0 just above the memory. -/
theorem witness_Ldp64 :
    (7 ≤ 7 ∧ 0xFFF9 + 7 ≤ top.params.msgBytes ∧ ∀ k, k < 7 → top.mem.read (0xFFF9 + k) = some (BitVec.ofNat 8 (k + 2))) ∧
      (0 ≤ 7 ∧ 0x10000 + 0 ≤ top.params.msgBytes) := by
  decide

/-- All bytes written; the first byte unwritten; the last byte unwritten. -/
theorem witness_LoaderOverAnyBytes :
    Instr.wf (.ldp64 4 7 0) = true ∧ loaderRange (.ldp64 4 7 0) = some (4, 7) ∧ 4 + 7 ≤ mem0.params.msgBytes ∧
      (∀ k, k < 7 → mem0.mem.read (4 + k) ≠ none) ∧ base.mem.read (4 + 0) = none ∧
      loaderRange (.ldp64 5 7 0) = some (5, 7) ∧ mem0.mem.read (5 + 6) = none ∧
      (∀ k, k < 6 → mem0.mem.read (5 + k) ≠ none) ∧
      Instr.wf (.ldw32 12) = true ∧ loaderRange (.ldw32 12) = some (12, 4) ∧ 12 + 4 ≤ mem0.params.msgBytes ∧
      mem0.mem.read (12 + 3) = none := by
  decide

theorem witness_NoStepClearsAModelFault :
    (∃ t, step { facing .reset with faults := [.unwrittenRead 3] } = .next t) ∧
      Fault.unwrittenRead 3 ∈ { facing .reset with faults := [.unwrittenRead 3] }.faults :=
  ⟨⟨_, rfl⟩, by decide⟩

/-- Two states that agree on the low 8 bits only. -/
theorem witness_RoundsUseTheLowBits :
    roundOf (.rnda8 true) = some (.A, .w8, true) ∧
      (triple 0xFF12 0xAA34 0x1156 0xF1FF).params = (triple 0x12 0x34 0x56 0xFF).params ∧
      (0xFF12#64).setWidth 8 = (0x12#64).setWidth 8 ∧ (0xAA34#64).setWidth 8 = (0x34#64).setWidth 8 ∧
      (0x1156#64).setWidth 8 = (0x56#64).setWidth 8 ∧ (0xF1FF#64).setWidth 8 = (0xFF#64).setWidth 8 ∧
      (∃ t, exec (.rnda8 true) (triple 0xFF12 0xAA34 0x1156 0xF1FF) = .next t) ∧
      ∃ t, exec (.rnda8 true) (triple 0x12 0x34 0x56 0xFF) = .next t :=
  ⟨rfl, rfl, by decide, by decide, by decide, by decide, ⟨_, rfl⟩, ⟨_, rfl⟩⟩

theorem witness_Multiplier : 0 < 64 ∧ 0x3#64 * multiplier 0xFF#64 = 0x3#64 * multiplier 0xFF#64 := by decide

/-- B64-X, and the same xor at W = 2. -/
theorem witness_VariantBOfZeroXor : 0x1111#64 ^^^ 0x3333#64 ^^^ 0x2222#64 = 0 ∧ 1#2 ^^^ 3#2 ^^^ 2#2 = 0 := by decide

/-- A round of either variant, and a second one straight after it or after a register write. -/
theorem witness_Mixed :
    roundOf (.rnda2 false) = some (.A, .w2, false) ∧ roundOf (.rndb2 true) = some (.B, .w2, true) ∧
      ∃ t, exec (.rnda2 false) base = .next t ∧ (∃ u, exec (.rndb2 true) t = .next u) ∧
        (∃ u, exec (.rndb2 true) (t.writeReg 3#8 1) = .next u) ∧ ∃ u, exec (.rndb2 true) (t.writeReg 5#8 1) = .next u :=
  ⟨rfl, rfl, _, rfl, ⟨_, rfl⟩, ⟨_, rfl⟩, ⟨_, rfl⟩⟩

/-- `GINIT` from `UNINIT` and from `TERMINATED`, the agent answering OK; and one that waits on `EntOpen`. -/
theorem witness_GinitWithoutPrewarm :
    base.gen.state ≠ .ready ∧ { readyGen .w32 with state := .terminated }.state ≠ .ready ∧
      (facing (.answer (.opened true))).env = .answer (.opened true) :: [] ∧
      (opening false).pending = some (.ginitOpen .w32 false) ∧ (opening false).entReq = some .openSource := by
  decide

/-- At the issue, on `EntOpen`, and with one round left. -/
theorem witness_GinitWithPrewarm :
    (let bs := (List.range 32).map (BitVec.ofNat 8)
     let s := { opening true with env := .answer (.opened true) :: (byteAnswers bs ++ []) }
     s.gen.state ≠ .ready ∧ bs.length = 32 ∧ s.pending = some (.ginitOpen .w32 true) ∧ s.entReq = some .openSource ∧
       s.env = .answer (.opened true) :: (byteAnswers bs ++ [])) ∧
    (let bs := [0x55#8]
     let s := { prewarming 1 with env := byteAnswers bs ++ [] }
     bs ≠ [] ∧ s.env = byteAnswers bs ++ [] ∧ s.entReq = some .readByte ∧
       s.pending = some (.ginitPrewarm bs.length { readyGen .w32 with state := .uninit })) :=
  ⟨⟨by decide, by decide, rfl, rfl, rfl⟩, by decide, rfl, rfl, rfl⟩

theorem witness_GinitUnavailable :
    base.gen.state ≠ .ready ∧
      { base with env := [.answer (.opened false), .answer (.opened true)] }.env =
        .answer (.opened false) :: [.answer (.opened true)] ∧
      (opening true).pending = some (.ginitOpen .w32 true) ∧ (opening true).entReq = some .openSource := by
  decide

/-- A generator command in each wrong state. -/
theorem witness_WrongState :
    (ready .w64).gen.state = .ready ∧ base.gen.state ≠ .ready ∧ { readyGen .w32 with state := .terminated }.state ≠ .ready := by
  decide

/-- The two issues; the open answered and no byte, or 31 bytes; one round fewer than all; one of the two bytes of a
`GNEXT`; a host event, and no event, while a command waits. -/
theorem witness_CommandWaits :
    (base.gen.state ≠ .ready ∧ ∀ ok rest, (facing .pause).env ≠ .answer (.opened ok) :: rest) ∧
    ((ready .w32).gen.state = .ready ∧ (ready .w32).gen.hashLeft = 0 ∧ (ready .w32).gen.entCtr = 0 ∧
      ∀ b rest, (facing .pause).env ≠ .answer (.byte b) :: rest) ∧
    (([] : List Byte).length < 32 ∧ (List.replicate 31 0x55#8).length < 32 ∧
      (∀ b r, [Event.pause] ≠ .answer (.byte b) :: r) ∧
      (opening true).pending = some (.ginitOpen .w32 true) ∧ (opening true).entReq = some .openSource) ∧
    ([0x55#8] ≠ [] ∧ [0x55#8].length < 2 ∧
      (prewarming 2).pending = some (.ginitPrewarm 2 { readyGen .w32 with state := .uninit }) ∧
      (prewarming 2).entReq = some .readByte) ∧
    (waiting.pending = some .gnextSchedule ∧ waiting.entReq = some .readByte) ∧
    (let s := { waiting with env := [.host (.regRd 1#8)] }
     s.pending ≠ none ∧ (∀ a rest, s.env ≠ .answer a :: rest) ∧ (∀ rest, s.env ≠ .reset :: rest) ∧
       ∃ t, step s = .next t) ∧
    (waiting.pending ≠ none ∧ waiting.env = []) :=
  ⟨⟨by decide, by simp [facing]⟩, ⟨rfl, rfl, rfl, by simp [facing]⟩,
    ⟨by decide, by decide, by simp, rfl, rfl⟩, ⟨by decide, by decide, rfl, rfl⟩, ⟨rfl, rfl⟩,
    ⟨by decide, by simp, by simp, _, rfl⟩, by decide, rfl⟩

theorem witness_GnextEmits : buffered.gen.state = .ready ∧ buffered.gen.hashLeft ≠ 0 := by decide

/-- Both widths, at the last refill of the schedule. -/
theorem witness_GnextRefillsWithoutInjection :
    ∀ gw ∈ [GenWidth.w32, .w64],
      let s := { base with gen := { readyGen gw with entCtr := 1#12 } }
      s.gen.state = .ready ∧ s.gen.hashLeft = 0 ∧ s.gen.entCtr ≠ 0 ∧ s.gen.gw = gw := by
  decide

/-- Both widths at the issue; a `GNEXT` that waits on either byte. -/
theorem witness_GnextRefillsWithInjection :
    (∀ gw ∈ [GenWidth.w32, .w64],
      let s := { ready gw with env := [.answer (.byte 0xFF#8), .answer (.byte 0xAB#8)] }
      s.gen.state = .ready ∧ s.gen.hashLeft = 0 ∧ s.gen.entCtr = 0 ∧ s.gen.gw = gw ∧
        s.env = .answer (.byte 0xFF#8) :: .answer (.byte 0xAB#8) :: []) ∧
    (waiting.pending = some .gnextSchedule ∧ waiting.entReq = some .readByte) ∧
    (let s := { waiting with pending := some (.gnextMessage 0xFF#8), env := [.answer (.byte 0xAB#8)] }
     s.env = .answer (.byte 0xAB#8) :: [] ∧ s.pending = some (.gnextMessage 0xFF#8) ∧ s.entReq = some .readByte) := by
  decide

theorem witness_Gfinal : (ready .w32).gen.state = .ready := by decide

/-- Byte 2 of a 32-bit word; byte 0 of a new one, at the issue and later. -/
theorem witness_Stream :
    (buffered.gen.inRange = true ∧ buffered.gen.state = .ready ∧ 1 ≤ 2 ∧
      2 + buffered.gen.hashLeft.toNat = genBytes buffered.gen.gw ∧ 2 < genBytes buffered.gen.gw ∧
      ∃ t, exec .gnext buffered = .next t ∧ t.pending = none) ∧
    (let s := { ready .w64 with env := [.answer (.byte 2), .answer (.byte 0x5A)] }
     s.gen.inRange = true ∧ s.gen.state = .ready ∧ s.gen.hashLeft = 0 ∧
       ∃ t, exec .gnext s = .next t ∧ t.pending = none) ∧
    (let s := { waiting with env := [.answer (.byte 2), .answer (.byte 0x5A)] }
     s.pending = some .gnextSchedule ∧ s.entReq = some .readByte ∧ (∀ rest, s.env ≠ .reset :: rest) ∧
       ∃ t, step s = .next t ∧ t.pending = none) :=
  ⟨⟨by decide, rfl, by decide, by decide, by decide, _, rfl, rfl⟩, ⟨by decide, rfl, rfl, _, rfl, rfl⟩,
    rfl, rfl, by simp, _, rfl, rfl⟩

theorem witness_GnextCompletes :
    let s := { ready .w32 with
      env := [.host (.regWr 2#8 0x41#64), .answer (.byte 0x00), .answer (.byte 0xAB)] }
    s.Inv ∧ s.gen.state = .ready ∧ s.pending = none ∧ s.held = none ∧
      s.env = .host (.regWr 2#8 0x41#64) :: .answer (.byte 0x00) :: .answer (.byte 0xAB) :: [] := by
  decide

/-- An issued `GNEXT`, a reset, and an answer to a `GNEXT` in flight. -/
theorem witness_OnlyGnextWritesGbyte :
    (∃ t, exec .gnext buffered = .next t ∧ t.gbyte ≠ buffered.gbyte) ∧
      (∃ t, step { facing .reset with gbyte := 5 } = .next t ∧ t.gbyte ≠ 5) ∧
      ∃ t, step { waiting with
        gbyte := 5, pending := some (.gnextMessage 0), env := [.answer (.byte 0xAB)] } = .next t ∧ t.gbyte ≠ 5 :=
  ⟨⟨_, rfl, by decide⟩, ⟨_, rfl, by decide⟩, ⟨_, rfl, by decide⟩⟩

theorem witness_GeneratorAndRoundCore : isGenerator (.rnda64 true) = false ∧ isGenerator .gnext = true := by decide

theorem witness_HostCannotRead :
    let g := { readyGen .w32 with seed := 0xDEADBEEF#64 }
    let s := { ready .w32 with env := [.host (.regRd 8#8)] }
    g.state = s.gen.state ∧ g.gw = s.gen.gw ∧ s.held = none ∧ s.env = .host (.regRd 8#8) :: [] ∧
      ∀ v, Transaction.regRd 8#8 ≠ .regWr 2#8 v :=
  ⟨rfl, rfl, rfl, rfl, fun _ h => Transaction.noConfusion h⟩

/-- A step that opens the source, one that reads from it, one that closes it. -/
theorem witness_SourceOpenedAndClosedOnce :
    (∃ s t, s.Inv ∧ step s = .next t ∧ PortMsg.entOpen ∈ t.portOut) ∧
      (∃ s t, s.Inv ∧ step s = .next t ∧ PortMsg.entRead ∈ t.portOut) ∧
      ∃ s t, s.Inv ∧ step s = .next t ∧ PortMsg.entClose ∈ t.portOut :=
  ⟨⟨facing (.host (.regWr 2#8 0x40#64)), _, by decide, rfl, by decide⟩,
    ⟨{ ready .w32 with env := [.host (.regWr 2#8 0x41#64)] }, _, by decide, rfl, by decide⟩,
    ⟨{ ready .w32 with env := [.host (.regWr 2#8 0x42#64)] }, _, by decide, rfl, by decide⟩⟩

/-- A command that ends with an error, one that ends without, and a `GINIT` in flight that ends either way. -/
theorem witness_ErrorsChangeOnlyErrAndEstk :
    (∃ t, exec .gnext base = .next t ∧ t.pending = none ∧ t.err ≠ .ok) ∧
      (∃ t, exec (.rnda2 false) base = .next t ∧ t.pending = none ∧ t.err = .ok) ∧
      ((opening false).pending ≠ none ∧
        (∀ ok rest, { opening false with env := [.answer (.opened ok)] }.env ≠ .reset :: rest) ∧
        (∃ t, step { opening false with env := [.answer (.opened false)] } = .next t ∧ t.pending = none ∧ t.err ≠ .ok) ∧
        ∃ t, step { opening false with env := [.answer (.opened true)] } = .next t ∧ t.pending = none ∧ t.err = .ok) :=
  ⟨⟨_, rfl, rfl, by decide⟩, ⟨_, rfl, rfl, rfl⟩, by decide, by simp, ⟨_, rfl, rfl, by decide⟩, ⟨_, rfl, rfl, rfl⟩⟩

theorem witness_OnlyGinitAndGnextWait : mayWait .gfinal = false := rfl

/-- A prewarm in the middle, its byte next. -/
theorem witness_EveryStepKeepsTheInvariant :
    { prewarming 32 with env := [.answer (.byte 7)] }.Inv ∧
      ∃ t, step { prewarming 32 with env := [.answer (.byte 7)] } = .next t :=
  ⟨by decide, _, rfl⟩

theorem witness_NoStepChangesTheParameters : ∃ t, step (facing .reset) = .next t := ⟨_, rfl⟩

/-- A reset with a command in flight, one with an idle block, a transaction held in both; a late answer. -/
theorem witness_Reset :
    { waiting with held := some (.regRd 8#8), env := [.reset, .late (.byte 0x55)] }.env =
        .reset :: .late (.byte 0x55) :: [] ∧
      { base with held := some (.regRd 8#8), env := [.reset] }.env = .reset :: [] ∧
      ((facing (.late (.byte 0x55))).env = .late (.byte 0x55) :: [] ∧
        ((facing (.late (.byte 0x55))).held = none ∨ (facing (.late (.byte 0x55))).pending ≠ none)) := by
  decide

/-- A step that changes nothing is all that ever follows. -/
theorem after_of_step_self {s : State} (h : step s = .next s) : ∀ k, s.after k = some s
  | 0 => rfl
  | k + 1 => by simp [State.after, h, after_of_step_self h k]

/-- A `GINIT` in flight whose answer is the coming event, and a program of two reads. -/
theorem witness_RunsEnd :
    (let s := { opening false with env := [.answer (.opened true)] }
     s.Inv ∧ s.movesAllowed ∧ s.entLive ∧ s.entReq ≠ none) ∧
    (let ts := [Transaction.regRd 1#8, .memRd 3#16]
     { base with env := ts.map .host }.pending = none ∧ { base with env := ts.map .host }.held = none ∧
       ∀ t ∈ ts, t.issuesCommand = false) := by
  refine ⟨?_, rfl, rfl, by decide⟩
  intro s
  obtain ⟨t, ht, hself, hreq⟩ : ∃ t, step s = .next t ∧ step t = .next t ∧ t.entReq = none :=
    ⟨ready .w32, rfl, rfl, rfl⟩
  have hk : ∀ k, s.after (k + 1) = some t := fun k => by simp [State.after, ht, after_of_step_self hself k]
  refine ⟨by decide, fun k u hu => ?_, fun k u hu hq => ?_, by decide⟩ <;> cases k with
  | zero => ?_
  | succ k => ?_
  · cases hu; exact ⟨t, ht⟩
  · rw [hk k] at hu; cases hu; exact ⟨t, hself⟩
  · cases hu; exact ⟨0, s, rfl, .inl (by decide)⟩
  · rw [hk k] at hu; cases hu; exact absurd hreq hq

end Sys2Proof.Tests
end

section
/-! CERTIFICATE. The statements about the registers of 10_state: the two read-only words, the reserved indices, the values
after reset, and the separation of the round core from the generator. -/

namespace Sys2Proof.Machine

/-! ## What a command is -/

/-- A command of the round core is its round, over the views of the registers (R22, R111): the function `f` sees nothing of
the state but the parameter of variant B and the low bits. -/
theorem exec_round {i : Instr} {v : Variant} {w : Width} {inj : Bool} (h : roundOf i = some (v, w, inj)) :
    ∃ f : Bswap2 → BitVec w.bits → BitVec w.bits → BitVec w.bits → RoundResult w.bits, ∀ s, exec i s =
      .next (s.commitRound v w
        (f s.params.bswap2 (view w.bits s.seed) (lcgOperand w.bits inj s) (view w.bits s.hash))) := by
  cases i <;> simp only [roundOf, reduceCtorEq, Option.some.injEq, Prod.mk.injEq] at h
  case rnda2 | rnda4 | rnda8 | rnda16 | rnda32 | rnda64 =>
    obtain ⟨rfl, rfl, rfl⟩ := h
    exact ⟨fun _ => roundA, fun _ => rfl⟩
  case rndb2 =>
    obtain ⟨rfl, rfl, rfl⟩ := h
    exact ⟨fun p => roundB (bswap2 p), fun _ => rfl⟩
  case rndb64 =>
    obtain ⟨rfl, rfl, rfl⟩ := h
    exact ⟨fun _ => roundB bswap64, fun _ => rfl⟩

/-- A loader command is the common loader rule over its range, with its own word of the bytes (R141). -/
theorem exec_loader {i : Instr} {a n : Nat} (h : loaderRange i = some (a, n)) :
    ∃ word, ∀ s, exec i s = .next (loaderCommand a n word s) := by
  cases i <;> simp only [loaderRange, reduceCtorEq, Option.some.injEq, Prod.mk.injEq] at h
  case ldw32 | ldw64 =>
    obtain ⟨rfl, rfl⟩ := h
    exact ⟨loadedWord, fun _ => rfl⟩
  case ldp64 addr len fb =>
    obtain ⟨rfl, rfl⟩ := h
    exact ⟨fun bs => paddedWord bs len fb, fun _ => rfl⟩

/-- A command that is none of the generator's is a round or a loader command. -/
theorem round_or_loader {i : Instr} (h : isGenerator i = false) :
    (∃ v w inj, roundOf i = some (v, w, inj)) ∨ ∃ a n, loaderRange i = some (a, n) := by
  cases i
  case ginit | gnext | gfinal => cases h
  case ldw32 | ldw64 | ldp64 => exact .inr ⟨_, _, rfl⟩
  all_goals exact .inl ⟨_, _, _, rfl⟩

/-! ## The parameters -/

/-- No loader changes the parameters. -/
theorem loaderCommand_params (a n : Nat) (word : List Byte → Word) (s : State) :
    (loaderCommand a n word s).params = s.params := by
  obtain ⟨-, h⟩ | ⟨-, h⟩ := loaderCommand_cases a n word s
  · rw [h, State.raise_params]
  · rw [h]

/-- No answer of the agent changes the parameters. -/
theorem takeAnswer_params {a : Answer} {s t : State} (h : takeAnswer a s = some t) : t.params = s.params := by
  obtain ⟨ok, -, -, rfl⟩ | ⟨b, -, -, rfl⟩ := takeAnswer_cases h
  · obtain ⟨gw, p, -, ⟨-, h⟩ | ⟨-, -, h⟩ | ⟨-, -, h⟩⟩ | ⟨-, h⟩ := answerOpen_cases ok s.answered <;> rw [h] <;> rfl
  · obtain ⟨left, work, -, ⟨-, h⟩ | ⟨-, h⟩⟩ | ⟨-, h⟩ | ⟨e, -, h⟩ | h := answerRead_cases b s.answered <;> rw [h] <;> rfl

/-- The command engine's run does not change the parameters. -/
theorem runEngine_params (es : List Event) (s : State) : (runEngine es s).params = s.params :=
  runEngine_induct (fun t => t.params = s.params) (fun _ _ _ hs ht => (takeAnswer_params ht).trans hs)
    (fun _ _ hs => hs) es s rfl

/-- No generator command changes the parameters. -/
theorem exec_generator_params {i : Instr} {s t : State} (hi : isGenerator i = true) (h : exec i s = .next t) :
    t.params = s.params := by
  cases i <;> simp only [isGenerator, Bool.false_eq_true] at hi
  case ginit gw p =>
    change execGinit gw p s = .next t at h
    obtain ⟨-, he⟩ | ⟨-, he⟩ := execGinit_cases gw p s <;> cases he.symm.trans h
    · rfl
    · exact runEngine_params _ _
  case gnext =>
    change execGnext s = .next t at h
    obtain ⟨-, he⟩ | ⟨-, -, he⟩ | ⟨-, -, -, he⟩ | ⟨-, -, -, he⟩ := execGnext_cases s <;> cases he.symm.trans h
    · rfl
    · rfl
    · rfl
    · exact runEngine_params _ _
  case gfinal =>
    change execGfinal s = .next t at h
    obtain ⟨-, he⟩ | ⟨-, he⟩ := execGfinal_cases s <;> cases he.symm.trans h <;> rfl

/-- No command changes the parameters. -/
theorem exec_params {i : Instr} {s t : State} (h : exec i s = .next t) : t.params = s.params := by
  cases hg : isGenerator i with
  | true => exact exec_generator_params hg h
  | false =>
    obtain ⟨v, w, inj, hr⟩ | ⟨a, n, hl⟩ := round_or_loader hg
    · obtain ⟨f, hf⟩ := exec_round hr
      cases (hf s).symm.trans h
      rfl
    · obtain ⟨word, hw⟩ := exec_loader hl
      cases (hw s).symm.trans h
      exact loaderCommand_params a n word s

/-- No register write changes the parameters. -/
theorem State.writeReg_params (i : BitVec 8) (v : Word) (s : State) : (s.writeReg i v).params = s.params := by
  unfold State.writeReg
  split
  case h_1 => split <;> rfl
  all_goals rfl

/-- No memory read changes the parameters. -/
theorem State.memRead_params (a : BitVec 16) (s : State) : (s.memRead a).params = s.params := by
  obtain ⟨-, h⟩ | ⟨-, h⟩ := s.memRead_cases a <;> rw [h] <;> rfl

/-- No memory write changes the parameters. -/
theorem State.memWrite_params (a : BitVec 16) (b : Byte) (s : State) : (s.memWrite a b).params = s.params := by
  unfold State.memWrite
  split <;> rfl

/-- No transaction changes the parameters. -/
theorem acceptTransaction_params {x : Transaction} {s t : State} (h : acceptTransaction x s = .next t) :
    t.params = s.params := by
  obtain ⟨i, -, he⟩ | ⟨v, -, he⟩ | ⟨i, v, -, -, he⟩ | ⟨a, -, he⟩ | ⟨a, b, -, he⟩ := acceptTransaction_cases x s
  case inr.inl =>
    obtain ⟨e, -, hc⟩ | ⟨i, -, hc⟩ := issueCommand_cases v s
    · cases (he.trans hc).symm.trans h
      rfl
    · exact exec_params (s := s.accept v) ((he.trans hc).symm.trans h)
  all_goals cases he.symm.trans h
  · rfl
  · exact s.writeReg_params i v
  · exact s.memRead_params a
  · exact s.memWrite_params a b

/-- No step changes the parameters (R8). -/
theorem step_params {s t : State} (h : step s = .next t) : t.params = s.params := by
  obtain ⟨x, -, -, -, hx⟩ | ⟨-, -, rfl⟩ | ⟨x, rest, -, -, -, hx⟩ | ⟨x, rest, -, -, -, rfl⟩ |
    ⟨a, rest, s', -, ha, rfl⟩ | ⟨a, rest, -, -, rfl⟩ | ⟨rest, -, rfl⟩ | ⟨rest, -, -, rfl⟩ := step_cases h
  · exact acceptTransaction_params (s := { s with held := none }) hx
  · rfl
  · exact acceptTransaction_params (s := { s with env := rest }) hx
  · rfl
  · exact (runEngine_params _ _).trans (takeAnswer_params (s := { s with env := rest }) ha)
  · rfl
  · rfl
  · rfl

/-! ## The register map -/

theorem State.readReg_id (s : State) : s.readReg 0#8 = idWord := rfl

theorem State.readReg_caps (s : State) : s.readReg 9#8 = capsWord s.params := rfl

/-- A reserved index reads as 0 (R50). -/
theorem State.readReg_reserved {i : BitVec 8} (h : 10 ≤ i.toNat) (s : State) : s.readReg i = 0 := by
  unfold State.readReg
  split
  case h_10 => rfl
  all_goals omega

/-- A write to a reserved index is ignored (R50). -/
theorem State.writeReg_reserved {i : BitVec 8} (h : 10 ≤ i.toNat) (v : Word) (s : State) : s.writeReg i v = s := by
  unfold State.writeReg
  split
  case h_6 => rfl
  all_goals omega

/-- `CAPS` as a number: a memory size up to 65536 fits its 17 bits, and the bit of `P_BSWAP2` stands above them (R47). -/
theorem capsWord_toNat {p : Params} (h : p.msgBytes ≤ 65536) :
    (capsWord p).toNat = p.msgBytes + (bswap2CapsBit p.bswap2).toNat * 2 ^ 17 := by
  have hsize : (BitVec.ofNat 17 p.msgBytes).toNat = p.msgBytes := Nat.mod_eq_of_lt (by omega)
  have hbit : (0#46 ++ bswap2CapsBit p.bswap2).toNat = (bswap2CapsBit p.bswap2).toNat := by
    cases p.bswap2 <;> rfl
  rw [capsWord, BitVec.toNat_append, hbit, hsize, ← Nat.shiftLeft_add_eq_or_of_lt (by omega), Nat.shiftLeft_eq,
    Nat.add_comm]

/-- An idle block accepts the transaction that is presented (R193). -/
theorem step_idle_host {s : State} {x : Transaction} {rest : List Event} (hp : s.pending = none) (hh : s.held = none)
    (he : s.env = .host x :: rest) : step s = acceptTransaction x { s with env := rest } := by
  rw [step_event (.inl hh), takeEvent, he]
  simp [applyEvent, presentTransaction, State.busy, hp, hh]

/-! ## The low bits of a round -/

/-- The `lcg` operand of a round depends on the low bits of `LCG` and `MSG` only (R22). -/
theorem lcgOperand_congr {w : Nat} {s s' : State} (inj : Bool) (hl : s.lcg.setWidth w = s'.lcg.setWidth w)
    (hm : s.msg.setWidth w = s'.msg.setWidth w) : lcgOperand w inj s = lcgOperand w inj s' := by
  simp only [lcgOperand, view, hl, hm]

/-- A zero-extended value of `w` bits is 0 above them. -/
theorem zext64_toNat_lt {w : Nat} (x : BitVec w) : (zext64 x).toNat < 2 ^ w := by
  rw [zext64, BitVec.toNat_setWidth]
  exact (Nat.mod_le _ _).trans_lt x.isLt

/-! ## The generator and the round core -/

/-- A loader neither reads nor writes the generator (R29). -/
theorem loaderCommand_withGen (a n : Nat) (word : List Byte → Word) (s : State) (g : Gen) :
    loaderCommand a n word (s.withGen g) = (loaderCommand a n word s).withGen g := by
  have hbytes : (s.withGen g).messageBytes a n = s.messageBytes a n :=
    State.messageBytes_congr (s := s.withGen g) (s' := s) rfl rfl a n
  unfold loaderCommand
  rw [hbytes, show (s.withGen g).outOfBounds a n = s.outOfBounds a n from rfl]
  split <;> rfl

section
variable (a b c d e : Word)

/-- The answer to `EntOpen` neither reads nor writes the round-core registers. -/
theorem answerOpen_withRoundRegisters (ok : Bool) (s : State) :
    answerOpen ok (s.withRoundRegisters a b c d e) = (answerOpen ok s).withRoundRegisters a b c d e := by
  unfold answerOpen
  rw [show (s.withRoundRegisters a b c d e).pending = s.pending from rfl]
  split
  · rename_i gw p _
    cases ok <;> cases p <;> rfl
  · rfl

/-- The answer to `EntRead` neither reads nor writes the round-core registers. -/
theorem answerRead_withRoundRegisters (x : Byte) (s : State) :
    answerRead x (s.withRoundRegisters a b c d e) = (answerRead x s).withRoundRegisters a b c d e := by
  unfold answerRead
  rw [show (s.withRoundRegisters a b c d e).pending = s.pending from rfl]
  split
  · unfold ginitPrewarmed
    split <;> rfl
  · rfl
  · rfl
  · rfl

/-- The engine takes the same answers whatever the round-core registers hold, and leaves them as they are. -/
theorem takeAnswer_withRoundRegisters (x : Answer) (s : State) :
    takeAnswer x (s.withRoundRegisters a b c d e) =
      (takeAnswer x s).map (fun t => t.withRoundRegisters a b c d e) := by
  unfold takeAnswer
  rw [show (s.withRoundRegisters a b c d e).entReq = s.entReq from rfl]
  split
  · exact congrArg some (answerOpen_withRoundRegisters a b c d e _ s.answered)
  · exact congrArg some (answerRead_withRoundRegisters a b c d e _ s.answered)
  · rfl

/-- The engine's run neither reads nor writes the round-core registers. -/
theorem runEngine_withRoundRegisters : ∀ (es : List Event) (s : State),
    runEngine es (s.withRoundRegisters a b c d e) = (runEngine es s).withRoundRegisters a b c d e
  | [], _ => rfl
  | .answer x :: rest, s => by
    simp only [runEngine, takeAnswer_withRoundRegisters]
    cases takeAnswer x s with
    | none => rfl
    | some t => exact runEngine_withRoundRegisters rest t
  | .host _ :: _, _ | .late _ :: _, _ | .reset :: _, _ | .pause :: _, _ => rfl

/-- A generator command neither reads nor writes the round-core registers (R29). -/
theorem exec_generator_withRoundRegisters {i : Instr} (h : isGenerator i = true) (s : State) :
    exec i (s.withRoundRegisters a b c d e) = mapNext (fun t => t.withRoundRegisters a b c d e) (exec i s) := by
  have hgen : (s.withRoundRegisters a b c d e).gen = s.gen := rfl
  have henv : (s.withRoundRegisters a b c d e).env = s.env := rfl
  cases i <;> simp only [isGenerator, Bool.false_eq_true] at h
  case ginit gw p =>
    simp only [exec, execGinit, hgen, henv]
    split
    · rfl
    · exact congrArg Host.Outcome.next (runEngine_withRoundRegisters a b c d e _ (s.request .openSource (.ginitOpen gw p)))
  case gnext =>
    simp only [exec, execGnext, hgen, henv]
    split_ifs
    · rfl
    · rfl
    · rfl
    · exact congrArg Host.Outcome.next (runEngine_withRoundRegisters a b c d e _ (s.request .readByte .gnextSchedule))
  case gfinal =>
    simp only [exec, execGfinal, hgen]
    split <;> rfl

/-- A later answer neither reads nor writes the round-core registers (R29). -/
theorem receiveAnswer_withRoundRegisters (x : Answer) (s : State) :
    receiveAnswer x (s.withRoundRegisters a b c d e) =
      mapNext (fun t => t.withRoundRegisters a b c d e) (receiveAnswer x s) := by
  simp only [receiveAnswer, takeAnswer_withRoundRegisters]
  cases takeAnswer x s with
  | none => rfl
  | some t => exact congrArg Host.Outcome.next (runEngine_withRoundRegisters a b c d e _ t)

end

/-- A round or loader command neither reads nor writes the generator (R29). -/
theorem exec_withGen {i : Instr} (h : isGenerator i = false) (s : State) (g : Gen) :
    exec i (s.withGen g) = mapNext (fun t => t.withGen g) (exec i s) := by
  obtain ⟨v, w, inj, hr⟩ | ⟨a, n, hl⟩ := round_or_loader h
  · obtain ⟨f, hf⟩ := exec_round hr
    rw [hf, hf]
    rfl
  · obtain ⟨word, hw⟩ := exec_loader hl
    rw [hw, hw, loaderCommand_withGen]
    rfl

/-! ## The obligations -/

/-- Settles O15: `CAPS` is made of the parameters alone, and no step changes those. -/
theorem capsReportsTheParameters : Obligations.CapsReportsTheParameters := by
  unfold Obligations.CapsReportsTheParameters
  intro s ⟨_, hsize, _⟩
  refine ⟨?_, fun t ht => ?_⟩
  · rw [s.readReg_caps, capsWord_toNat hsize]
    cases s.params.bswap2 <;> rfl
  · rw [t.readReg_caps, s.readReg_caps, step_params ht]

/-- Settles O30: the round is a function of the views, and what it commits is zero-extended. -/
theorem roundsUseAndLeaveTheLowBitsOnly : Obligations.RoundsUseAndLeaveTheLowBitsOnly := by
  unfold Obligations.RoundsUseAndLeaveTheLowBitsOnly
  intro i v w inj s s' t t' hround hparams hseed hlcg hhash hmsg ht ht'
  obtain ⟨f, hf⟩ := exec_round hround
  have hseedView : view w.bits s.seed = view w.bits s'.seed := hseed
  have hhashView : view w.bits s.hash = view w.bits s'.hash := hhash
  have hresult : f s.params.bswap2 (view w.bits s.seed) (lcgOperand w.bits inj s) (view w.bits s.hash) =
      f s'.params.bswap2 (view w.bits s'.seed) (lcgOperand w.bits inj s') (view w.bits s'.hash) := by
    rw [hparams, hseedView, hhashView, lcgOperand_congr inj hlcg hmsg]
  cases (hf s).symm.trans ht
  cases (hf s').symm.trans ht'
  rw [hresult]
  exact ⟨rfl, rfl, rfl, rfl, zext64_toNat_lt _, zext64_toNat_lt _, zext64_toNat_lt _, zext64_toNat_lt _⟩

/-- Settles O50: replacing the other side's state commutes with every command and with every answer. -/
theorem generatorAndRoundCoreAreSeparate : Obligations.GeneratorAndRoundCoreAreSeparate := by
  unfold Obligations.GeneratorAndRoundCoreAreSeparate
  exact ⟨fun _ s g h => exec_withGen h s g,
    fun _ s a b c d e h => exec_generator_withRoundRegisters a b c d e h s,
    fun s x a b c d e => receiveAnswer_withRoundRegisters a b c d e x s⟩

/-- Settles O13: the register map holds nothing from index 10 up, and `CMD` lies below it. -/
theorem reservedIndicesReadZeroAndIgnoreWrites : Obligations.ReservedIndicesReadZeroAndIgnoreWrites := by
  unfold Obligations.ReservedIndicesReadZeroAndIgnoreWrites
  intro s i v rest hp hh hi
  have hcmd : i ≠ cmdIndex := by
    rintro rfl
    exact absurd hi (by decide)
  refine ⟨fun he => ?_, fun he => ?_⟩
  · rw [step_idle_host hp hh he, acceptTransaction, State.readReg_reserved hi]
    rfl
  · rw [step_idle_host hp hh he, acceptTransaction, if_neg hcmd, State.writeReg_reserved hi]

/-- Settles O16: the host reads the constant `idWord` in every state. -/
theorem idIsTheConstant : Obligations.IdIsTheConstant := by
  unfold Obligations.IdIsTheConstant
  intro s
  rw [s.readReg_id]
  decide

/-- `STATUS` after reset: not busy, no error, the generator of width 32 uninitialised (R51). -/
theorem State.reset_status : State.reset.status = 0 := by decide

/-- Settles O58: `State.reset` gives each field its value of R51, and `STATUS`, `ID` and `CAPS` are computed from them. -/
theorem resetValues : Obligations.ResetValues := by
  unfold Obligations.ResetValues
  exact ⟨rfl, rfl, rfl, rfl, rfl, rfl, State.reset_status, State.readReg_id _, State.readReg_caps _,
    rfl, rfl, rfl, rfl, rfl, rfl, rfl, rfl, rfl, rfl, rfl, fun a => Memory.read_nil a, rfl, rfl⟩

end Sys2Proof.Machine
end


section
/-! CERTIFICATE. The statements about the message memory of 20_memory: what an access outside the memory does. -/

namespace Sys2Proof.Machine

/-! ## Accesses outside the memory -/

/-- A loader whose range runs past the memory raises `MEM_BOUNDS`, whatever word it makes of its bytes (R141). -/
theorem loaderCommand_outside {a n : Nat} {s : State} (h : s.params.msgBytes < a + n) (word : List Byte → Word) :
    loaderCommand a n word s = s.raise .memBounds := by
  obtain ⟨-, hraise⟩ | ⟨hin, -⟩ := loaderCommand_cases a n word s
  · exact hraise
  · exact absurd h (Nat.not_lt.mpr hin)

/-- A host byte read outside the memory returns 0 and records no fault (R197). -/
theorem State.memRead_outside {a : BitVec 16} {s : State} (h : s.params.msgBytes ≤ a.toNat) :
    s.memRead a = s.respond (.byte 0) := by
  obtain ⟨hin, -⟩ | ⟨-, hzero⟩ := s.memRead_cases a
  · exact absurd h (Nat.not_le.mpr hin)
  · exact hzero

/-- What a byte write by the host does (R196). -/
theorem State.memWrite_cases (a : BitVec 16) (b : Byte) (s : State) :
    (a.toNat < s.params.msgBytes ∧ s.memWrite a b = { s with mem := s.mem.write a.toNat b }) ∨
    (s.params.msgBytes ≤ a.toNat ∧ s.memWrite a b = s) := by
  unfold State.memWrite State.inMemory
  by_cases h : a.toNat < s.params.msgBytes
  · exact .inl ⟨h, if_pos (decide_eq_true h)⟩
  · exact .inr ⟨Nat.not_lt.mp h, if_neg (by simp [h])⟩

/-- A host byte write outside the memory is ignored (R196). -/
theorem State.memWrite_outside {a : BitVec 16} {s : State} (h : s.params.msgBytes ≤ a.toNat) (b : Byte) :
    s.memWrite a b = s := by
  obtain ⟨hin, -⟩ | ⟨-, hignored⟩ := s.memWrite_cases a b
  · exact absurd h (Nat.not_le.mpr hin)
  · exact hignored

/-! ## The obligation -/

/-- Settles O21: a loader takes its bounds branch, and so does the access that the idle block accepts. -/
theorem accessesOutsideTheMemory : Obligations.AccessesOutsideTheMemory := by
  unfold Obligations.AccessesOutsideTheMemory
  refine ⟨fun i a n s hrange hout => ?_, fun s a b rest hp hh hout => ⟨fun he => ?_, fun he => ?_⟩⟩
  · obtain ⟨word, hexec⟩ := exec_loader hrange
    rw [hexec, loaderCommand_outside hout, State.raise]
  · rw [step_idle_host hp hh he, acceptTransaction, State.memWrite_outside (s := { s with env := rest }) hout]
  · rw [step_idle_host hp hh he, acceptTransaction, State.memRead_outside (s := { s with env := rest }) hout]
    rfl

end Sys2Proof.Machine
end


section
/-! CERTIFICATE. The statements about illegal command words of 30_encoding: what the decoder refuses, and what the block
does with a word that is refused. -/

namespace Sys2Proof

/-! ## The opcode of a word -/

/-- The opcode as a number is the low byte of the word (R81). -/
theorem fieldOPC_toNat (v : Word) : (fieldOPC v).toNat = v.toNat % 256 := by
  simp [fieldOPC]

/-- The low byte of a word determines its opcode. -/
theorem fieldOPC_of_and_eq_fixed {v : Word} {r : Row} (h : v &&& 0xFF = r.fixed) : fieldOPC v = r.opc := by
  have hlow : r.opc.toNat = v.toNat % 256 :=
    calc r.opc.toNat = r.fixed.toNat := (BitVec.toNat_setWidth_of_le (by omega)).symm
      _ = (v &&& 0xFF).toNat := by rw [h]
      _ = v.toNat % 256 := Nat.and_two_pow_sub_one_eq_mod v.toNat 8
  exact BitVec.eq_of_toNat_eq ((fieldOPC_toNat v).trans hlow.symm)

/-! ## The opcode table -/

/-- Every assigned opcode lies outside the reserved ranges (R89, R90). -/
theorem opc_assigned {r : Row} (h : r ∈ opcodeTable) :
    (0x11 ≤ r.opc.toNat ∧ r.opc.toNat ≤ 0x16) ∨ r.opc.toNat = 0x21 ∨ r.opc.toNat = 0x26 ∨ r.opc.toNat = 0x35 ∨
      r.opc.toNat = 0x36 ∨ r.opc.toNat = 0x3E ∨ (0x40 ≤ r.opc.toNat ∧ r.opc.toNat ≤ 0x42) := by
  have hall : ∀ c ∈ opcodeTable.map (fun r => r.opc.toNat), (0x11 ≤ c ∧ c ≤ 0x16) ∨ c = 0x21 ∨ c = 0x26 ∨ c = 0x35 ∨
      c = 0x36 ∨ c = 0x3E ∨ (0x40 ≤ c ∧ c ≤ 0x42) := by decide
  exact hall _ (List.mem_map_of_mem h)

/-- No two rows have the same opcode (R89). -/
theorem opcodeTable_nodup : (opcodeTable.map Row.opc).Nodup := by decide

/-- A row of the table is the row found by its opcode. -/
theorem opcodeTable_find {v : Word} {r : Row} (hr : r ∈ opcodeTable) (hopc : fieldOPC v = r.opc) :
    opcodeTable.find? (fun r => r.opc == fieldOPC v) = some r := by
  cases hfind : opcodeTable.find? (fun r => r.opc == fieldOPC v) with
  | none => exact absurd hopc.symm (by simpa using List.find?_eq_none.mp hfind r hr)
  | some r' =>
    have hopc' : r'.opc = fieldOPC v := by simpa using List.find?_some hfind
    exact congrArg some (List.inj_on_of_nodup_map opcodeTable_nodup (List.mem_of_find?_eq_some hfind) hr
      (hopc'.trans hopc))

/-! ## The words the decoder refuses -/

/-- Decoding a word whose opcode is in no row (R91). -/
theorem decode_reservedOpcode {v : Word} (h : ∀ r ∈ opcodeTable, r.opc ≠ fieldOPC v) :
    decode v = .error (.reservedOpcode (fieldOPC v)) := by
  have hfind : opcodeTable.find? (fun r => r.opc == fieldOPC v) = none :=
    List.find?_eq_none.mpr fun r hr => by simpa using h r hr
  unfold decode
  rw [hfind]

/-- Decoding a word whose opcode is that of the row `r` and whose fixed bits are not the row's (R92). -/
theorem decode_reservedBits {v : Word} {r : Row} (hr : r ∈ opcodeTable) (hopc : fieldOPC v = r.opc)
    (hbits : v &&& r.format.mask ≠ r.fixed) : decode v = .error (.reservedBits r.opc) := by
  unfold decode
  rw [opcodeTable_find hr hopc]
  exact if_neg hbits

end Sys2Proof

namespace Sys2Proof.Machine

/-! ## Issuing an illegal word -/

/-- A word that does not decode, written to `CMD` of an idle block, raises `ILLEGAL_CMD`, and that is all (R192, R212). -/
theorem step_cmd_illegal {s : State} {v : Word} {rest : List Event} {e : Illegal} (hp : s.pending = none)
    (hh : s.held = none) (he : s.env = .host (.regWr 2#8 v) :: rest) (hdecode : decode v = .error e) :
    step s = .next { s with env := rest, err := .illegalCmd, estk := true } := by
  have hissue : step s = issueCommand v { s with env := rest } := step_idle_host hp hh he
  obtain ⟨-, -, hraise⟩ | ⟨i, hok, -⟩ := issueCommand_cases v { s with env := rest }
  · rw [hissue, hraise, State.raise, State.accept, hp]
  · exact absurd (hdecode.symm.trans hok) nofun

/-! ## The obligations -/

/-- Settles O8: the reserved ranges meet no row of the table, so the word does not decode. -/
theorem reservedOpcodeRaisesIllegalCmd : Obligations.ReservedOpcodeRaisesIllegalCmd := by
  unfold Obligations.ReservedOpcodeRaisesIllegalCmd
  intro s v rest hp hh he hreserved
  refine step_cmd_illegal hp hh he (decode_reservedOpcode fun r hr hopc => ?_)
  have hassigned := opc_assigned hr
  rw [hopc, fieldOPC_toNat] at hassigned
  omega

/-- Settles O9: the pairs of opcode and mask are the rows of the table, and the word fails the check of its row. -/
theorem reservedBitsRaiseIllegalCmd : Obligations.ReservedBitsRaiseIllegalCmd := by
  unfold Obligations.ReservedBitsRaiseIllegalCmd
  rintro s v rest hp hh he ⟨p, hpair, hopc, hbits⟩
  obtain ⟨r, hr, rfl⟩ : ∃ r ∈ opcodeTable, (r.fixed, r.format.mask) = p := List.mem_map.mp hpair
  exact step_cmd_illegal hp hh he (decode_reservedBits hr (fieldOPC_of_and_eq_fixed hopc) hbits)

end Sys2Proof.Machine
end


section
/-! CERTIFICATE. The statements about the round commands of 40_round_core: each commits the round of its variant, and
changes nothing else but `STATUS.ERR` and the ghosts. -/

namespace Sys2Proof.Machine

/-! ## The two rounds in their independent forms -/

/-- Variant A, with its multiplier `2l + 1` (R113) and its rotation to the left (R12). -/
theorem roundA_eq_variantA {w : Width} (s l h : BitVec w.bits) : roundA s l h = variantA s l h := by
  simp only [roundA, variantA, multiplier_eq, rotHalf_eq_rotateLeft]

/-- Variant B, with its multiplier `2l + 1` (R113). -/
theorem roundB_eq_variantB {w : Nat} (bswap : BitVec w → BitVec w) (s l h : BitVec w) :
    roundB bswap s l h = variantB bswap s l h := by
  simp only [roundB, variantB, multiplier_eq]

/-- Injecting after the low bits are taken is injecting before (R111). -/
theorem lcgOperand_eq_injectedLcg (w : Nat) (inj : Bool) (s : State) : lcgOperand w inj s = injectedLcg w inj s := by
  cases inj with
  | false => rfl
  | true => exact BitVec.setWidth_xor.symm

/-! ## The commit of a round -/

/-- The two forms of `MIXED` after a round: set already, or the last mark was of another variant or width (R42). -/
theorem mixed_or_otherLineage_eq_mixedAfter (v : Variant) (w : Width) (s : State) :
    (s.mixed || (s.lineage.isSome && s.lineage != some (v, w))) = mixedAfter v w s := by
  unfold mixedAfter
  cases s.lineage with
  | none => simp
  | some p => by_cases hp : p = (v, w) <;> simp [hp]

/-- Everything the commit of a round writes (R22, R42, R126). -/
theorem State.commitRound_eq (v : Variant) (w : Width) (r : RoundResult w.bits) (s : State) :
    s.commitRound v w r = { s with
      seed := r.seed.setWidth 64, lcg := r.lcg.setWidth 64, hash := r.hash.setWidth 64, out := r.out.setWidth 64
      err := .ok, pending := none, lineage := some (v, w), mixed := mixedAfter v w s } := by
  rw [← mixed_or_otherLineage_eq_mixedAfter]
  rfl

/-- A variant A command commits `variantA` of the low bits of the registers (R111, R114). -/
theorem roundCommandA_eq (w : Width) (inj : Bool) (s : State) :
    roundCommandA w inj s = s.commitRound .A w
      (variantA (s.seed.setWidth w.bits) (injectedLcg w.bits inj s) (s.hash.setWidth w.bits)) := by
  rw [roundCommandA, roundA_eq_variantA, lcgOperand_eq_injectedLcg, view, view]

/-- A variant B command commits `variantB` of the low bits of the registers (R111, R122). -/
theorem roundCommandB_eq (w : Width) (bswap : BitVec w.bits → BitVec w.bits) (inj : Bool) (s : State) :
    roundCommandB w bswap inj s = s.commitRound .B w
      (variantB bswap (s.seed.setWidth w.bits) (injectedLcg w.bits inj s) (s.hash.setWidth w.bits)) := by
  rw [roundCommandB, roundB_eq_variantB, lcgOperand_eq_injectedLcg, view, view]

/-- The variant A command of each width runs the one round command (R110). -/
theorem exec_rndaInstr (w : Width) (inj : Bool) (s : State) :
    exec (rndaInstr w inj) s = .next (roundCommandA w inj s) := by
  cases w <;> rfl

/-- `RNDB.2` takes its byte reversal from the parameters (R121, R123). -/
theorem exec_rndb2 (inj : Bool) (s : State) :
    exec (.rndb2 inj) s = .next (roundCommandB .w2 (bswap2 s.params.bswap2) inj s) := rfl

/-- `RNDB.64` reverses the eight bytes (R121, R124). -/
theorem exec_rndb64 (inj : Bool) (s : State) :
    exec (.rndb64 inj) s = .next (roundCommandB .w64 bswap64 inj s) := rfl

/-! ## The obligations -/

/-- Settles O27: every width runs `roundCommandA`, which commits `variantA` of the low bits. -/
theorem variantACommandsComputeTheRound : Obligations.VariantACommandsComputeTheRound := by
  unfold Obligations.VariantACommandsComputeTheRound
  intro w inj s
  rw [exec_rndaInstr, roundCommandA_eq, State.commitRound_eq]

/-- Settles O28: both widths run `roundCommandB`; at 64 bits the low bits are the whole register. -/
theorem variantBCommandsComputeTheRound : Obligations.VariantBCommandsComputeTheRound := by
  unfold Obligations.VariantBCommandsComputeTheRound
  refine fun inj s => ⟨?_, ?_⟩
  · rw [exec_rndb2, roundCommandB_eq, State.commitRound_eq]
  · rw [exec_rndb64, roundCommandB_eq, State.commitRound_eq]
    simp only [BitVec.setWidth_eq]

end Sys2Proof.Machine
end


section
/-! CERTIFICATE. The statements about the host's transactions of 43_host_interface: what a register read returns, what a
register write stores, and what a byte write stores. -/

namespace Sys2Proof.Machine

/-! ## Acceptance -/

/-- A read of `STATUS` is accepted while a command is in flight too (R193). -/
theorem step_status_read {s : State} {rest : List Event} (hh : s.held = none)
    (he : s.env = .host (.regRd statusIndex) :: rest) :
    step s = acceptTransaction (.regRd statusIndex) { s with env := rest } := by
  rw [step_event (.inl hh), takeEvent, he]
  simp [applyEvent, presentTransaction, hh]

/-- A register read that is accepted answers the register (R193, R194). -/
theorem step_regRd {s : State} {i : BitVec 8} {rest : List Event} (hacc : s.pending = none ∨ i = statusIndex)
    (hh : s.held = none) (he : s.env = .host (.regRd i) :: rest) :
    step s = .next ({ s with env := rest }.respond (.word (s.readReg i))) := by
  obtain hp | rfl := hacc
  · exact step_idle_host hp hh he
  · exact step_status_read hh he

/-- An idle block accepts a register write that issues no command (R193, R195). -/
theorem step_regWr {s : State} {i : BitVec 8} {v : Word} {rest : List Event} (hp : s.pending = none)
    (hh : s.held = none) (he : s.env = .host (.regWr i v) :: rest) (hcmd : i ≠ cmdIndex) :
    step s = .next ({ s with env := rest }.writeReg i v) := by
  rw [step_idle_host hp hh he, acceptTransaction, if_neg hcmd]

/-! ## The register map -/

/-- The ten indices that name a register (R43). -/
theorem register_index_cases {i : BitVec 8} (h : i.toNat < 10) :
    i = 0#8 ∨ i = 1#8 ∨ i = 2#8 ∨ i = 3#8 ∨ i = 4#8 ∨ i = 5#8 ∨ i = 6#8 ∨ i = 7#8 ∨ i = 8#8 ∨ i = 9#8 := by
  bv_omega

/-- What a register read returns, as a chain of comparisons of the index (R43, R194). -/
theorem State.readReg_eq (s : State) (i : BitVec 8) :
    s.readReg i =
      if i = 0#8 then idWord else if i = 1#8 then s.status else if i = 3#8 then s.seed
      else if i = 4#8 then s.lcg else if i = 5#8 then s.hash else if i = 6#8 then s.out
      else if i = 7#8 then s.msg else if i = 8#8 then s.gbyte
      else if i = 9#8 then s.readReg 9#8 else 0#64 := by
  obtain hnamed | hreserved := Nat.lt_or_ge i.toNat 10
  · obtain rfl | rfl | rfl | rfl | rfl | rfl | rfl | rfl | rfl | rfl := register_index_cases hnamed
    all_goals rfl
  · have hne (k : BitVec 8) (hk : k.toNat < 10) : i ≠ k := by
      rintro rfl
      omega
    rw [State.readReg_reserved hreserved]
    simp [hne]

/-- A write to `STATUS` clears the sticky error by a 1 in bit 1, and ignores every other bit (R195, R219). -/
theorem State.writeReg_status (v : Word) (s : State) :
    s.writeReg 1#8 v = { s with estk := s.estk && !v.getLsbD 1 } := by
  change (if v.getLsbD 1 then s.clearSticky else s) = _
  cases v.getLsbD 1 with
  | true => simp [State.clearSticky]
  | false => simp

/-- A write to `ID`, `OUT`, `GBYTE`, `CAPS` or a reserved index is ignored (R195, R198). -/
theorem State.writeReg_ignored {i : BitVec 8} (h : i = 0#8 ∨ i = 6#8 ∨ i = 8#8 ∨ 9 ≤ i.toNat) (v : Word) (s : State) :
    s.writeReg i v = s := by
  obtain rfl | rfl | rfl | hi := h
  · rfl
  · rfl
  · rfl
  · obtain hcaps | hreserved := Nat.eq_or_lt_of_le hi
    · obtain rfl : i = 9#8 := BitVec.eq_of_toNat_eq hcaps.symm
      rfl
    · exact State.writeReg_reserved hreserved v s

/-! ## The obligations -/

/-- Settles O11: the accepted read answers `readReg`, which is the register map. -/
theorem regRdReturnsTheMappedRegister : Obligations.RegRdReturnsTheMappedRegister := by
  unfold Obligations.RegRdReturnsTheMappedRegister
  intro s i rest hacc hh he
  rw [step_regRd hacc hh he, s.readReg_eq i]
  rfl

/-- Settles O12: every index but that of `CMD` goes through `writeReg`, whose cases are the clauses. -/
theorem regWrWritesOnlyItsRegister : Obligations.RegWrWritesOnlyItsRegister := by
  unfold Obligations.RegWrWritesOnlyItsRegister
  intro s i v rest hp hh he
  have hwrite : i ≠ cmdIndex → step s = .next ({ s with env := rest }.writeReg i v) := step_regWr hp hh he
  refine ⟨?status, ?cmd, ?seed, ?lcg, ?hash, ?msg, ?ignored⟩
  case status =>
    rintro rfl
    rw [hwrite (by decide), State.writeReg_status]
  case cmd =>
    rintro rfl
    exact step_idle_host hp hh he
  case ignored =>
    intro hi
    have hcmd : i ≠ cmdIndex := by
      rintro rfl
      exact absurd hi (by decide)
    rw [hwrite hcmd, State.writeReg_ignored hi]
  all_goals
    rintro rfl
    exact hwrite (by decide)

/-- Settles O18: inside the memory the write is `Memory.write`, by its two read laws; outside it is ignored. -/
theorem memWrStoresOneByte : Obligations.MemWrStoresOneByte := by
  unfold Obligations.MemWrStoresOneByte
  intro s a b rest hp hh he
  rw [step_idle_host hp hh he, acceptTransaction]
  obtain ⟨hin, hstored⟩ | ⟨hout, hignored⟩ := State.memWrite_cases a b { s with env := rest }
  · rw [hstored]
    exact ⟨fun _ => ⟨s.mem.write a.toNat b, rfl, Memory.read_write_same _ _ _,
      fun k hk => Memory.read_write_other _ _ k _ hk⟩, fun hout => absurd hin (Nat.not_lt.mpr hout)⟩
  · rw [hignored]
    exact ⟨fun hin => absurd hout (Nat.not_le.mpr hin), fun _ => rfl⟩

end Sys2Proof.Machine
end


section
/-! SUPPORT. What a command, an answer of the agent and a host transaction can do, each as one inductive relation or frame
that later proofs take apart by its cases. -/

namespace Sys2Proof.Machine

/-! ## The agent's answers -/

/-- What an answer of the agent makes of a state, by the point at which the command in flight waits (R161). -/
inductive AnswerTaken (s : State) : Answer → State → Prop
  /-- `EntOpen` answered UNAVAILABLE (R167). -/
  | unavailable {gw : GenWidth} {p : Bool} (hp : s.pending = some (.ginitOpen gw p)) :
      AnswerTaken s (.opened false) (s.answered.raise .sourceUnavailable)
  /-- `GINIT` without prewarm ends (R165). -/
  | created {gw : GenWidth} (hp : s.pending = some (.ginitOpen gw false)) :
      AnswerTaken s (.opened true)
        (s.answered.acquireSource.commitInstance ({ s.gen with owned := true }.fresh s.params gw))
  /-- The prewarm begins (R166). -/
  | prewarmBegun {gw : GenWidth} (hp : s.pending = some (.ginitOpen gw true)) :
      AnswerTaken s (.opened true)
        (s.answered.acquireSource.request .readByte
          (.ginitPrewarm prewarmRounds ({ s.gen with owned := true }.fresh s.params gw)))
  /-- The last prewarm round: `GINIT` ends (R166). -/
  | prewarmEnded {left : Nat} {work : Gen} {b : Byte} (hp : s.pending = some (.ginitPrewarm left work))
      (hleft : left ≤ 1) : AnswerTaken s (.byte b) (s.answered.commitInstance (work.prewarmRound b))
  /-- A prewarm round that is not the last (R166). -/
  | prewarmed {left : Nat} {work : Gen} {b : Byte} (hp : s.pending = some (.ginitPrewarm left work))
      (hleft : 1 < left) :
      AnswerTaken s (.byte b) (s.answered.request .readByte (.ginitPrewarm (left - 1) (work.prewarmRound b)))
  /-- `GNEXT` has drawn its schedule byte (R172). -/
  | scheduled {b : Byte} (hp : s.pending = some .gnextSchedule) :
      AnswerTaken s (.byte b) (s.answered.request .readByte (.gnextMessage b))
  /-- `GNEXT` has drawn its second byte and ends (R172). -/
  | emitted {e b : Byte} (hp : s.pending = some (.gnextMessage e)) :
      AnswerTaken s (.byte b) (s.answered.emit ((s.gen.schedule e).refill b))
  /-- No command waits on this request, which happens in no legal state. -/
  | settled {a : Answer} (hflight : s.flightOk = false) : AnswerTaken s a s.answered

/-- An answer that is taken does one of these things. -/
theorem answerTaken_of_takeAnswer {a : Answer} {s s' : State} (h : takeAnswer a s = some s') :
    AnswerTaken s a s' := by
  obtain ⟨ok, rfl, hreq, rfl⟩ | ⟨b, rfl, hreq, rfl⟩ := takeAnswer_cases h
  · obtain ⟨gw, p, hp, ⟨rfl, he⟩ | ⟨rfl, rfl, he⟩ | ⟨rfl, rfl, he⟩⟩ | ⟨hp, he⟩ := answerOpen_cases ok s.answered <;>
      rw [he]
    · exact .unavailable hp
    · exact .created hp
    · exact .prewarmBegun hp
    · refine .settled ?_
      unfold State.flightOk
      split <;> simp_all
  · unfold answerRead
    split
    · rename_i left work hp
      unfold ginitPrewarmed
      split
      · exact .prewarmEnded hp (by assumption)
      · exact .prewarmed hp (by omega)
    · exact .scheduled (by assumption)
    · exact .emitted (by assumption)
    · refine .settled ?_
      unfold State.flightOk
      split <;> simp_all

/-! ## Commands -/

/-- What the execution of a command makes of a state. -/
inductive Executed (s : State) : Instr → State → Prop
  /-- A round command commits its round (R126). -/
  | round {i : Instr} {v : Variant} {w : Width} {inj : Bool} (hi : roundOf i = some (v, w, inj))
      (r : RoundResult w.bits) : Executed s i (s.commitRound v w r)
  /-- A loader runs past the memory (R141). -/
  | outside {i : Instr} {a n : Nat} (hi : loaderRange i = some (a, n)) (hout : s.params.msgBytes < a + n) :
      Executed s i (s.raise .memBounds)
  /-- A loader in bounds (R141). -/
  | loaded {i : Instr} {a n : Nat} (hi : loaderRange i = some (a, n)) (m : Word) :
      Executed s i { s with msg := m, err := .ok, pending := none, faults := (s.recordRead a n).faults }
  /-- A generator command in the wrong lifecycle state (R182). -/
  | wrongState {i : Instr} (hi : isGenerator i = true) : Executed s i (s.raise .genState)
  /-- `GINIT` goes as far as the answers that come next allow (R165). -/
  | ginit {gw : GenWidth} {p : Bool} (hg : s.gen.state ≠ .ready) :
      Executed s (.ginit gw p) (runEngine s.env (s.request .openSource (.ginitOpen gw p)))
  /-- `GNEXT` with a byte left (R172). -/
  | gnextEmits (hg : s.gen.state = .ready) (hleft : s.gen.hashLeft ≠ 0) : Executed s .gnext (s.emit s.gen)
  /-- `GNEXT` refills inside the schedule (R172). -/
  | gnextRefills (hg : s.gen.state = .ready) (hleft : s.gen.hashLeft = 0) (hctr : s.gen.entCtr ≠ 0) :
      Executed s .gnext (s.emit (s.gen.refill 0))
  /-- `GNEXT` at the schedule's end goes as far as the answers that come next allow (R172). -/
  | gnextDraws (hg : s.gen.state = .ready) (hleft : s.gen.hashLeft = 0) (hctr : s.gen.entCtr = 0) :
      Executed s .gnext (runEngine s.env (s.request .readByte .gnextSchedule))
  /-- `GFINAL` (R180). -/
  | gfinal (hg : s.gen.state = .ready) : Executed s .gfinal s.closeSource.terminate.succeed

/-- Every command answers a next state, and does one of these things (R41). -/
theorem exec_executed (i : Instr) (s : State) : ∃ t, exec i s = .next t ∧ Executed s i t := by
  cases hg : isGenerator i with
  | false =>
    obtain ⟨v, w, inj, hi⟩ | ⟨a, n, hi⟩ := round_or_loader hg
    · obtain ⟨f, hf⟩ := exec_round hi
      exact ⟨_, hf s, .round hi _⟩
    · obtain ⟨word, hword⟩ := exec_loader hi
      refine ⟨_, hword s, ?_⟩
      obtain ⟨hout, he⟩ | ⟨-, he⟩ := loaderCommand_cases a n word s <;> rw [he]
      · exact .outside hi hout
      · exact .loaded hi _
  | true =>
    cases i <;> simp only [isGenerator, Bool.false_eq_true] at hg
    case ginit gw p =>
      obtain ⟨-, he⟩ | ⟨hs, he⟩ := execGinit_cases gw p s
      · exact ⟨_, he, .wrongState rfl⟩
      · exact ⟨_, he, .ginit hs⟩
    case gnext =>
      obtain ⟨-, he⟩ | ⟨hs, hl, he⟩ | ⟨hs, hl, hc, he⟩ | ⟨hs, hl, hc, he⟩ := execGnext_cases s
      · exact ⟨_, he, .wrongState rfl⟩
      · exact ⟨_, he, .gnextEmits hs hl⟩
      · exact ⟨_, he, .gnextRefills hs hl hc⟩
      · exact ⟨_, he, .gnextDraws hs hl hc⟩
    case gfinal =>
      obtain ⟨-, he⟩ | ⟨hs, he⟩ := execGfinal_cases s
      · exact ⟨_, he, .wrongState rfl⟩
      · exact ⟨_, he, .gfinal hs⟩

theorem executed_of_exec {i : Instr} {s t : State} (h : exec i s = .next t) : Executed s i t := by
  obtain ⟨t', ht', hexec⟩ := exec_executed i s
  cases ht'.symm.trans h
  exact hexec

/-! ## Host transactions -/

/-- What a host transaction that issues no command leaves as it is (R194 to R197). -/
structure SameEngine (s t : State) : Prop where
  params : t.params = s.params
  gbyte : t.gbyte = s.gbyte
  err : t.err = s.err
  gen : t.gen = s.gen
  pending : t.pending = s.pending
  entReq : t.entReq = s.entReq
  held : t.held = s.held
  env : t.env = s.env
  portOut : t.portOut = s.portOut

/-- A register write leaves the command engine and the generator as they are (R195). -/
theorem State.writeReg_sameEngine (i : BitVec 8) (v : Word) (s : State) : SameEngine s (s.writeReg i v) := by
  unfold State.writeReg
  split
  case h_1 => split <;> constructor <;> rfl
  all_goals constructor <;> rfl

/-- A byte read leaves the command engine and the generator as they are (R197). -/
theorem State.memRead_sameEngine (a : BitVec 16) (s : State) : SameEngine s (s.memRead a) := by
  obtain ⟨-, h⟩ | ⟨-, h⟩ := s.memRead_cases a <;> rw [h] <;> constructor <;> rfl

/-- A byte write leaves the command engine and the generator as they are (R196). -/
theorem State.memWrite_sameEngine (a : BitVec 16) (b : Byte) (s : State) : SameEngine s (s.memWrite a b) := by
  obtain ⟨-, h⟩ | ⟨-, h⟩ := s.memWrite_cases a b <;> rw [h] <;> constructor <;> rfl

/-- What accepting a transaction makes of a state (R191, R192). -/
inductive Accepted (s : State) : Transaction → State → Prop
  /-- A register read. -/
  | read (i : BitVec 8) : Accepted s (.regRd i) (s.respond (.word (s.readReg i)))
  /-- A register write that issues no command. -/
  | write {i : BitVec 8} (v : Word) (hi : i ≠ cmdIndex) : Accepted s (.regWr i v) (s.writeReg i v)
  /-- A byte read. -/
  | memRead (a : BitVec 16) : Accepted s (.memRd a) (s.memRead a)
  /-- A byte write. -/
  | memWrite (a : BitVec 16) (b : Byte) : Accepted s (.memWr a b) (s.memWrite a b)
  /-- An illegal command word. -/
  | illegal {v : Word} {e : Illegal} (hv : decode v = .error e) :
      Accepted s (.regWr cmdIndex v) ((s.accept v).raise .illegalCmd)
  /-- A command. -/
  | issued {v : Word} {i : Instr} {t : State} (hv : decode v = .ok i) (ht : exec i (s.accept v) = .next t) :
      Accepted s (.regWr cmdIndex v) t

/-- An accepted transaction does one of these things. -/
theorem accepted_of_acceptTransaction {x : Transaction} {s t : State} (h : acceptTransaction x s = .next t) :
    Accepted s x t := by
  obtain ⟨i, rfl, he⟩ | ⟨v, rfl, he⟩ | ⟨i, v, rfl, hi, he⟩ | ⟨a, rfl, he⟩ | ⟨a, b, rfl, he⟩ := acceptTransaction_cases x s
  case inr.inl =>
    obtain ⟨e, hv, hc⟩ | ⟨i, hv, hc⟩ := issueCommand_cases v s
    · cases (he.trans hc).symm.trans h
      exact .illegal hv
    · exact .issued hv (hc.symm.trans (he.symm.trans h))
  all_goals cases he.symm.trans h
  · exact .read i
  · exact .write v hi
  · exact .memRead a
  · exact .memWrite a b

/-- A transaction that issues no command leaves the command engine and the generator as they are. -/
theorem Accepted.sameEngine {x : Transaction} {s t : State} (h : Accepted s x t) (hx : x.issuesCommand = false) :
    SameEngine s t := by
  cases h with
  | read i => constructor <;> rfl
  | write v hi => exact s.writeReg_sameEngine _ v
  | memRead a => exact s.memRead_sameEngine a
  | memWrite a b => exact s.memWrite_sameEngine a b
  | illegal hv => cases hx
  | issued hv ht => cases hx

/-! ## Steps -/

/-- A step's transaction is the one held or the one that comes next, and the state that accepts it has it taken. -/
inductive Offered (s : State) : Transaction → State → Prop
  /-- The transaction held, when the block is idle and no reset comes (R193, R240). -/
  | held {x : Transaction} (hx : s.held = some x) (hp : s.pending = none) (hr : ∀ rest, s.env ≠ .reset :: rest) :
      Offered s x { s with held := none }
  /-- The transaction that is presented (R191, R193). -/
  | presented {x : Transaction} {rest : List Event} (he : s.env = .host x :: rest) (hh : s.held = none)
      (hp : s.pending = none ∨ x = .regRd statusIndex) : Offered s x { s with env := rest }

/-- What a step makes of a state. -/
inductive Stepped (s : State) : State → Prop
  /-- A transaction is accepted (R191). -/
  | accepted {x : Transaction} {u t : State} (hu : Offered s x u) (ht : Accepted u x t) : Stepped s t
  /-- An answer is taken, and the command in flight runs on (R161). -/
  | answered {a : Answer} {rest : List Event} {u : State} (he : s.env = .answer a :: rest)
      (hu : takeAnswer a { s with env := rest } = some u) : Stepped s (runEngine u.env u)
  /-- A reset (R240). -/
  | reset {rest : List Event} (he : s.env = .reset :: rest) : Stepped s { s with env := rest }.applyReset
  /-- No event is to come (R162). -/
  | silent (he : s.env = []) (hw : s.held = none ∨ s.pending ≠ none) : Stepped s s
  /-- A transaction is held while a command is in flight (R193). -/
  | holds {x : Transaction} {rest : List Event} (he : s.env = .host x :: rest) (hh : s.held = none)
      (hp : s.pending ≠ none) : Stepped s { s with env := rest, held := some x }
  /-- A late answer or a pause, which does nothing (R243). -/
  | ignored {e : Event} {rest : List Event} (he : s.env = e :: rest) (hw : s.held = none ∨ s.pending ≠ none) :
      Stepped s { s with env := rest }

/-- A step that answers a next state does one of these things. -/
theorem stepped_of_step {s t : State} (h : step s = .next t) : Stepped s t := by
  obtain ⟨x, hx, hp, hr, ht⟩ | ⟨he, hw, rfl⟩ | ⟨x, rest, he, hh, hp, ht⟩ | ⟨x, rest, he, hh, hp, rfl⟩ |
    ⟨a, rest, u, he, ha, rfl⟩ | ⟨a, rest, he, hw, rfl⟩ | ⟨rest, he, rfl⟩ | ⟨rest, he, hw, rfl⟩ := step_cases h
  · exact .accepted (.held hx hp hr) (accepted_of_acceptTransaction ht)
  · exact .silent he hw
  · exact .accepted (.presented he hh hp) (accepted_of_acceptTransaction ht)
  · exact .holds he hh hp
  · exact .answered he ha
  · exact .ignored he hw
  · exact .reset he
  · exact .ignored he hw

/-- What every answer keeps, and what a change of the coming events keeps, the engine's run keeps. -/
theorem runEngine_keeps {P : State → Prop} (hans : ∀ a u u', P u → AnswerTaken u a u' → P u')
    (henv : ∀ u e, P u → P { u with env := e }) (es : List Event) {s : State} (h : P s) : P (runEngine es s) :=
  runEngine_induct P (fun a u u' hu ht => hans a u u' hu (answerTaken_of_takeAnswer ht)) henv es s h

end Sys2Proof.Machine
end


section
/-! CERTIFICATE. The statements about the legal states of 10_state: the reset state is one, and every step leads from one to
one. -/

namespace Sys2Proof.Machine

/-! ## The generator's registers -/

/-- The triple of a generator fits its width (R32). -/
def Gen.tripleFits (g : Gen) : Prop :=
  g.gw = .w64 ∨ (g.seed.toNat < 2 ^ 32 ∧ g.lcg.toNat < 2 ^ 32 ∧ g.hash.toNat < 2 ^ 32)

/-- The ranges of the generator's registers, as propositions (R32 to R35). -/
theorem Gen.inRange_iff (g : Gen) :
    g.inRange = true ↔ g.tripleFits ∧ g.hashLeft.toNat ≤ genBytes g.gw ∧ g.entCtr.toNat ≤ 2047 ∧
      g.lastHash = g.hash >>> (8 * (genBytes g.gw - g.hashLeft.toNat)) := by
  simp [Gen.inRange, Gen.tripleFits, and_assoc]

/-- The low bits of a zero-extended value are the value (R22). -/
theorem view_zext64 {w : Nat} (hw : w ≤ 64) (x : BitVec w) : view w (zext64 x) = x := by
  rw [view, zext64, BitVec.setWidth_setWidth_of_le _ hw, BitVec.setWidth_eq]

/-- A generator's width is at most that of its registers. -/
theorem genBits_le (gw : GenWidth) : genBits gw ≤ 64 := by cases gw <;> decide

/-- With no byte left the shift buffer has run empty: nothing of a `Hash` word that fits is left (R35). -/
theorem Gen.hash_shifted_out {g : Gen} (h : g.tripleFits) : g.hash >>> (8 * genBytes g.gw) = 0 := by
  apply BitVec.eq_of_toNat_eq
  rw [BitVec.toNat_ushiftRight, Nat.shiftRight_eq_div_pow]
  obtain hw | ⟨-, -, hlt⟩ := h
  · rw [hw]
    exact Nat.div_eq_of_lt g.hash.isLt
  · cases hw : g.gw with
    | w32 => exact Nat.div_eq_of_lt hlt
    | w64 => exact Nat.div_eq_of_lt g.hash.isLt

/-- With the counters and the buffer 0, a generator is in range as soon as its triple fits. -/
theorem Gen.inRange_of_empty {g : Gen} (h : g.tripleFits) (hleft : g.hashLeft = 0) (hctr : g.entCtr = 0)
    (hlast : g.lastHash = 0) : g.inRange = true := by
  refine g.inRange_iff.mpr ⟨h, by simp [hleft], by simp [hctr], ?_⟩
  rw [hlast, hleft]
  exact (Gen.hash_shifted_out h).symm

/-- A round leaves a triple that fits (R170). -/
theorem Gen.round_tripleFits (g : Gen) : g.round.tripleFits := by
  cases hw : g.gw with
  | w64 => exact .inl hw
  | w32 =>
    have hbits : genBits g.gw = 32 := by rw [hw]
    have hlt (x : BitVec (genBits g.gw)) : (zext64 x).toNat < 2 ^ 32 := hbits ▸ zext64_toNat_lt x
    exact .inr ⟨hlt _, hlt _, hlt _⟩

/-- The constants of either width fit it (R8, R165). -/
theorem Gen.fresh_tripleFits (p : Params) (gw : GenWidth) (g : Gen) : (g.fresh p gw).tripleFits := by
  cases gw with
  | w64 => exact .inl rfl
  | w32 => exact .inr ⟨zext64_toNat_lt _, zext64_toNat_lt _, Nat.two_pow_pos 32⟩

/-- A generator in the middle of its prewarm, as propositions (R166). -/
theorem Gen.prewarming_iff (g : Gen) :
    g.prewarming = true ↔ g.tripleFits ∧ g.owned = true ∧ g.entCtr = 0 ∧ g.hashLeft = 0 ∧ g.lastHash = 0 := by
  simp only [Gen.prewarming, Bool.and_eq_true, decide_eq_true_eq]
  constructor
  · rintro ⟨⟨⟨⟨hr, ho⟩, hc⟩, hl⟩, hh⟩
    exact ⟨(g.inRange_iff.mp hr).1, ho, hc, hl, hh⟩
  · rintro ⟨hf, ho, hc, hl, hh⟩
    exact ⟨⟨⟨⟨Gen.inRange_of_empty hf hl hc hh, ho⟩, hc⟩, hl⟩, hh⟩

/-- A generator in the middle of its prewarm is in range. -/
theorem Gen.prewarming_inRange {g : Gen} (h : g.prewarming = true) : g.inRange = true := by
  obtain ⟨hf, -, hc, hl, hh⟩ := g.prewarming_iff.mp h
  exact Gen.inRange_of_empty hf hl hc hh

/-- A new generator of a held source can begin its prewarm. -/
theorem Gen.fresh_prewarming (p : Params) (gw : GenWidth) {g : Gen} (h : g.owned = true) :
    (g.fresh p gw).prewarming = true :=
  (Gen.prewarming_iff _).mpr ⟨Gen.fresh_tripleFits p gw g, h, rfl, rfl, rfl⟩

/-- A prewarm round leaves the generator in its prewarm. -/
theorem Gen.prewarmRound_prewarming (b : Byte) {g : Gen} (h : g.prewarming = true) :
    (g.prewarmRound b).prewarming = true := by
  obtain ⟨-, ho, hc, hl, hh⟩ := g.prewarming_iff.mp h
  exact (Gen.prewarming_iff _).mpr ⟨Gen.round_tripleFits _, ho, hc, hl, hh⟩

/-- An emission takes the next byte of the word out of the buffer (R35, R172). -/
theorem Gen.afterEmit_inRange {g : Gen} (h : g.inRange = true) (hleft : g.hashLeft ≠ 0) :
    g.afterEmit.inRange = true := by
  obtain ⟨hf, hle, hc, hlast⟩ := g.inRange_iff.mp h
  have hpos : g.hashLeft.toNat ≠ 0 := fun h0 => hleft (BitVec.eq_of_toNat_eq h0)
  have hsub : (g.hashLeft - 1).toNat = g.hashLeft.toNat - 1 := by bv_omega
  refine (Gen.inRange_iff _).mpr ⟨hf, ?_, hc, ?_⟩
  · show (g.hashLeft - 1).toNat ≤ genBytes g.gw
    omega
  · show g.lastHash >>> 8 = g.hash >>> (8 * (genBytes g.gw - (g.hashLeft - 1).toNat))
    rw [hlast, ← BitVec.shiftRight_add, hsub]
    congr 1
    omega

/-- A refill: a round after injection, the buffer loaded from its `Hash` word, the schedule counted down (R172). -/
theorem Gen.refill_eq (b : Byte) (g : Gen) :
    g.refill b = { g.prewarmRound b with
      hashLeft := BitVec.ofNat 4 (genBytes g.gw), lastHash := (g.prewarmRound b).hash, entCtr := g.entCtr - 1 } := by
  have hlast : zext64 (view (genBits g.gw) (g.prewarmRound b).hash) = (g.prewarmRound b).hash :=
    congrArg zext64 (view_zext64 (genBits_le g.gw) _)
  rw [← hlast]
  rfl

/-- A refill leaves registers in range (R33 to R35, R172). -/
theorem Gen.refill_inRange (b : Byte) {g : Gen} (hctr : g.entCtr ≠ 0) (hle : g.entCtr.toNat ≤ 2048) :
    (g.refill b).inRange = true := by
  have hbytes : (BitVec.ofNat 4 (genBytes g.gw)).toNat = genBytes g.gw := by cases g.gw <;> rfl
  rw [g.refill_eq]
  refine (Gen.inRange_iff _).mpr ⟨Gen.round_tripleFits (g.inject b), hbytes.le, ?_, ?_⟩
  · show (g.entCtr - 1).toNat ≤ 2047
    bv_omega
  · show (g.prewarmRound b).hash =
      (g.prewarmRound b).hash >>> (8 * (genBytes g.gw - (BitVec.ofNat 4 (genBytes g.gw)).toNat))
    rw [hbytes, Nat.sub_self]
    rfl

/-- A refill leaves the whole word to emit (R172). -/
theorem Gen.refill_hashLeft_ne_zero (b : Byte) (g : Gen) : (g.refill b).hashLeft ≠ 0 := by
  show BitVec.ofNat 4 (genBytes g.gw) ≠ 0
  cases g.gw <;> decide

/-- The schedule formula gives at least one refill and at most 2048 (R171). -/
theorem Gen.schedule_entCtr (e : Byte) (g : Gen) :
    (g.schedule e).entCtr.toNat = (e.toNat + 1) * genBytes g.gw ∧ (g.schedule e).entCtr ≠ 0 ∧
      (g.schedule e).entCtr.toNat ≤ 2048 := by
  have he : e.toNat < 256 := e.isLt
  have hval : (g.schedule e).entCtr.toNat = (e.toNat + 1) * genBytes g.gw := by
    refine Nat.mod_eq_of_lt ?_
    cases g.gw <;> simp only [genBytes] <;> omega
  have hbound : 0 < (e.toNat + 1) * genBytes g.gw ∧ (e.toNat + 1) * genBytes g.gw ≤ 2048 := by
    cases g.gw <;> simp only [genBytes] <;> omega
  refine ⟨hval, fun h0 => ?_, hval ▸ hbound.2⟩
  rw [h0] at hval
  exact absurd hval hbound.1.ne

/-- The generator after a `GNEXT` that draws its two bytes is in range. -/
theorem Gen.injectedRefill_inRange (e b : Byte) (g : Gen) : ((g.schedule e).refill b).afterEmit.inRange = true := by
  obtain ⟨-, hne, hle⟩ := g.schedule_entCtr e
  exact Gen.afterEmit_inRange (Gen.refill_inRange b hne hle) (Gen.refill_hashLeft_ne_zero b _)

/-- What a `GNEXT` returns is a byte (R37). -/
theorem Gen.emitted_lt (g : Gen) : (zext64 g.emitted).toNat < 256 := zext64_toNat_lt g.emitted

/-! ## The command in flight -/

/-- No command in flight: no request, and the source held exactly in `READY`. -/
theorem State.flightOk_idle {s : State} (hp : s.pending = none) :
    s.flightOk = true ↔ s.entReq = none ∧ (s.gen.owned = true ↔ s.gen.state = .ready) := by
  have howned : (s.gen.owned == decide (s.gen.state = .ready)) = true ↔ (s.gen.owned = true ↔ s.gen.state = .ready) := by
    rw [beq_iff_eq, Bool.eq_iff_iff, decide_eq_true_iff]
  simp only [State.flightOk, hp, Bool.and_eq_true, decide_eq_true_iff, howned]

/-- `GINIT` waits on `EntOpen`. -/
theorem State.flightOk_ginitOpen {s : State} {gw : GenWidth} {p : Bool} (hp : s.pending = some (.ginitOpen gw p)) :
    s.flightOk = true ↔ s.entReq = some .openSource ∧ s.gen.state ≠ .ready ∧ s.gen.owned = false := by
  simp [State.flightOk, hp, and_assoc]

/-- `GINIT` waits on a prewarm byte. -/
theorem State.flightOk_ginitPrewarm {s : State} {left : Nat} {work : Gen}
    (hp : s.pending = some (.ginitPrewarm left work)) :
    s.flightOk = true ↔ s.entReq = some .readByte ∧ s.gen.state ≠ .ready ∧ s.gen.owned = true ∧ 1 ≤ left ∧
      left ≤ prewarmRounds ∧ work.prewarming = true := by
  simp [State.flightOk, hp, and_assoc]

/-- `GNEXT` waits on a byte. -/
theorem State.flightOk_gnext {s : State} (hp : s.pending = some .gnextSchedule ∨ ∃ e, s.pending = some (.gnextMessage e)) :
    s.flightOk = true ↔ s.entReq = some .readByte ∧ s.gen.state = .ready ∧ s.gen.owned = true ∧
      s.gen.hashLeft = 0 ∧ s.gen.entCtr = 0 := by
  obtain hp | ⟨e, hp⟩ := hp <;> simp [State.flightOk, hp, and_assoc]

/-! ## The invariant -/

/-- The invariant speaks of these fields only. -/
theorem State.Inv.congr {s t : State} (h : s.Inv) (hparams : t.params = s.params) (hmem : t.mem = s.mem)
    (hgbyte : t.gbyte = s.gbyte) (hgen : t.gen = s.gen) (hpending : t.pending = s.pending)
    (hentReq : t.entReq = s.entReq) : t.Inv := by
  unfold State.Inv State.memoryInRange State.flightOk
  rw [hparams, hmem, hgbyte, hgen, hpending, hentReq]
  exact h

/-- Every answer keeps the invariant. -/
theorem AnswerTaken.inv {a : Answer} {s t : State} (h : AnswerTaken s a t) (hs : s.Inv) : t.Inv := by
  obtain ⟨hparams, hmem, hrange, hgbyte, hgen, hflight⟩ := hs
  cases h with
  | unavailable hp =>
    obtain ⟨-, hready, howned⟩ := (State.flightOk_ginitOpen hp).mp hflight
    exact ⟨hparams, hmem, hrange, hgbyte, hgen, (State.flightOk_idle rfl).mpr ⟨rfl, by simp [hready, howned]⟩⟩
  | @created gw hp =>
    have hwork := Gen.fresh_prewarming s.params gw (g := { s.gen with owned := true }) rfl
    exact ⟨hparams, hmem, hrange, hgbyte, Gen.prewarming_inRange hwork,
      (State.flightOk_idle rfl).mpr ⟨rfl, by simp [Gen.fresh]⟩⟩
  | @prewarmBegun gw hp =>
    obtain ⟨-, hready, -⟩ := (State.flightOk_ginitOpen hp).mp hflight
    have hwork := Gen.fresh_prewarming s.params gw (g := { s.gen with owned := true }) rfl
    exact ⟨hparams, hmem, hrange, hgbyte, hgen,
      (State.flightOk_ginitPrewarm rfl).mpr ⟨rfl, hready, rfl, by decide, le_rfl, hwork⟩⟩
  | @prewarmEnded left work b hp hleft =>
    obtain ⟨-, -, -, -, -, hwork⟩ := (State.flightOk_ginitPrewarm hp).mp hflight
    have hwork' := Gen.prewarmRound_prewarming b hwork
    obtain ⟨-, howned, -⟩ := (Gen.prewarming_iff _).mp hwork'
    exact ⟨hparams, hmem, hrange, hgbyte, Gen.prewarming_inRange hwork',
      (State.flightOk_idle rfl).mpr ⟨rfl, by simp [howned]⟩⟩
  | @prewarmed left work b hp hleft =>
    obtain ⟨-, hready, howned, -, hmax, hwork⟩ := (State.flightOk_ginitPrewarm hp).mp hflight
    exact ⟨hparams, hmem, hrange, hgbyte, hgen, (State.flightOk_ginitPrewarm rfl).mpr
      ⟨rfl, hready, howned, by omega, by omega, Gen.prewarmRound_prewarming b hwork⟩⟩
  | @scheduled b hp =>
    obtain ⟨-, hgnext⟩ := (State.flightOk_gnext (.inl hp)).mp hflight
    exact ⟨hparams, hmem, hrange, hgbyte, hgen, (State.flightOk_gnext (.inr ⟨b, rfl⟩)).mpr ⟨rfl, hgnext⟩⟩
  | @emitted e b hp =>
    obtain ⟨-, hready, howned, -⟩ := (State.flightOk_gnext (.inr ⟨e, hp⟩)).mp hflight
    exact ⟨hparams, hmem, hrange, Gen.emitted_lt _, Gen.injectedRefill_inRange e b s.gen,
      (State.flightOk_idle rfl).mpr ⟨rfl, iff_of_true howned hready⟩⟩
  | settled hsettled => rw [hflight] at hsettled; cases hsettled

/-- The engine's run keeps the invariant. -/
theorem runEngine_inv (es : List Event) {s : State} (hs : s.Inv) : (runEngine es s).Inv :=
  runEngine_keeps (fun _ _ _ hu ht => ht.inv hu) (fun _ _ hu => hu.congr rfl rfl rfl rfl rfl rfl) es hs

/-- In a legal idle state the source is held exactly in `READY` (R36). -/
theorem State.Inv.owned_iff {s : State} (hs : s.Inv) (hp : s.pending = none) :
    s.gen.owned = true ↔ s.gen.state = .ready := by
  obtain ⟨-, -, -, -, -, hflight⟩ := hs
  exact ((State.flightOk_idle hp).mp hflight).2

/-- A `GINIT` that has requested the source leaves a legal state (R165). -/
theorem State.Inv.ginit_request {s : State} (hs : s.Inv) (hp : s.pending = none) (hg : s.gen.state ≠ .ready) (v : Word)
    (gw : GenWidth) (p : Bool) : ((s.accept v).request .openSource (.ginitOpen gw p)).Inv := by
  have hfree : s.gen.owned = false := Bool.eq_false_iff.mpr fun h => hg ((hs.owned_iff hp).mp h)
  obtain ⟨hparams, hmem, hrange, hgbyte, hgen, -⟩ := hs
  exact ⟨hparams, hmem, hrange, hgbyte, hgen, (State.flightOk_ginitOpen rfl).mpr ⟨rfl, hg, hfree⟩⟩

/-- A `GNEXT` that has requested its first byte leaves a legal state (R172). -/
theorem State.Inv.gnext_request {s : State} (hs : s.Inv) (hp : s.pending = none) (hg : s.gen.state = .ready)
    (hleft : s.gen.hashLeft = 0) (hctr : s.gen.entCtr = 0) (v : Word) :
    ((s.accept v).request .readByte .gnextSchedule).Inv := by
  have howned := (hs.owned_iff hp).mpr hg
  obtain ⟨hparams, hmem, hrange, hgbyte, hgen, -⟩ := hs
  exact ⟨hparams, hmem, hrange, hgbyte, hgen,
    (State.flightOk_gnext (.inl rfl)).mpr ⟨rfl, hg, howned, hleft, hctr⟩⟩

/-- A command issued in a legal idle state leaves a legal state. -/
theorem Executed.inv {i : Instr} {v : Word} {s t : State} (h : Executed (s.accept v) i t) (hs : s.Inv)
    (hp : s.pending = none) : t.Inv := by
  have ⟨hparams, hmem, hrange, hgbyte, hgen, hflight⟩ := hs
  obtain ⟨hreq, howned⟩ := (State.flightOk_idle hp).mp hflight
  cases h with
  | round | outside | loaded | wrongState =>
    exact ⟨hparams, hmem, hrange, hgbyte, hgen, (State.flightOk_idle rfl).mpr ⟨hreq, howned⟩⟩
  | ginit hg => exact runEngine_inv _ (hs.ginit_request hp hg v _ _)
  | gnextEmits hg hleft =>
    exact ⟨hparams, hmem, hrange, Gen.emitted_lt _, Gen.afterEmit_inRange hgen hleft,
      (State.flightOk_idle rfl).mpr ⟨hreq, howned⟩⟩
  | gnextRefills hg hleft hctr =>
    obtain ⟨-, -, hle, -⟩ := s.gen.inRange_iff.mp hgen
    have hrefill : (s.gen.refill 0).inRange = true := Gen.refill_inRange 0 hctr (by omega)
    exact ⟨hparams, hmem, hrange, Gen.emitted_lt _,
      Gen.afterEmit_inRange hrefill (Gen.refill_hashLeft_ne_zero 0 _),
      (State.flightOk_idle rfl).mpr ⟨hreq, howned⟩⟩
  | gnextDraws hg hleft hctr => exact runEngine_inv _ (hs.gnext_request hp hg hleft hctr v)
  | gfinal hg =>
    exact ⟨hparams, hmem, hrange, hgbyte, hgen, (State.flightOk_idle rfl).mpr ⟨hreq, by simp⟩⟩

/-- A byte write keeps the memory canonical and in range (R60, R196). -/
theorem State.memWrite_inv (a : BitVec 16) (b : Byte) {s : State} (hs : s.Inv) : (s.memWrite a b).Inv := by
  obtain ⟨hin, he⟩ | ⟨-, he⟩ := s.memWrite_cases a b <;> rw [he]
  · obtain ⟨hparams, hmem, hrange, hrest⟩ := hs
    refine ⟨hparams, Memory.write_wf _ _ _ hmem, fun c hc => ?_, hrest⟩
    obtain rfl | hc := Memory.mem_write hc
    · exact hin
    · exact hrange c hc
  · exact hs

/-- A register write leaves the message memory as it is. -/
theorem State.writeReg_mem (i : BitVec 8) (v : Word) (s : State) : (s.writeReg i v).mem = s.mem := by
  unfold State.writeReg
  split
  case h_1 => split <;> rfl
  all_goals rfl

/-- A byte read leaves the message memory as it is (R71). -/
theorem State.memRead_mem (a : BitVec 16) (s : State) : (s.memRead a).mem = s.mem := by
  obtain ⟨-, h⟩ | ⟨-, h⟩ := s.memRead_cases a <;> rw [h] <;> rfl

/-- What leaves the engine, the generator and the memory as they are keeps the invariant. -/
theorem SameEngine.inv {s t : State} (h : SameEngine s t) (hmem : t.mem = s.mem) (hs : s.Inv) : t.Inv :=
  hs.congr h.params hmem h.gbyte h.gen h.pending h.entReq

/-- A transaction that a legal state accepts leaves a legal state, if none but a read of `STATUS` is accepted while a command
is in flight. -/
theorem Accepted.inv {x : Transaction} {s t : State} (h : Accepted s x t) (hs : s.Inv)
    (hp : s.pending = none ∨ x = .regRd statusIndex) : t.Inv := by
  have hidle {i : BitVec 8} {v : Word} (hx : x = .regWr i v) : s.pending = none := by
    obtain hp | hp := hp
    · exact hp
    · cases hp.symm.trans hx
  cases h with
  | read => exact hs
  | write v => exact (s.writeReg_sameEngine _ v).inv (s.writeReg_mem _ v) hs
  | memRead a => exact (s.memRead_sameEngine a).inv (s.memRead_mem a) hs
  | memWrite a b => exact State.memWrite_inv a b hs
  | illegal => exact hs.congr rfl rfl rfl rfl (hidle rfl).symm rfl
  | issued _ ht => exact (executed_of_exec ht).inv hs (hidle rfl)

/-- Reset leads every state with admissible parameters to a legal one (R51, R240). -/
theorem State.applyReset_inv {s : State} (h : s.params.wf) : s.applyReset.Inv :=
  ⟨h, Memory.reset_wf, nofun, Nat.two_pow_pos 8, (by decide : Gen.reset.inRange = true),
    (State.flightOk_idle rfl).mpr ⟨rfl, (by decide : Gen.reset.owned = true ↔ Gen.reset.state = .ready)⟩⟩

/-- The state that accepts a transaction is as legal as the one it was offered in. -/
theorem Offered.inv {x : Transaction} {s u : State} (h : Offered s x u) (hs : s.Inv) : u.Inv := by
  cases h <;> exact hs

/-- A transaction that is offered finds the block idle, or reads `STATUS` (R193). -/
theorem Offered.idle {x : Transaction} {s u : State} (h : Offered s x u) :
    u.pending = none ∨ x = .regRd statusIndex := by
  cases h with
  | held _ hp => exact .inl hp
  | presented _ _ hp => exact hp

/-- Every step keeps the invariant. -/
theorem Stepped.inv {s t : State} (h : Stepped s t) (hs : s.Inv) : t.Inv := by
  cases h with
  | accepted hu ht => exact ht.inv (hu.inv hs) hu.idle
  | answered _ hu => exact runEngine_inv _ ((answerTaken_of_takeAnswer hu).inv hs)
  | reset => exact State.applyReset_inv hs.1
  | silent | holds | ignored => exact hs

/-! ## The constants of the implementation -/

/-- From two bits up a small numeral is the word of that number. -/
theorem toNat_ofNat_small {w n : Nat} (hw : 1 < w) (hn : n < 4) : (BitVec.ofNat w n).toNat = n := by
  have hpow : 2 ^ 2 ≤ 2 ^ w := Nat.pow_le_pow_right (by decide) hw
  exact Nat.mod_eq_of_lt (by omega)

/-- From two bits up different small numerals are different words. -/
theorem ofNat_small_ne {w m n : Nat} (hw : 1 < w) (hm : m < 4) (hn : n < 4) (h : m ≠ n) :
    BitVec.ofNat w m ≠ BitVec.ofNat w n := fun he => h <| by
  rw [← toNat_ofNat_small hw hm, he, toNat_ofNat_small hw hn]

/-- The constant of a seed is admissible whatever the choice behind it is (R8). -/
theorem Config.nonzero_ne_zero {w : Nat} (hw : 1 < w) (raw : BitVec w) : Config.nonzero raw ≠ 0 := by
  unfold Config.nonzero
  split
  · exact ofNat_small_ne hw (by decide) (by decide) (by decide)
  · assumption

/-- The constant of an `lcg` is admissible whatever the choice behind it is (R8). -/
theorem Config.nonzeroOtherThan_admissible {w : Nat} (hw : 1 < w) (avoid raw : BitVec w) :
    Config.nonzeroOtherThan avoid raw ≠ 0 ∧ avoid ≠ Config.nonzeroOtherThan avoid raw := by
  unfold Config.nonzeroOtherThan
  split
  · rename_i h
    exact ⟨h.1, h.2.symm⟩
  · split
    · rename_i h
      subst h
      exact ⟨ofNat_small_ne hw (by decide) (by decide) (by decide),
        ofNat_small_ne hw (by decide) (by decide) (by decide)⟩
    · exact ⟨ofNat_small_ne hw (by decide) (by decide) (by decide), (by assumption)⟩

/-- The parameters of the reset state are admissible (R8). -/
theorem Config.params_wf : Config.params.wf := by
  obtain ⟨hlcg32, hdiff32⟩ := Config.nonzeroOtherThan_admissible (w := 32) (by decide)
    (Config.nonzero Config.rawSeed32) Config.rawLcg32
  obtain ⟨hlcg64, hdiff64⟩ := Config.nonzeroOtherThan_admissible (w := 64) (by decide)
    (Config.nonzero Config.rawSeed64) Config.rawLcg64
  exact ⟨(by decide : 8 ≤ 65536), le_refl 65536, Config.nonzero_ne_zero (by decide) _, hlcg32, hdiff32,
    Config.nonzero_ne_zero (by decide) _, hlcg64, hdiff64⟩

/-! ## The obligations -/

/-- Settles O55: each kind of step keeps the invariant, a run of the engine answer by answer. -/
theorem everyStepKeepsTheInvariant : Obligations.EveryStepKeepsTheInvariant := by
  unfold Obligations.EveryStepKeepsTheInvariant
  intro s t hs h
  exact (stepped_of_step h).inv hs

/-- Settles O56: reset leads to a legal state from any admissible parameters, and those of the reset state are. -/
theorem resetSatisfiesTheInvariant : Obligations.ResetSatisfiesTheInvariant := by
  unfold Obligations.ResetSatisfiesTheInvariant
  exact (State.applyReset_inv (s := State.reset) Config.params_wf).congr rfl rfl rfl rfl rfl rfl

/-- Settles O57: no kind of step touches the parameters. -/
theorem noStepChangesTheParameters : Obligations.NoStepChangesTheParameters := by
  unfold Obligations.NoStepChangesTheParameters
  intro s t h
  exact step_params h

end Sys2Proof.Machine
end


section
/-! CERTIFICATE. The statements about 30_encoding: the words that decode, the round trip of commands and words, and what the
lines of the assembler stand for. -/

namespace Sys2Proof

/-! ## The words that decode -/

/-- Every format fixes the opcode (R82 to R86). -/
theorem Format.mask_and_byte (f : Format) : f.mask &&& 0xFF = 0xFF := by cases f <;> rfl

/-- The fixed bits of a row above its opcode are 0 (R89). -/
theorem Row.fixed_and_byte (r : Row) : r.fixed &&& 0xFF = r.fixed := by
  apply BitVec.eq_of_toNat_eq
  have hfixed : r.fixed.toNat = r.opc.toNat := BitVec.toNat_setWidth_of_le (by omega)
  rw [BitVec.toNat_and, hfixed]
  exact (Nat.and_two_pow_sub_one_eq_mod r.opc.toNat 8).trans (Nat.mod_eq_of_lt r.opc.isLt)

/-- A word that agrees with a row on the fixed bits has the row's opcode. -/
theorem fieldOPC_of_and_mask_eq_fixed {v : Word} {r : Row} (h : v &&& r.format.mask = r.fixed) : fieldOPC v = r.opc := by
  apply fieldOPC_of_and_eq_fixed
  calc v &&& 0xFF = v &&& r.format.mask &&& 0xFF := by rw [BitVec.and_assoc, r.format.mask_and_byte]
    _ = r.fixed := by rw [h, r.fixed_and_byte]

/-- A word that agrees with a row of the table on the fixed bits decodes to the row's command (R94). -/
theorem decode_row {v : Word} {r : Row} (hr : r ∈ opcodeTable) (h : v &&& r.format.mask = r.fixed) :
    decode v = .ok (r.build v) :=
  decode_of_row (opcodeTable_find hr (fieldOPC_of_and_mask_eq_fixed h)) h

/-- The words that decode, and to what: by the row they agree with on the fixed bits (R94). -/
theorem decode_eq_ok_iff {v : Word} {i : Instr} :
    decode v = .ok i ↔ ∃ r ∈ opcodeTable, v &&& r.format.mask = r.fixed ∧ r.build v = i := by
  constructor
  · intro h
    unfold decode at h
    split at h
    · cases h
    · rename_i r hfind
      split at h
      · rename_i hbits
        cases h
        exact ⟨r, List.mem_of_find?_eq_some hfind, hbits, rfl⟩
      · cases h
  · rintro ⟨r, hr, hbits, rfl⟩
    exact decode_row hr hbits

/-! ## Decoding an encoded command -/

/-- The word of a well-formed command agrees with the command's row, whose fields are the operands (R82 to R87). -/
theorem decode_encode {i : Instr} (hi : i.wf = true) : decode (encode i) = .ok i := by
  have hrow {opc : Byte} {f : Format} {build : Word → Instr} (k : Nat) (hr : opcodeTable[k]? = some ⟨opc, f, build⟩)
      (hbits : encode i &&& f.mask = opc.setWidth 64) (hbuild : build (encode i) = i) : decode (encode i) = .ok i :=
    (decode_row (List.mem_of_getElem? hr) hbits).trans (congrArg _ hbuild)
  cases i with
  | rnda2 inj => exact hrow 0 rfl (encodeR_and_mask _ _) (congrArg _ (fieldI_encodeR _ _))
  | rnda4 inj => exact hrow 1 rfl (encodeR_and_mask _ _) (congrArg _ (fieldI_encodeR _ _))
  | rnda8 inj => exact hrow 2 rfl (encodeR_and_mask _ _) (congrArg _ (fieldI_encodeR _ _))
  | rnda16 inj => exact hrow 3 rfl (encodeR_and_mask _ _) (congrArg _ (fieldI_encodeR _ _))
  | rnda32 inj => exact hrow 4 rfl (encodeR_and_mask _ _) (congrArg _ (fieldI_encodeR _ _))
  | rnda64 inj => exact hrow 5 rfl (encodeR_and_mask _ _) (congrArg _ (fieldI_encodeR _ _))
  | rndb2 inj => exact hrow 6 rfl (encodeR_and_mask _ _) (congrArg _ (fieldI_encodeR _ _))
  | rndb64 inj => exact hrow 7 rfl (encodeR_and_mask _ _) (congrArg _ (fieldI_encodeR _ _))
  | ldw32 addr =>
    have haddr : addr < 65536 := of_decide_eq_true hi
    exact hrow 8 rfl (encodeM_and_mask _ _) (congrArg _ (fieldADDR_encodeM _ _ haddr))
  | ldw64 addr =>
    have haddr : addr < 65536 := of_decide_eq_true hi
    exact hrow 9 rfl (encodeM_and_mask _ _) (congrArg _ (fieldADDR_encodeM _ _ haddr))
  | ldp64 addr len fb =>
    obtain ⟨haddr, hlen⟩ : addr < 65536 ∧ len < 8 := by simpa [Instr.wf, addrFits, lenFits] using hi
    refine hrow 10 rfl (encodeP_and_mask _ _ _ _) ?_
    rw [encode, fieldADDR_encodeP _ _ _ _ haddr, fieldL_encodeP _ _ _ _ hlen, fieldFB_encodeP]
  | ginit gw p =>
    refine hrow 11 rfl (encodeG_and_mask _ _ _) ?_
    rw [encode, fieldGW_encodeG, fieldP_encodeG]
  | gnext => exact hrow 12 rfl (encodeN_and_mask _) rfl
  | gfinal => exact hrow 13 rfl (encodeN_and_mask _) rfl

/-! ## Encoding a decoded word -/

/-- Two words are one when they agree on the bits that a mask fixes and on those it leaves free. -/
theorem eq_of_and_mask_eq {m x y : Word} (hfixed : x &&& m = y &&& m)
    (hfree : ∀ k, k < 64 → m.getLsbD k = false → x.getLsbD k = y.getLsbD k) : x = y := by
  apply BitVec.eq_of_getLsbD_eq
  intro k hk
  cases hm : m.getLsbD k with
  | false => exact hfree k hk hm
  | true => simpa [BitVec.getLsbD_and, hm] using congrArg (BitVec.getLsbD · k) hfixed

/-- A bit of a field is a bit of the word. -/
theorem getLsbD_of_extractLsb'_eq {x y : Word} {start len k : Nat} (h : x.extractLsb' start len = y.extractLsb' start len)
    (hlo : start ≤ k) (hhi : k < start + len) : x.getLsbD k = y.getLsbD k := by
  have hbit := congrArg (BitVec.getLsbD · (k - start)) h
  simpa [BitVec.getLsbD_extractLsb', show k - start < len by omega, show start + (k - start) = k by omega] using hbit

/-- The bits that format R leaves free are the `I` field (R82). -/
theorem eq_of_fields_R {x y : Word} (h : x &&& Format.mask .R = y &&& Format.mask .R) (hi : fieldI x = fieldI y) :
    x = y := by
  refine eq_of_and_mask_eq h fun k hk hfree => ?_
  have hpos : ∀ k, k < 64 → (Format.mask .R).getLsbD k = false → k = 8 := by decide
  rw [hpos k hk hfree]
  exact hi

/-- The bits that format M leaves free are the `ADDR` field (R83). -/
theorem eq_of_fields_M {x y : Word} (h : x &&& Format.mask .M = y &&& Format.mask .M) (ha : fieldADDR x = fieldADDR y) :
    x = y := by
  refine eq_of_and_mask_eq h fun k hk hfree => ?_
  have hpos : ∀ k, k < 64 → (Format.mask .M).getLsbD k = false → 32 ≤ k ∧ k < 48 := by decide
  obtain ⟨hlo, hhi⟩ := hpos k hk hfree
  exact getLsbD_of_extractLsb'_eq (BitVec.eq_of_toNat_eq ha) hlo hhi

/-- The bits that format P leaves free are the fields `L`, `FB` and `ADDR` (R84). -/
theorem eq_of_fields_P {x y : Word} (h : x &&& Format.mask .P = y &&& Format.mask .P) (ha : fieldADDR x = fieldADDR y)
    (hl : fieldL x = fieldL y) (hf : fieldFB x = fieldFB y) : x = y := by
  refine eq_of_and_mask_eq h fun k hk hfree => ?_
  have hpos : ∀ k, k < 64 → (Format.mask .P).getLsbD k = false →
      (32 ≤ k ∧ k < 48) ∨ (16 ≤ k ∧ k < 19) ∨ (24 ≤ k ∧ k < 32) := by decide
  obtain ⟨hlo, hhi⟩ | ⟨hlo, hhi⟩ | ⟨hlo, hhi⟩ := hpos k hk hfree
  · exact getLsbD_of_extractLsb'_eq (BitVec.eq_of_toNat_eq ha) hlo hhi
  · exact getLsbD_of_extractLsb'_eq (BitVec.eq_of_toNat_eq hl) hlo hhi
  · exact getLsbD_of_extractLsb'_eq hf hlo hhi

/-- The two generator widths have different bits (R87). -/
theorem fieldGW_eq_iff {x y : Word} : fieldGW x = fieldGW y ↔ x.getLsbD 12 = y.getLsbD 12 := by
  unfold fieldGW
  cases x.getLsbD 12 <;> cases y.getLsbD 12 <;> decide

/-- The bits that format G leaves free are the fields `GW` and `P` (R85). -/
theorem eq_of_fields_G {x y : Word} (h : x &&& Format.mask .G = y &&& Format.mask .G) (hg : fieldGW x = fieldGW y)
    (hp : fieldP x = fieldP y) : x = y := by
  refine eq_of_and_mask_eq h fun k hk hfree => ?_
  have hpos : ∀ k, k < 64 → (Format.mask .G).getLsbD k = false → k = 12 ∨ k = 13 := by decide
  obtain rfl | rfl := hpos k hk hfree
  · exact fieldGW_eq_iff.mp hg
  · exact hp

/-- Format N leaves no bit free (R86). -/
theorem eq_of_fields_N {x y : Word} (h : x &&& Format.mask .N = y &&& Format.mask .N) : x = y :=
  eq_of_and_mask_eq h fun k hk hfree =>
    absurd hfree (by rw [show Format.mask .N = BitVec.allOnes 64 from rfl, BitVec.getLsbD_allOnes]; simp [hk])

theorem fieldADDR_lt (v : Word) : fieldADDR v < 65536 := (v.extractLsb' 32 16).isLt

theorem fieldL_lt (v : Word) : fieldL v < 8 := (v.extractLsb' 16 3).isLt

/-- A row of the table gives a well-formed command, and the words that agree with the row are the words of its commands. -/
theorem encode_build {r : Row} (hr : r ∈ opcodeTable) {v : Word} (h : v &&& r.format.mask = r.fixed) :
    (r.build v).wf = true ∧ encode (r.build v) = v := by
  have haddr : addrFits (fieldADDR v) = true := decide_eq_true (fieldADDR_lt v)
  have hlen : lenFits (fieldL v) = true := decide_eq_true (fieldL_lt v)
  simp only [opcodeTable, List.mem_cons, List.not_mem_nil, or_false] at hr
  obtain rfl | rfl | rfl | rfl | rfl | rfl | rfl | rfl | rfl | rfl | rfl | rfl | rfl | rfl := hr
  iterate 8 exact ⟨rfl, eq_of_fields_R ((encodeR_and_mask _ _).trans h.symm) (fieldI_encodeR _ _)⟩
  iterate 2 exact ⟨haddr, eq_of_fields_M ((encodeM_and_mask _ _).trans h.symm) (fieldADDR_encodeM _ _ (fieldADDR_lt v))⟩
  · exact ⟨by simp only [Instr.wf, haddr, hlen, Bool.and_self], eq_of_fields_P ((encodeP_and_mask _ _ _ _).trans h.symm)
      (fieldADDR_encodeP _ _ _ _ (fieldADDR_lt v)) (fieldL_encodeP _ _ _ _ (fieldL_lt v)) (fieldFB_encodeP _ _ _ _)⟩
  · exact ⟨rfl, eq_of_fields_G ((encodeG_and_mask _ _ _).trans h.symm) (fieldGW_encodeG _ _ _) (fieldP_encodeG _ _ _)⟩
  iterate 2 exact ⟨rfl, eq_of_fields_N ((encodeN_and_mask _).trans h.symm)⟩

/-- A word that decodes is the word of a well-formed command (R93). -/
theorem encode_of_decode {v : Word} {i : Instr} (h : decode v = .ok i) : i.wf = true ∧ encode i = v := by
  obtain ⟨r, hr, hbits, rfl⟩ := decode_eq_ok_iff.mp h
  exact encode_build hr hbits

end Sys2Proof

namespace Sys2Proof.Machine

/-! ## The lines of the assembler -/

/-- The transactions write nothing to `CMD` but words of well-formed commands. -/
def IssuesLegally (ts : List Transaction) : Prop :=
  ∀ v, .regWr cmdIndex v ∈ ts → ∃ i : Instr, i.wf = true ∧ v = encode i

/-- A command line issues its own word. -/
theorem issuesLegally_cons_issueLine {i : Instr} {ts : List Transaction} (hi : i.wf = true) (hts : IssuesLegally ts) :
    IssuesLegally (issueLine i :: ts) := fun v hv => by
  obtain hv | hv := List.mem_cons.mp hv
  · cases hv
    exact ⟨i, hi, rfl⟩
  · exact hts v hv

theorem issuesLegally_nil : IssuesLegally [] := nofun

/-- Any other transaction issues nothing. -/
theorem issuesLegally_cons_other {x : Transaction} {ts : List Transaction} (hx : x.issuesCommand = false)
    (hts : IssuesLegally ts) : IssuesLegally (x :: ts) := fun v hv => by
  obtain rfl | hv := List.mem_cons.mp hv
  · cases hx
  · exact hts v hv

/-- An address that is accepted fits (R95). -/
theorem fitAddr_eq_some {n a : Nat} (h : fitAddr n = some a) : addrFits a = true := by
  unfold fitAddr at h
  split at h <;> cases h
  exact decide_eq_true (by assumption)

/-- A length that is accepted fits (R95). -/
theorem fitLen_eq_some {n l : Nat} (h : fitLen n = some l) : lenFits l = true := by
  unfold fitLen at h
  split at h <;> cases h
  exact decide_eq_true (by assumption)

theorem rndaOfWidth_wf {w : Nat} {inj : Bool} {i : Instr} (h : rndaOfWidth w inj = some i) : i.wf = true := by
  unfold rndaOfWidth at h
  split at h <;> cases h <;> rfl

theorem rndbOfWidth_wf {w : Nat} {inj : Bool} {i : Instr} (h : rndbOfWidth w inj = some i) : i.wf = true := by
  unfold rndbOfWidth at h
  split at h <;> cases h <;> rfl

theorem ginitOfWidth_wf {w : Nat} {p : Bool} {i : Instr} (h : ginitOfWidth w p = some i) : i.wf = true := by
  unfold ginitOfWidth at h
  split at h <;> cases h <;> rfl

theorem asmLdp64_wf {a l fb : Nat} {i : Instr} (h : asmLdp64 a l fb = some i) : i.wf = true := by
  simp only [asmLdp64, Option.bind_eq_bind, Option.bind_eq_some_iff, Option.some.injEq] at h
  obtain ⟨a', ha, l', hl, b, -, rfl⟩ := h
  simp only [Instr.wf, fitAddr_eq_some ha, fitLen_eq_some hl, Bool.and_self]

/-- `mwrs` writes bytes of memory only (R97). -/
theorem expandBytes_issuesLegally : ∀ {bs : List Nat} {a : Nat} {ts : List Transaction},
    expandBytes a bs = some ts → IssuesLegally ts
  | [], _, _, h => by
    cases h
    exact issuesLegally_nil
  | b :: bs, a, ts, h => by
    simp only [expandBytes, Option.bind_eq_bind, Option.bind_eq_some_iff, Option.some.injEq] at h
    obtain ⟨a', -, v, -, ts', hts', rfl⟩ := h
    exact issuesLegally_cons_other rfl (expandBytes_issuesLegally hts')

/-- A line other than `wr` issues nothing but words of well-formed commands (R95 to R97). -/
theorem AsmLine.expand_issuesLegally {line : AsmLine} {ts : List Transaction} (hwr : ∀ r x, line ≠ .wr r x)
    (h : line.expand = some ts) : IssuesLegally ts := by
  cases line <;> simp only [AsmLine.expand, Option.bind_eq_bind, Option.bind_eq_some_iff, Option.some.injEq] at h
  case rnda =>
    obtain ⟨i, hi, rfl⟩ := h
    exact issuesLegally_cons_issueLine (rndaOfWidth_wf hi) issuesLegally_nil
  case rndb =>
    obtain ⟨i, hi, rfl⟩ := h
    exact issuesLegally_cons_issueLine (rndbOfWidth_wf hi) issuesLegally_nil
  case ldw32 | ldw64 =>
    obtain ⟨a, ha, rfl⟩ := h
    exact issuesLegally_cons_issueLine (fitAddr_eq_some ha) issuesLegally_nil
  case ldp64 =>
    obtain ⟨i, hi, rfl⟩ := h
    exact issuesLegally_cons_issueLine (asmLdp64_wf hi) issuesLegally_nil
  case ginit =>
    obtain ⟨i, hi, rfl⟩ := h
    exact issuesLegally_cons_issueLine (ginitOfWidth_wf hi) issuesLegally_nil
  case gnext | gfinal =>
    subst h
    exact issuesLegally_cons_issueLine rfl issuesLegally_nil
  case wr r x => exact absurd rfl (hwr r x)
  case rd | mrd | inject =>
    obtain ⟨a, -, rfl⟩ := h
    exact issuesLegally_cons_other rfl issuesLegally_nil
  case mwr =>
    obtain ⟨a, -, b, -, rfl⟩ := h
    exact issuesLegally_cons_other rfl issuesLegally_nil
  case hash64 | hash32 =>
    obtain ⟨a, ha, rfl⟩ := h
    exact issuesLegally_cons_issueLine (fitAddr_eq_some ha) (issuesLegally_cons_issueLine rfl issuesLegally_nil)
  case hashtail64 =>
    obtain ⟨i, hi, rfl⟩ := h
    exact issuesLegally_cons_issueLine (asmLdp64_wf hi) (issuesLegally_cons_issueLine rfl issuesLegally_nil)
  case mwrs => exact expandBytes_issuesLegally h
  case settriple =>
    obtain ⟨s, -, l, -, h, -, rfl⟩ := h
    exact issuesLegally_cons_other rfl (issuesLegally_cons_other rfl (issuesLegally_cons_other rfl issuesLegally_nil))
  case clrerr =>
    subst h
    exact issuesLegally_cons_other rfl issuesLegally_nil

/-! ## The pseudo-instructions -/

/-- An operand that fits its field is accepted (R95). -/
theorem fitField_of_lt {w n : Nat} (h : n < 2 ^ w) : fitField w n = some (BitVec.ofNat w n) := if_pos h

/-- The value of a word fits the word's field. -/
theorem fitField_toNat {w : Nat} (x : BitVec w) : fitField w x.toNat = some x := by
  rw [fitField_of_lt x.isLt, BitVec.ofNat_toNat, BitVec.setWidth_eq]

theorem fitAddr_of_lt {n : Nat} (h : n < 65536) : fitAddr n = some n := if_pos h

theorem fitLen_of_le {n : Nat} (h : n ≤ 7) : fitLen n = some n := if_pos (by omega)

/-- `mwrs` of bytes that end within the address space: one byte write each, at rising addresses (R97). -/
theorem expandBytes_toNat : ∀ (bs : List Byte) (a : Nat), a + bs.length ≤ 65536 →
    ∃ ts, expandBytes a (bs.map BitVec.toNat) = some ts ∧ ts.length = bs.length ∧
      ∀ k b, bs[k]? = some b → ts[k]? = some (Transaction.memWr (BitVec.ofNat 16 (a + k)) b)
  | [], _, _ => ⟨[], rfl, rfl, nofun⟩
  | b :: bs, a, h => by
    rw [List.length_cons] at h
    obtain ⟨ts, hts, hlen, hget⟩ := expandBytes_toNat bs (a + 1) (by omega)
    refine ⟨.memWr (BitVec.ofNat 16 a) b :: ts, ?_, by simp [hlen], fun k c hk => ?_⟩
    · have ha : fitField 16 a = some (BitVec.ofNat 16 a) := fitField_of_lt (show a < 65536 by omega)
      simp [expandBytes, ha, fitField_toNat, hts]
    · cases k with
      | zero =>
        cases hk
        rfl
      | succ k =>
        rw [List.getElem?_cons_succ, hget k c hk, show a + 1 + k = a + (k + 1) by omega]

/-! ## The obligations -/

/-- Settles O1: each command's word agrees with its row, and the row's fields are the operands. -/
theorem decodeOfEncodeIsTheCommand : Obligations.DecodeOfEncodeIsTheCommand := by
  unfold Obligations.DecodeOfEncodeIsTheCommand
  exact fun _ hi => decode_encode hi

/-- Settles O2: the word and the command's word agree on the fixed bits by the row, on the others by the fields. -/
theorem encodeOfDecodeIsTheWord : Obligations.EncodeOfDecodeIsTheWord := by
  unfold Obligations.EncodeOfDecodeIsTheWord
  exact fun _ _ h => encode_of_decode h

/-- Settles O3: the pairs of mask and match are the rows of the table. -/
theorem decodeAcceptsExactlyTheTableRows : Obligations.DecodeAcceptsExactlyTheTableRows := by
  unfold Obligations.DecodeAcceptsExactlyTheTableRows
  intro v
  change _ ↔ ∃ p ∈ opcodeTable.map (fun r => (r.format.mask, r.fixed)), v &&& p.1 = p.2
  constructor
  · rintro ⟨i, hi⟩
    obtain ⟨r, hr, hbits, -⟩ := decode_eq_ok_iff.mp hi
    exact ⟨_, List.mem_map_of_mem hr, hbits⟩
  · rintro ⟨p, hp, hbits⟩
    obtain ⟨r, hr, rfl⟩ := List.mem_map.mp hp
    exact ⟨_, decode_row hr hbits⟩

/-- Settles O4: the worked words are the words of these commands. -/
theorem workedWordsDecode : Obligations.WorkedWordsDecode := by
  unfold Obligations.WorkedWordsDecode
  exact ⟨decode_encode (i := .rnda64 true) rfl, decode_encode (i := .ldw64 0x10) rfl,
    decode_encode (i := .ldp64 8 4 0x01#8) rfl, decode_encode (i := .ginit .w64 true) rfl⟩

/-- Settles O5: what a line writes to `CMD` is the word of a command whose operands have passed the checks. -/
theorem assembledLinesIssueLegalCommands : Obligations.AssembledLinesIssueLegalCommands := by
  unfold Obligations.AssembledLinesIssueLegalCommands
  intro line ts v hwr hexpand hv
  obtain ⟨i, hi, rfl⟩ := line.expand_issuesLegally hwr hexpand v hv
  exact ⟨i, hi, rfl, decode_encode hi⟩

/-- Settles O6: operands in range pass the checks of their fields. -/
theorem pseudoInstructionsExpand : Obligations.PseudoInstructionsExpand := by
  unfold Obligations.PseudoInstructionsExpand
  refine ⟨fun a ha => ?_, fun a l fb ha hl hfb => ?_, expandBytes_toNat, fun s l h => ?_, rfl, fun v => ?_⟩
  · simp [AsmLine.expand, fitAddr_of_lt ha, issueLine, cmdIndex]
  · have hfield : fitField 8 fb = some (BitVec.ofNat 8 fb) := fitField_of_lt (show fb < 256 by omega)
    simp [AsmLine.expand, asmLdp64, fitAddr_of_lt ha, fitLen_of_le hl, hfield, issueLine, cmdIndex]
  · simp [AsmLine.expand, fitField_toNat]
  · simp [AsmLine.expand, fitField_toNat]

end Sys2Proof.Machine
end


section
/-! CERTIFICATE. The statements about the reads of message memory of 20_memory and 41_loader: what a host byte read returns,
and the word that a loader makes of its bytes. -/

namespace Sys2Proof.Machine

/-! ## The bytes of a word -/

/-- A concatenation as a number: the high part counts `2 ^ n` times. -/
theorem toNat_append_eq {m n : Nat} (x : BitVec m) (y : BitVec n) : (x ++ y).toNat = x.toNat * 2 ^ n + y.toNat := by
  rw [BitVec.toNat_append, ← Nat.shiftLeft_add_eq_or_of_lt y.isLt, Nat.shiftLeft_eq]

/-- Byte `k` of a word as a number (R10). -/
theorem byteOf_toNat (x : Word) (k : Nat) : (byteOf x k).toNat = x.toNat / 256 ^ k % 256 := by
  rw [byteOf, BitVec.extractLsb'_toNat, Nat.shiftRight_eq_div_pow, Nat.pow_mul]

/-- Each byte of an `or` is the `or` of the bytes. -/
theorem byteOf_or (x y : Word) (k : Nat) : byteOf (x ||| y) k = byteOf x k ||| byteOf y k :=
  BitVec.extractLsb'_or

/-- A little-endian number past the first `k` bytes (R15). -/
theorem littleEndian_div : ∀ (bs : List Byte) (k : Nat), littleEndian bs / 256 ^ k = littleEndian (bs.drop k)
  | bs, 0 => by simp
  | [], k + 1 => by simp [littleEndian]
  | b :: bs, k + 1 => by
    have hb : b.toNat < 256 := b.isLt
    rw [Nat.pow_succ', ← Nat.div_div_eq_div_mul, List.drop_succ_cons, ← littleEndian_div bs k, littleEndian]
    congr 1
    omega

/-- Byte `k` of the word that a loader makes of its bytes: byte `k` of them, and 0 above them (R142, R143). -/
theorem byteOf_loadedWord (bs : List Byte) {k : Nat} (hk : k < 8) : byteOf (loadedWord bs) k = bs[k]?.getD 0 := by
  apply BitVec.eq_of_toNat_eq
  have hsplit : 2 ^ 64 = 256 ^ k * (256 * 256 ^ (7 - k)) := by
    rw [← Nat.pow_succ', ← Nat.pow_add, show k + (7 - k + 1) = 8 by omega]
    rfl
  rw [byteOf_toNat, loadedWord, BitVec.toNat_ofNat, hsplit, Nat.mod_mul_right_div_self, Nat.mod_mul_right_mod,
    littleEndian_div]
  cases hd : bs.drop k with
  | nil =>
    rw [List.getElem?_eq_none (List.drop_eq_nil_iff.mp hd)]
    rfl
  | cons b rest =>
    have hb : b.toNat < 256 := b.isLt
    have hget : bs[k]? = some b := by
      rw [← List.head?_drop, hd]
      rfl
    rw [hget, littleEndian, Option.getD_some]
    omega

/-- A byte shifted to place `n` of a word stands there alone (R144). -/
theorem byteOf_shifted_byte (fb : Byte) (n : Nat) {k : Nat} (hk : k < 8) :
    byteOf (zext64 fb <<< (8 * n)) k = if k = n then fb else 0 := by
  apply BitVec.eq_of_getLsbD_eq
  intro j hj
  have hbit : (byteOf (zext64 fb <<< (8 * n)) k).getLsbD j =
      (!decide (8 * k + j < 8 * n) && fb.getLsbD (8 * k + j - 8 * n)) := by
    simp only [byteOf, zext64, BitVec.getLsbD_extractLsb', BitVec.getLsbD_shiftLeft, BitVec.getLsbD_setWidth]
    simp only [hj, show 8 * k + j < 64 by omega, show 8 * k + j - 8 * n < 64 by omega, decide_true, Bool.true_and]
  rw [hbit]
  obtain hlt | rfl | hgt := Nat.lt_trichotomy k n
  · simp [hlt.ne, show 8 * k + j < 8 * n by omega]
  · simp
  · rw [BitVec.getLsbD_of_ge fb _ (by omega), if_neg hgt.ne']
    simp

/-- Byte `k` of a padded word: the byte read below `n`, the final byte at `n`, and 0 above it (R144). -/
theorem byteOf_paddedWord {bs : List Byte} {n : Nat} (hn : bs.length = n) (fb : Byte) {k : Nat} (hk : k < 8) :
    byteOf (paddedWord bs n fb) k = if k < n then bs[k]?.getD 0 else if k = n then fb else 0 := by
  rw [paddedWord, byteOf_or, byteOf_loadedWord bs hk, byteOf_shifted_byte fb n hk]
  by_cases hlt : k < n
  · rw [if_pos hlt, if_neg hlt.ne]
    exact BitVec.or_zero
  · rw [if_neg hlt, List.getElem?_eq_none (by omega), Option.getD_none]
    exact BitVec.zero_or

/-! ## The loaders -/

/-- The word that a loader makes of the bytes it reads (R142 to R144). -/
def loaderWord : Instr → List Byte → Word
  | .ldp64 _ len fb, bs => paddedWord bs len fb
  | _, bs => loadedWord bs

/-- A loader is the common rule over its range, with `loaderWord` (R141). -/
theorem exec_loaderWord {i : Instr} {a n : Nat} (h : loaderRange i = some (a, n)) (s : State) :
    exec i s = .next (loaderCommand a n (loaderWord i) s) := by
  cases i <;> simp only [loaderRange, reduceCtorEq, Option.some.injEq, Prod.mk.injEq] at h
  case ldw32 | ldw64 | ldp64 =>
    obtain ⟨rfl, rfl⟩ := h
    rfl

/-- Every byte that a loader reads stands at its place in `MSG`. -/
theorem byteOf_loaderWord {i : Instr} {a n : Nat} (h : loaderRange i = some (a, n)) {bs : List Byte} (hbs : bs.length = n)
    {k : Nat} (hk : k < n) (h8 : k < 8) : byteOf (loaderWord i bs) k = bs[k]?.getD 0 := by
  cases i <;> simp only [loaderRange, reduceCtorEq, Option.some.injEq, Prod.mk.injEq] at h
  case ldw32 | ldw64 => exact byteOf_loadedWord bs h8
  case ldp64 addr len fb =>
    obtain ⟨-, rfl⟩ := h
    rw [loaderWord, byteOf_paddedWord hbs fb h8, if_pos hk]

/-- The range of a well-formed loader has at most eight bytes (R87). -/
theorem loaderRange_le {i : Instr} {a n : Nat} (hi : i.wf = true) (h : loaderRange i = some (a, n)) : n ≤ 8 := by
  cases i <;> simp only [loaderRange, reduceCtorEq, Option.some.injEq, Prod.mk.injEq] at h
  case ldw32 | ldw64 => omega
  case ldp64 addr len fb =>
    have hlen : addr < 65536 ∧ len < 8 := by simpa [Instr.wf, addrFits, lenFits] using hi
    omega

/-- What a loader in bounds leaves (R141). -/
theorem loaderCommand_inside {a n : Nat} {s : State} (h : a + n ≤ s.params.msgBytes) (word : List Byte → Word) :
    loaderCommand a n word s =
      { s with msg := word (s.messageBytes a n), err := .ok, pending := none, faults := (s.recordRead a n).faults } := by
  obtain ⟨hout, -⟩ | ⟨-, he⟩ := loaderCommand_cases a n word s
  · exact absurd hout (Nat.not_lt.mpr h)
  · exact he

/-- The same loader again finds the same bytes and records nothing new (R71). -/
theorem loaderCommand_again {a n : Nat} {s : State} (h : a + n ≤ s.params.msgBytes) (word : List Byte → Word) :
    loaderCommand a n word (loaderCommand a n word s) = loaderCommand a n word s := by
  have he := loaderCommand_inside h word
  have hin : a + n ≤ (loaderCommand a n word s).params.msgBytes := by rwa [loaderCommand_params]
  have hbytes : (loaderCommand a n word s).messageBytes a n = s.messageBytes a n :=
    State.messageBytes_congr (by rw [he]) (by rw [he]) a n
  have hfaults : ((loaderCommand a n word s).recordRead a n).faults = (s.recordRead a n).faults := by
    have hidem : ((s.recordRead a n).recordRead a n).faults = (s.recordRead a n).faults := by rw [s.recordRead_idem]
    rw [he]
    exact hidem
  rw [loaderCommand_inside hin, hbytes, hfaults, he]

/-- A loader in bounds over written bytes changes nothing but `MSG` and `STATUS.ERR` (R141). -/
theorem exec_loader_written {i : Instr} {a n : Nat} {s : State} (hi : loaderRange i = some (a, n))
    (hin : a + n ≤ s.params.msgBytes) (hw : ∀ k, k < n → s.mem.read (a + k) ≠ none) :
    exec i s = .next { s with msg := loaderWord i (s.messageBytes a n), err := .ok, pending := none } := by
  rw [exec_loaderWord hi, loaderCommand_inside hin, s.recordRead_written a n hw]

/-- The bytes read over a written range are the bytes written. -/
theorem State.messageBytes_written {s : State} : ∀ {bs : List Byte} {a : Nat},
    (∀ k b, bs[k]? = some b → s.mem.read (a + k) = some b) → s.messageBytes a bs.length = bs
  | [], _, _ => rfl
  | b :: bs, a, h => by
    have hhead : s.messageByte a = b := State.messageByte_written (h 0 b rfl)
    have htail : s.messageBytes (a + 1) bs.length = bs := State.messageBytes_written fun k c hk => by
      rw [show a + 1 + k = a + (k + 1) by omega]
      exact h (k + 1) c hk
    rw [List.length_cons, State.messageBytes, hhead, htail]

/-- A loader whose range holds `bs`, all written (R141). -/
theorem exec_loader_of_bytes {i : Instr} {a : Nat} {s : State} {bs : List Byte} (hi : loaderRange i = some (a, bs.length))
    (hin : a + bs.length ≤ s.params.msgBytes) (hbs : ∀ k b, bs[k]? = some b → s.mem.read (a + k) = some b) :
    exec i s = .next { s with msg := loaderWord i bs, err := .ok, pending := none } := by
  have hw : ∀ k, k < bs.length → s.mem.read (a + k) ≠ none := fun k hk => by
    rw [hbs k bs[k] (List.getElem?_eq_getElem hk)]
    exact Option.some_ne_none _
  rw [exec_loader_written hi hin hw, State.messageBytes_written hbs]

/-- The memory holds the bytes `bs` from the address `a` up, all of them written. -/
def Memory.holds (m : Memory) : Nat → List Byte → Prop
  | _, [] => True
  | a, b :: bs => m.read a = some b ∧ m.holds (a + 1) bs

/-- A memory holds bytes exactly when each reads as written at its place. -/
theorem Memory.holds_iff {m : Memory} : ∀ {bs : List Byte} {a : Nat},
    m.holds a bs ↔ ∀ k b, bs[k]? = some b → m.read (a + k) = some b
  | [], _ => ⟨fun _ => nofun, fun _ => trivial⟩
  | b :: bs, a => by
    rw [Memory.holds, Memory.holds_iff]
    constructor
    · rintro ⟨hb, hbs⟩ (_ | k) c hk
      · cases hk
        exact hb
      · rw [show a + (k + 1) = a + 1 + k by omega]
        exact hbs k c hk
    · refine fun h => ⟨h 0 b rfl, fun k c hk => ?_⟩
      rw [show a + 1 + k = a + (k + 1) by omega]
      exact h (k + 1) c hk

/-- The little-endian word of four bytes (R142). -/
theorem loadedWord_four (b0 b1 b2 b3 : Byte) :
    loadedWord [b0, b1, b2, b3] = (b3 ++ b2 ++ b1 ++ b0 : BitVec (8 + 8 + 8 + 8)).setWidth 64 := by
  apply BitVec.eq_of_toNat_eq
  have h0 := b0.isLt
  have h1 := b1.isLt
  have h2 := b2.isLt
  have h3 := b3.isLt
  simp only [loadedWord, littleEndian, BitVec.toNat_ofNat, BitVec.toNat_setWidth, toNat_append_eq]
  omega

/-- The little-endian word of eight bytes (R143). -/
theorem loadedWord_eight (b0 b1 b2 b3 b4 b5 b6 b7 : Byte) :
    loadedWord [b0, b1, b2, b3, b4, b5, b6, b7] = b7 ++ b6 ++ b5 ++ b4 ++ b3 ++ b2 ++ b1 ++ b0 := by
  apply BitVec.eq_of_toNat_eq
  rw [loadedWord, BitVec.toNat_ofNat]
  have hword := (b7 ++ b6 ++ b5 ++ b4 ++ b3 ++ b2 ++ b1 ++ b0).isLt
  simp only [toNat_append_eq] at hword ⊢
  simp only [littleEndian]
  omega

/-! ## Reads by the host -/

/-- A read of a written byte returns it and records nothing (R197). -/
theorem State.memRead_written {a : BitVec 16} {b : Byte} {s : State} (hin : a.toNat < s.params.msgBytes)
    (hb : s.mem.read a.toNat = some b) : s.memRead a = s.respond (.byte b) := by
  have hrecord : s.recordRead a.toNat 1 = s := s.recordRead_written _ _ fun k hk => by
    obtain rfl : k = 0 := by omega
    rw [Nat.add_zero, hb]
    exact Option.some_ne_none b
  obtain ⟨-, he⟩ | ⟨hout, -⟩ := s.memRead_cases a
  · rw [he, hrecord, State.messageByte_written hb]
  · exact absurd hin (Nat.not_lt.mpr hout)

/-- A read of an unwritten byte records the fault and returns the free byte of the address (R62, R197). -/
theorem State.memRead_unwritten {a : BitVec 16} {s : State} (hin : a.toNat < s.params.msgBytes)
    (hb : s.mem.read a.toNat = none) :
    s.memRead a = { s with
      hostOut := s.hostOut ++ [.byte (s.messageByte a.toNat)], faults := addFault (.unwrittenRead a.toNat) s.faults } := by
  obtain ⟨-, he⟩ | ⟨hout, -⟩ := s.memRead_cases a
  · rw [he]
    simp [State.recordRead, State.respond, Memory.firstUnwritten, hb]
  · exact absurd hin (Nat.not_lt.mpr hout)

/-- A read of an unwritten byte whose fault is recorded records nothing new (R71, R215). -/
theorem State.memRead_recorded {a : BitVec 16} {s : State} (hin : a.toNat < s.params.msgBytes)
    (hb : s.mem.read a.toNat = none) (hf : .unwrittenRead a.toNat ∈ s.faults) :
    s.memRead a = s.respond (.byte (s.messageByte a.toNat)) := by
  rw [State.memRead_unwritten hin hb, addFault, if_pos hf, State.respond]

/-! ## The obligations -/

/-- Settles O19: inside the memory the read is that of a written byte, outside it answers 0. -/
theorem memRdReturnsTheWrittenByteOrZeroOutside : Obligations.MemRdReturnsTheWrittenByteOrZeroOutside := by
  unfold Obligations.MemRdReturnsTheWrittenByteOrZeroOutside
  intro s a rest hp hh he
  rw [step_idle_host hp hh he, acceptTransaction]
  refine ⟨fun b hin hb => ?_, fun hout => ?_⟩
  · rw [State.memRead_written (s := { s with env := rest }) hin hb]
    rfl
  · rw [State.memRead_outside (s := { s with env := rest }) hout]
    rfl

/-- Settles O20: the second read finds the fault recorded and the same free byte. -/
theorem memRdOfUnwrittenByteRecordsTheFault : Obligations.MemRdOfUnwrittenByteRecordsTheFault := by
  unfold Obligations.MemRdOfUnwrittenByteRecordsTheFault
  intro s a rest hp hh he hin hb
  have hread := State.memRead_unwritten (s := { s with env := rest }) hin hb
  have hfaults : ({ s with env := rest }.memRead a).faults = addFault (.unwrittenRead a.toNat) s.faults := by
    rw [hread]
  have hsame := State.memRead_sameEngine a { s with env := rest }
  refine ⟨_, s.messageByte a.toNat, step_idle_host hp hh he, ?_, fun f hf => ?_, ?_, fun rest' hrest => ?_⟩
  · rw [hfaults]
    exact mem_addFault.mpr (.inr rfl)
  · rw [hfaults]
    exact mem_addFault.mpr (.inl hf)
  · rw [hfaults]
    exact hread
  · rw [step_idle_host (hsame.pending.trans hp) (hsame.held.trans hh) (hsame.env.trans hrest), acceptTransaction,
      hread, State.memRead_recorded]
    · rfl
    · exact hin
    · exact hb
    · exact mem_addFault.mpr (.inr rfl)

/-- Settles O22: the four bytes read are the bytes written, and their little-endian word goes into `MSG`. -/
theorem ldw32LoadsFourBytesLittleEndian : Obligations.Ldw32LoadsFourBytesLittleEndian := by
  unfold Obligations.Ldw32LoadsFourBytesLittleEndian
  intro s a b0 b1 b2 b3 hin h0 h1 h2 h3
  have hholds : s.mem.holds a [b0, b1, b2, b3] := ⟨h0, h1, h2, h3, trivial⟩
  rw [exec_loader_of_bytes (i := .ldw32 a) (bs := [b0, b1, b2, b3]) rfl hin (Memory.holds_iff.mp hholds), loaderWord,
    loadedWord_four]
  nofun

/-- Settles O23: likewise with eight bytes. -/
theorem ldw64LoadsEightBytesLittleEndian : Obligations.Ldw64LoadsEightBytesLittleEndian := by
  unfold Obligations.Ldw64LoadsEightBytesLittleEndian
  intro s a b0 b1 b2 b3 b4 b5 b6 b7 hin h0 h1 h2 h3 h4 h5 h6 h7
  have hholds : s.mem.holds a [b0, b1, b2, b3, b4, b5, b6, b7] := ⟨h0, h1, h2, h3, h4, h5, h6, h7, trivial⟩
  rw [exec_loader_of_bytes (i := .ldw64 a) (bs := [b0, b1, b2, b3, b4, b5, b6, b7]) rfl hin
    (Memory.holds_iff.mp hholds), loaderWord, loadedWord_eight]
  nofun

/-- Settles O24: the bytes read are the bytes written, and the padded word has the final byte after them. -/
theorem ldp64PadsAfterTheLastByte : Obligations.Ldp64PadsAfterTheLastByte := by
  unfold Obligations.Ldp64PadsAfterTheLastByte
  intro s a len fb b hlen hin hb
  have hget (k : Nat) (hk : k < len) : (s.messageBytes a len)[k]? = some (b k) := by
    rw [s.messageBytes_get a len k hk, State.messageByte_written (hb k hk)]
  refine ⟨_, exec_loader_written rfl hin fun k hk => by simp [hb k hk], fun k hk => ?_⟩
  rw [loaderWord, byteOf_paddedWord (s.messageBytes_length a len) fb hk]
  split
  · rw [hget k (by assumption)]
    rfl
  · rfl

/-- Settles O25: the loader reads whatever stands in its range, records the first unwritten address, and finds all of that
again when it runs again. -/
theorem loaderOverAnyBytesCompletesAndRecordsUnwrittenReads :
    Obligations.LoaderOverAnyBytesCompletesAndRecordsUnwrittenReads := by
  unfold Obligations.LoaderOverAnyBytesCompletesAndRecordsUnwrittenReads
  intro i a n s hwf hi hin
  have hrun := loaderCommand_inside hin (loaderWord i)
  have hmsg : (loaderCommand a n (loaderWord i) s).msg = loaderWord i (s.messageBytes a n) := by rw [hrun]
  have hfaults : (loaderCommand a n (loaderWord i) s).faults = (s.recordRead a n).faults := by rw [hrun]
  have hlen := s.messageBytes_length a n
  refine ⟨_, exec_loaderWord hi s, ?frame, fun k b hk hb => ?bytes, fun fb hldp => ?padded, fun hldw k hk h8 => ?above,
    fun hw => ?written, fun u hu hnone hbelow f => ?unwritten, ?again⟩
  case frame => rw [hmsg, hfaults, hrun]
  case bytes =>
    have hle := loaderRange_le hwf hi
    rw [hmsg, byteOf_loaderWord hi hlen hk (by omega), s.messageBytes_get a n k hk, State.messageByte_written hb]
    rfl
  case padded =>
    subst hldp
    have hn : n < 8 := by
      have hfits : addrFits a = true ∧ n < 8 := by simpa [Instr.wf, lenFits] using hwf
      exact hfits.2
    rw [hmsg]
    have hbyte (k : Nat) (hk : k < 8) := byteOf_paddedWord hlen fb hk
    refine ⟨?_, fun k hk h8 => ?_⟩
    · exact (hbyte n hn).trans (by simp)
    · exact (hbyte k h8).trans (by rw [if_neg (by omega), if_neg (by omega)]; rfl)
  case above =>
    subst hldw
    cases hi
    rw [hmsg, loaderWord, byteOf_loadedWord _ h8, List.getElem?_eq_none (hlen.le.trans hk)]
    · rfl
    · nofun
  case written =>
    rw [hfaults, s.recordRead_written a n hw]
  case unwritten =>
    rw [hfaults, s.recordRead_faults, Memory.firstUnwritten_some s.mem a n u hu hnone hbelow]
    simp
  case again =>
    rw [exec_loaderWord hi, loaderCommand_again hin]

end Sys2Proof.Machine
end


section
/-! CERTIFICATE. The statements about the mathematics of the rounds of 40_round_core and about their ghosts: the multiplier,
byte reversal, the closed forms, injection, fixed points, and `MIXED`. -/

namespace Sys2Proof.Machine

/-! ## The multiplier -/

/-- `2l + 1` is odd (R113). -/
theorem two_mul_add_one_odd {w : Nat} (hw : 0 < w) (l : BitVec w) : (2 * l + 1).toNat % 2 = 1 := by
  have hval : 2 * l + 1 = BitVec.ofNat w (2 * l.toNat + 1) := by
    rw [BitVec.ofNat_add, BitVec.ofNat_mul, BitVec.ofNat_toNat, BitVec.setWidth_eq]
    rfl
  rw [hval, BitVec.toNat_ofNat, Nat.mod_mod_of_dvd _ (dvd_pow_self 2 hw.ne')]
  omega

/-- Multiplying by an odd word loses nothing: it is coprime to the number of words. -/
theorem mul_odd_injective {w : Nat} {m : BitVec w} (hm : m.toNat % 2 = 1) {x y : BitVec w} (h : x * m = y * m) : x = y := by
  have hcoprime : Nat.gcd (2 ^ w) m.toNat = 1 :=
    Nat.Coprime.pow_left w ((Nat.coprime_two_left).mpr (Nat.odd_iff.mpr hm))
  have hmul : x.toNat * m.toNat ≡ y.toNat * m.toNat [MOD 2 ^ w] := by
    have hnat := congrArg BitVec.toNat h
    rwa [BitVec.toNat_mul, BitVec.toNat_mul] at hnat
  exact BitVec.eq_of_toNat_eq (Nat.ModEq.eq_of_lt_of_lt (hmul.cancel_right_of_coprime hcoprime) x.isLt y.isLt)

/-! ## Byte reversal -/

/-- The bytes of `bswap_64`, the lowest first (R121). -/
theorem byteOf_bswap64 (x : Word) {k : Nat} (hk : k < 8) : byteOf (bswap64 x) k = byteOf x (7 - k) := by
  unfold byteOf bswap64
  obtain rfl | hlow : k = 7 ∨ k < 7 := by omega
  · repeat rw [BitVec.extractLsb'_append_eq_of_le (by omega)]
    exact BitVec.extractLsb'_eq_self
  · interval_cases k
    all_goals
      repeat rw [BitVec.extractLsb'_append_eq_of_le (by omega)]
      exact BitVec.extractLsb'_append_eq_right

/-! ## Zero and all ones -/

/-- Adding all ones, the complement of 0, subtracts 1. -/
theorem add_allOnes {w : Nat} (l : BitVec w) : l + BitVec.allOnes w = l - 1#w := by
  rw [← BitVec.neg_one_eq_allOnes, BitVec.sub_eq_add_neg]

theorem rotHalf_zero {w : Nat} : rotHalf (0#w) = 0#w := by simp [rotHalf]

/-- Rotating all ones gives all ones. -/
theorem rotHalf_allOnes (w : Width) : rotHalf (BitVec.allOnes w.bits) = BitVec.allOnes w.bits := by cases w <;> rfl

theorem bswap2_zero (p : Bswap2) : bswap2 p 0 = 0 := by cases p <;> rfl

theorem bswap2_allOnes (p : Bswap2) : bswap2 p (BitVec.allOnes 2) = BitVec.allOnes 2 := by cases p <;> rfl

theorem bswap64_zero : bswap64 0 = 0 := rfl

theorem bswap64_allOnes : bswap64 (BitVec.allOnes 64) = BitVec.allOnes 64 := rfl

/-- Variant A of a zero seed (R129). -/
theorem roundA_zero {w : Nat} (l h : BitVec w) : roundA 0 l h = ⟨h ^^^ l, l - 1, h, l - 1⟩ := by
  simp [roundA, rotHalf_zero, add_allOnes]

/-- Variant B where the seed after its exclusive or is 0, over a byte reversal that keeps 0 (R130). -/
theorem roundB_zero {w : Nat} {bswap : BitVec w → BitVec w} (hb : bswap 0#w = 0#w) {s l h : BitVec w}
    (hz : s ^^^ h ^^^ l = 0) :
    roundB bswap s l h = ⟨0, l - 1, h, l - 1⟩ := by
  simp [roundB, hz, hb, add_allOnes]

/-! ## Fixed points -/

/-- A round that keeps `lcg` has the product all ones, and then changes `hash`, if its turning of the product keeps all ones
(R131). -/
theorem no_fixed_lcg_and_hash {w : Nat} (hw : 0 < w) {turn : BitVec w → BitVec w}
    (hturn : turn (BitVec.allOnes w) = BitVec.allOnes w) {mx l h : BitVec w} (hl : l + ~~~mx = l) (hh : h + turn mx = h) :
    False := by
  have hnot : ~~~mx = 0#w := BitVec.add_right_eq_self.mp hl
  have hones : mx = BitVec.allOnes w := by rw [← BitVec.not_not (b := mx), hnot, BitVec.not_zero]
  rw [hones, hturn] at hh
  have hzero : BitVec.allOnes w = 0 := BitVec.add_right_eq_self.mp hh
  have hbit := congrArg (BitVec.getLsbD · 0) hzero
  simp [hw] at hbit

/-! ## The ghosts -/

/-- What a round command leaves in the ghosts (R42). -/
theorem exec_round_ghosts {i : Instr} {v : Variant} {w : Width} {inj : Bool} {s t : State}
    (hi : roundOf i = some (v, w, inj)) (h : exec i s = .next t) :
    t.mixed = mixedAfter v w s ∧ t.lineage = some (v, w) := by
  obtain ⟨f, hf⟩ := exec_round hi
  cases (hf s).symm.trans h
  exact ⟨mixed_or_otherLineage_eq_mixedAfter v w s, rfl⟩

/-- A round after a round (R42). -/
theorem mixedAfter_of_lineage {s : State} {p : Variant × Width} {v : Variant} {w : Width} (hs : s.lineage = some p) :
    mixedAfter v w s = true ↔ s.mixed = true ∨ p ≠ (v, w) := by
  rw [mixedAfter, hs]
  by_cases hp : p = (v, w) <;> simp [hp]

/-- A round whose registers the host has written starts afresh (R42). -/
theorem mixedAfter_of_fresh {s : State} {v : Variant} {w : Width} (hs : s.lineage = none) :
    mixedAfter v w s = s.mixed := by
  rw [mixedAfter, hs]

/-- A register write never touches `MIXED` (R42). -/
theorem State.writeReg_mixed (i : BitVec 8) (x : Word) (s : State) : (s.writeReg i x).mixed = s.mixed := by
  unfold State.writeReg
  split
  case h_1 => split <;> rfl
  all_goals rfl

/-- A write to `SEED` or `LCG`, and to no other register, clears `Lineage` (R42). -/
theorem State.writeReg_lineage (i : BitVec 8) (x : Word) (s : State) :
    (s.writeReg i x).lineage = if i = 3#8 ∨ i = 4#8 then none else s.lineage := by
  by_cases h : i = 3#8 ∨ i = 4#8
  · rw [if_pos h]
    obtain rfl | rfl := h <;> rfl
  · rw [if_neg h]
    push Not at h
    unfold State.writeReg
    split
    case h_1 => split <;> rfl
    case h_2 hi => exact absurd (BitVec.eq_of_toNat_eq hi) h.1
    case h_3 hi => exact absurd (BitVec.eq_of_toNat_eq hi) h.2
    all_goals rfl

/-! ## Injection -/

/-- Injecting is writing `LCG xor MSG` to `LCG` first (R111). -/
theorem injectedLcg_eq_writeReg (w : Nat) (s : State) :
    injectedLcg w true s = injectedLcg w false (s.writeReg 4#8 (s.lcg ^^^ s.msg)) := rfl

/-- The commit of a round overwrites `LCG`, so that it sees a write to `LCG` in the ghosts only. -/
theorem State.commitRound_writeReg (v : Variant) (w : Width) (r : RoundResult w.bits) (x : Word) (s : State) :
    (s.commitRound v w r).withGhosts none false = ((s.writeReg 4#8 x).commitRound v w r).withGhosts none false := rfl

/-! ## The obligations -/

/-- Settles O29: byte by byte at 64 bits, value by value at 2. -/
theorem byteReversalReversesTheBytes : Obligations.ByteReversalReversesTheBytes := by
  unfold Obligations.ByteReversalReversesTheBytes
  exact ⟨fun x k hk => byteOf_bswap64 x hk, by decide⟩

/-- Settles O31: both commands run the same round and commit it over states that differ in `LCG` and the ghosts. -/
theorem injectionEqualsAHostXorOfLcg : Obligations.InjectionEqualsAHostXorOfLcg := by
  unfold Obligations.InjectionEqualsAHostXorOfLcg
  refine fun w s => ⟨?_, ?_, ?_⟩
  · rw [exec_rndaInstr, exec_rndaInstr, roundCommandA_eq, roundCommandA_eq, injectedLcg_eq_writeReg]
    exact congrArg Host.Outcome.next (State.commitRound_writeReg _ _ _ _ _)
  all_goals
    simp only [exec_rndb2, exec_rndb64, roundCommandB_eq, injectedLcg_eq_writeReg]
    exact congrArg Host.Outcome.next (State.commitRound_writeReg _ _ _ _ _)

/-- Settles O32: `l - ~l` is `2l + 1`, and odd words are units. -/
theorem multiplierIsOddAndMultiplyingByItIsInjective : Obligations.MultiplierIsOddAndMultiplyingByItIsInjective := by
  unfold Obligations.MultiplierIsOddAndMultiplyingByItIsInjective
  intro w l
  rw [multiplier_eq]
  refine ⟨rfl, fun hw => ?_, fun x y h => ?_⟩
  · rw [BitVec.getLsbD, Nat.testBit_zero]
    exact decide_eq_true (two_mul_add_one_odd hw l)
  · obtain rfl | hw := Nat.eq_zero_or_pos w
    · exact Subsingleton.elim x y
    · exact mul_odd_injective (two_mul_add_one_odd hw l) h

/-- Settles O33: the product is 0. -/
theorem variantAOfZeroSeed : Obligations.VariantAOfZeroSeed := by
  unfold Obligations.VariantAOfZeroSeed
  exact fun _ l h => roundA_zero l h

/-- Settles O34: the new seed is 0, and every byte reversal keeps it. -/
theorem variantBOfZeroXor : Obligations.VariantBOfZeroXor := by
  unfold Obligations.VariantBOfZeroXor
  exact ⟨fun p _ _ _ h => roundB_zero (bswap2_zero p) h, fun _ _ _ h => roundB_zero bswap64_zero h⟩

/-- Settles O35: a kept `lcg` and a kept `hash` exclude each other, whatever the seed. -/
theorem noRoundHasAFixedPoint : Obligations.NoRoundHasAFixedPoint := by
  unfold Obligations.NoRoundHasAFixedPoint
  refine ⟨fun w s l h ⟨_, hl, hh⟩ => ?_, fun p s l h ⟨_, hl, hh⟩ => ?_, fun s l h ⟨_, hl, hh⟩ => ?_⟩
  · exact no_fixed_lcg_and_hash (by cases w <;> decide) (rotHalf_allOnes w) hl hh
  · exact no_fixed_lcg_and_hash (by decide) (bswap2_allOnes p) hl hh
  · exact no_fixed_lcg_and_hash (by decide) bswap64_allOnes hl hh

/-- Settles O36: the first round leaves its mark, the second one compares it with its own, and only a write to `SEED` or
`LCG` takes it away. -/
theorem mixedRecordsAChangeOfVariantOrWidth : Obligations.MixedRecordsAChangeOfVariantOrWidth := by
  unfold Obligations.MixedRecordsAChangeOfVariantOrWidth
  intro i j v v' w w' inj inj' s t hi hj ht
  obtain ⟨-, hlineage⟩ := exec_round_ghosts hi ht
  refine ⟨fun u hu => ?_, fun r x u hu => ⟨fun hr => ?_, fun hr => ?_⟩⟩
  · rw [(exec_round_ghosts hj hu).1, mixedAfter_of_lineage hlineage]
  · have hfresh : (t.writeReg r x).lineage = none := by rw [State.writeReg_lineage, if_pos hr]
    rw [(exec_round_ghosts hj hu).1, mixedAfter_of_fresh hfresh, State.writeReg_mixed]
  · have hkept : (t.writeReg r x).lineage = some (v, w) := by rw [State.writeReg_lineage, if_neg hr, hlineage]
    rw [(exec_round_ghosts hj hu).1, mixedAfter_of_lineage hkept, State.writeReg_mixed]

end Sys2Proof.Machine
end


section
/-! CERTIFICATE. The statements about the generator of 42_generator: what `GINIT`, `GNEXT` and `GFINAL` compute, answer by
answer, and how they wait. -/

namespace Sys2Proof.Machine

/-! ## The generator's rounds in the form of the statements -/

/-- A value below `2 ^ 32` survives the way through 32 bits. -/
theorem setWidth_32_64 {x : Word} (h : x.toNat < 2 ^ 32) : (x.setWidth 32).setWidth 64 = x := by
  apply BitVec.eq_of_toNat_eq
  rw [BitVec.toNat_setWidth, BitVec.toNat_setWidth, Nat.mod_eq_of_lt h, Nat.mod_eq_of_lt x.isLt]

/-- A prewarm round at 32 bits (R166, R170). -/
theorem Gen.prewarmRound_w32 (b : Byte) {g : Gen} (hg : g.gw = .w32) :
    g.prewarmRound b =
      let r := variantA (g.seed.setWidth 32) (g.lcg.setWidth 32 ^^^ b.setWidth 32) (g.hash.setWidth 32)
      { g with seed := r.seed.setWidth 64, lcg := r.lcg.setWidth 64, hash := r.hash.setWidth 64 } := by
  have hlcg : (g.lcg ^^^ b.setWidth 64).setWidth 32 = g.lcg.setWidth 32 ^^^ b.setWidth 32 := by
    rw [BitVec.setWidth_xor, BitVec.setWidth_setWidth_of_le b (by decide)]
  rw [← roundA_eq_variantA (w := .w32), ← hlcg]
  obtain ⟨state, gw, seed, lcg, hash, entCtr, hashLeft, lastHash, owned⟩ := g
  obtain rfl : gw = .w32 := hg
  rfl

/-- A prewarm round at 64 bits (R166, R170). -/
theorem Gen.prewarmRound_w64 (b : Byte) {g : Gen} (hg : g.gw = .w64) :
    g.prewarmRound b =
      let r := variantA g.seed (g.lcg ^^^ b.setWidth 64) g.hash
      { g with seed := r.seed, lcg := r.lcg, hash := r.hash } := by
  rw [← roundA_eq_variantA (w := .w64)]
  obtain ⟨state, gw, seed, lcg, hash, entCtr, hashLeft, lastHash, owned⟩ := g
  obtain rfl : gw = .w64 := hg
  simp only [Gen.prewarmRound, Gen.round, Gen.inject, genBits, view, zext64, BitVec.setWidth_eq]

/-- A prewarm round does not touch the width. -/
theorem Gen.prewarmRound_gw (b : Byte) (g : Gen) : (g.prewarmRound b).gw = g.gw := rfl

/-- Prewarm rounds that draw a byte first, one by one (R166). -/
theorem prewarmedGen_cons (b : Byte) (bs : List Byte) (g : Gen) :
    prewarmedGen (b :: bs) g = prewarmedGen bs (g.prewarmRound b) := by
  cases hg : g.gw with
  | w32 =>
    rw [prewarmedGen, prewarmedGen, g.prewarmRound_gw, hg, Gen.prewarmRound_w32 b hg]
    simp only [prewarmedTriple, BitVec.setWidth_setWidth_of_le _ (show 32 ≤ 64 by decide), BitVec.setWidth_eq]
  | w64 =>
    rw [prewarmedGen, prewarmedGen, g.prewarmRound_gw, hg, Gen.prewarmRound_w64 b hg]
    simp only [prewarmedTriple]

/-- No round leaves a generator whose triple fits as it is. -/
theorem prewarmedGen_nil {g : Gen} (h : g.tripleFits) : prewarmedGen [] g = g := by
  cases hg : g.gw with
  | w64 =>
    simp only [prewarmedGen, hg, prewarmedTriple]
    rw [← hg]
  | w32 =>
    obtain h64 | ⟨hs, hl, hh⟩ := h
    · rw [hg] at h64
      cases h64
    · simp only [prewarmedGen, hg, prewarmedTriple, setWidth_32_64 hs, setWidth_32_64 hl, setWidth_32_64 hh]
      rw [← hg]

/-- The prewarm rounds that draw the bytes `bs` in turn (R166). -/
def Gen.prewarmRoundsOver (bs : List Byte) (g : Gen) : Gen := bs.foldl (fun g b => g.prewarmRound b) g

/-- The model's prewarm rounds, one after the other, are those of the statements. -/
theorem Gen.prewarmRoundsOver_eq : ∀ {bs : List Byte} {g : Gen}, bs ≠ [] ∨ g.tripleFits →
    g.prewarmRoundsOver bs = prewarmedGen bs g
  | [], _, h => (prewarmedGen_nil (h.resolve_left (not_not.mpr rfl))).symm
  | b :: bs, g, _ => (Gen.prewarmRoundsOver_eq (.inr (Gen.round_tripleFits (g.inject b)))).trans
      (prewarmedGen_cons b bs g).symm

/-- Prewarm rounds neither read nor write the lifecycle state. -/
theorem prewarmedGen_state (bs : List Byte) (g : Gen) (x : GState) :
    prewarmedGen bs { g with state := x } = { prewarmedGen bs g with state := x } := by
  obtain ⟨state, gw, seed, lcg, hash, entCtr, hashLeft, lastHash, owned⟩ := g
  cases gw <;> rfl

/-- The generator that `GINIT` sets up once the source is held, but for its lifecycle state (R165). -/
theorem Gen.fresh_acquired (p : Params) (gw : GenWidth) (g : Gen) :
    { g with owned := true }.fresh p gw = { newInstance p gw with state := g.state } := by
  cases gw <;> rfl

/-- The triple of the generator that `GINIT` sets up fits its width. -/
theorem newInstance_tripleFits (p : Params) (gw : GenWidth) (x : GState) :
    ({ newInstance p gw with state := x } : Gen).tripleFits :=
  Gen.fresh_acquired p gw { newInstance p gw with state := x } ▸ Gen.fresh_tripleFits p gw _

/-! ## The generator's bytes -/

/-- A refill emits byte 0 of its `Hash` word (R172, R173). -/
theorem Gen.refill_emitted (b : Byte) (g : Gen) : (g.refill b).emitted = byteOf (g.refill b).hash 0 := by
  rw [g.refill_eq]
  rfl

/-- Everything the emission after a refill writes (R172). -/
theorem State.emit_refill (b : Byte) (g : Gen) (s : State) :
    s.emit (g.refill b) = { s with
      gbyte := (byteOf (g.refill b).afterEmit.hash 0).setWidth 64, gen := (g.refill b).afterEmit
      err := .ok, pending := none } := by
  rw [State.emit, g.refill_emitted]
  rfl

/-- After the emission of a refill all bytes of the word but one are left (R172). -/
theorem Gen.refill_afterEmit_hashLeft (b : Byte) (g : Gen) :
    1 + (g.refill b).afterEmit.hashLeft.toNat = genBytes (g.refill b).afterEmit.gw := by
  show 1 + (BitVec.ofNat 4 (genBytes g.gw) - 1).toNat = genBytes g.gw
  cases g.gw <;> rfl

/-- A generator after a refill and the emission of its first byte (R172). -/
theorem Gen.refill_afterEmit (b : Byte) (g : Gen) :
    (g.refill b).afterEmit = { g.prewarmRound b with
      hashLeft := BitVec.ofNat 4 (genBytes g.gw) - 1, lastHash := (g.prewarmRound b).hash >>> 8, entCtr := g.entCtr - 1 } := by
  rw [g.refill_eq, Gen.afterEmit]

theorem hashLeft_w32 : BitVec.ofNat 4 (genBytes .w32) - 1 = 3#4 := rfl

theorem hashLeft_w64 : BitVec.ofNat 4 (genBytes .w64) - 1 = 7#4 := rfl

/-- The refill inside the schedule at 32 bits, emission included (R170, R172). -/
theorem Gen.refill_zero_w32 {g : Gen} (hg : g.gw = .w32) :
    (g.refill 0).afterEmit =
      let r := variantA (g.seed.setWidth 32) (g.lcg.setWidth 32) (g.hash.setWidth 32)
      { g with
        seed := r.seed.setWidth 64, lcg := r.lcg.setWidth 64, hash := r.hash.setWidth 64
        lastHash := r.hash.setWidth 64 >>> 8, hashLeft := 3#4, entCtr := g.entCtr - 1 } := by
  have hzero : g.lcg.setWidth 32 ^^^ BitVec.setWidth 32 (0 : Byte) = g.lcg.setWidth 32 := by simp
  rw [g.refill_afterEmit, Gen.prewarmRound_w32 0 hg, hzero, hg, hashLeft_w32]

/-- The refill inside the schedule at 64 bits, emission included (R170, R172). -/
theorem Gen.refill_zero_w64 {g : Gen} (hg : g.gw = .w64) :
    (g.refill 0).afterEmit =
      let r := variantA g.seed g.lcg g.hash
      { g with
        seed := r.seed, lcg := r.lcg, hash := r.hash
        lastHash := r.hash >>> 8, hashLeft := 7#4, entCtr := g.entCtr - 1 } := by
  have hzero : g.lcg ^^^ BitVec.setWidth 64 (0 : Byte) = g.lcg := by simp
  rw [g.refill_afterEmit, Gen.prewarmRound_w64 0 hg, hzero, hg, hashLeft_w64]

/-- The refill at the schedule's end, emission included (R169 to R172). -/
theorem Gen.refill_schedule (e b : Byte) (g : Gen) : ((g.schedule e).refill b).afterEmit = injectedGen e b g := by
  rw [Gen.refill_afterEmit, injectedGen]
  cases hg : g.gw with
  | w32 =>
    have hctr : BitVec.ofNat 12 ((e.toNat + 1) * genBytes .w32) - 1 = BitVec.ofNat 12 ((e.toNat + 1) * 4 - 1) := by
      rw [genBytes]
      bv_omega
    rw [Gen.prewarmRound_w32 b (g := g.schedule e) hg]
    simp only [Gen.schedule, hg, hashLeft_w32, hctr]
  | w64 =>
    have hctr : BitVec.ofNat 12 ((e.toNat + 1) * genBytes .w64) - 1 = BitVec.ofNat 12 ((e.toNat + 1) * 8 - 1) := by
      rw [genBytes]
      bv_omega
    rw [Gen.prewarmRound_w64 b (g := g.schedule e) hg]
    simp only [Gen.schedule, hg, hashLeft_w64, hctr]

/-! ## The engine's runs -/

/-- Every byte that comes next is taken by a command that waits on one. -/
theorem takeAnswer_byte (b : Byte) {s : State} (hr : s.entReq = some .readByte) :
    takeAnswer (.byte b) s = some (answerRead b s.answered) := by
  simp [takeAnswer, hr]

/-- Every answer to `EntOpen` is taken by a command that waits on it. -/
theorem takeAnswer_opened (ok : Bool) {s : State} (hr : s.entReq = some .openSource) :
    takeAnswer (.opened ok) s = some (answerOpen ok s.answered) := by
  simp [takeAnswer, hr]

/-- An answer that is taken leaves the coming events as they are. -/
theorem AnswerTaken.env {a : Answer} {s t : State} (h : AnswerTaken s a t) : t.env = s.env := by
  cases h <;> rfl

/-- While a command is in flight an answer that comes next is taken, and those after it (R161). -/
theorem step_runs {s s' : State} {a : Answer} {rest : List Event} (hp : s.pending ≠ none) (he : s.env = .answer a :: rest)
    (ht : takeAnswer a { s with env := rest } = some s') :
    step s = .next (runEngine (.answer a :: rest) { s with env := rest }) := by
  have henv : s'.env = rest := (answerTaken_of_takeAnswer ht).env
  rw [step_event (.inr (.inl hp)), takeEvent, he]
  simp only [applyEvent, receiveAnswer, ht, henv, runEngine_answer rest ht]

/-- A step that takes an answer to `EntOpen`. -/
theorem step_runs_opened {s : State} {ok : Bool} {rest : List Event} {gw : GenWidth} {p : Bool}
    (hp : s.pending = some (.ginitOpen gw p)) (hr : s.entReq = some .openSource) (he : s.env = .answer (.opened ok) :: rest) :
    step s = .next (runEngine (.answer (.opened ok) :: rest) { s with env := rest }) :=
  step_runs (by rw [hp]; exact Option.some_ne_none _) he (takeAnswer_opened ok hr)

/-- A step that takes a byte. -/
theorem step_runs_byte {s : State} {b : Byte} {rest : List Event} (hp : s.pending ≠ none) (hr : s.entReq = some .readByte)
    (he : s.env = .answer (.byte b) :: rest) :
    step s = .next (runEngine (.answer (.byte b) :: rest) { s with env := rest }) :=
  step_runs hp he (takeAnswer_byte b hr)

/-- A step that takes bytes, one after the other. -/
theorem step_runs_bytes {s : State} {bs : List Byte} {rest : List Event} (hne : bs ≠ []) (hp : s.pending ≠ none)
    (hr : s.entReq = some .readByte) (he : s.env = byteAnswers bs ++ rest) :
    ∃ es, step s = .next (runEngine (byteAnswers bs ++ rest) { s with env := es }) := by
  obtain ⟨b, bs', rfl⟩ := List.exists_cons_of_ne_nil hne
  exact ⟨_, step_runs_byte hp hr he⟩

/-- `EntOpen` answered UNAVAILABLE ends `GINIT` with an error (R167). -/
theorem runEngine_unavailable {s : State} {gw : GenWidth} {p : Bool} (hp : s.pending = some (.ginitOpen gw p))
    (hr : s.entReq = some .openSource) (rest : List Event) :
    runEngine (.answer (.opened false) :: rest) s =
      { s with env := rest, entReq := none, pending := none, err := .sourceUnavailable, estk := true } := by
  have ht : takeAnswer (.opened false) s = some (s.answered.raise .sourceUnavailable) := by
    simp [takeAnswer_opened false hr, answerOpen, hp]
  rw [runEngine_answer rest ht, runEngine_done _ _ rfl]
  rfl

/-- `EntOpen` answered OK ends `GINIT` without prewarm (R165). -/
theorem runEngine_created {s : State} {gw : GenWidth} (hp : s.pending = some (.ginitOpen gw false))
    (hr : s.entReq = some .openSource) (rest : List Event) :
    runEngine (.answer (.opened true) :: rest) s =
      { s with env := rest, entReq := none, pending := none, err := .ok, gen := newInstance s.params gw } := by
  have ht : takeAnswer (.opened true) s =
      some (s.answered.acquireSource.commitInstance ({ s.gen with owned := true }.fresh s.params gw)) := by
    simp [takeAnswer_opened true hr, answerOpen, hp, ginitOpened]
  rw [runEngine_answer rest ht, runEngine_done _ _ rfl, Gen.fresh_acquired]
  rfl

/-- `EntOpen` answered OK begins the prewarm: the source is held and the first byte requested (R165, R166). -/
theorem runEngine_prewarmBegun {s : State} {gw : GenWidth} (hp : s.pending = some (.ginitOpen gw true))
    (hr : s.entReq = some .openSource) (rest : List Event) :
    runEngine (.answer (.opened true) :: rest) s =
      runEngine rest { s with
        entReq := some .readByte
        pending := some (.ginitPrewarm 32 { newInstance s.params gw with state := s.gen.state })
        portOut := s.portOut ++ [.entRead]
        gen := { s.gen with owned := true } } := by
  have ht : takeAnswer (.opened true) s = some (s.answered.acquireSource.request .readByte
      (.ginitPrewarm prewarmRounds ({ s.gen with owned := true }.fresh s.params gw))) := by
    simp [takeAnswer_opened true hr, answerOpen, hp, ginitOpened]
  rw [runEngine_answer rest ht, Gen.fresh_acquired]
  rfl

/-- Prewarm bytes, fewer than there are rounds left: each runs its round and requests the next byte (R166). -/
theorem runEngine_prewarm {rest : List Event} : ∀ {bs : List Byte} {s : State} {left : Nat} {work : Gen},
    bs.length < left → s.pending = some (.ginitPrewarm left work) → s.entReq = some .readByte →
    runEngine (byteAnswers bs ++ rest) s =
      runEngine rest { s with
        entReq := some .readByte
        pending := some (.ginitPrewarm (left - bs.length) (work.prewarmRoundsOver bs))
        portOut := s.portOut ++ List.replicate bs.length .entRead }
  | [], s, left, work, _, hp, hr => by
    have hs : { s with
        entReq := some .readByte, pending := some (.ginitPrewarm left work), portOut := s.portOut ++ [] } = s := by
      rw [← hp, ← hr, List.append_nil]
    exact congrArg (runEngine rest) hs.symm
  | b :: bs, s, left, work, hlen, hp, hr => by
    rw [List.length_cons] at hlen
    have ht : takeAnswer (.byte b) s =
        some (s.answered.request .readByte (.ginitPrewarm (left - 1) (work.prewarmRound b))) := by
      simp [takeAnswer_byte b hr, answerRead, hp, ginitPrewarmed, show ¬ left ≤ 1 by omega]
    show runEngine (.answer (.byte b) :: (byteAnswers bs ++ rest)) s = _
    rw [runEngine_answer _ ht, runEngine_prewarm (left := left - 1) (by omega) rfl rfl]
    simp [State.answered, State.request, EntReq.message, List.replicate_succ, Gen.prewarmRoundsOver, Nat.sub_sub,
      Nat.add_comm 1]

/-- Prewarm bytes, one for each round left: `GINIT` ends (R166). -/
theorem runEngine_prewarmEnded {rest : List Event} {bs : List Byte} {s : State} {work : Gen} (hne : bs ≠ [])
    (hp : s.pending = some (.ginitPrewarm bs.length work)) (hr : s.entReq = some .readByte) :
    runEngine (byteAnswers bs ++ rest) s =
      { s with
        env := rest, entReq := none, pending := none, err := .ok
        portOut := s.portOut ++ List.replicate (bs.length - 1) .entRead
        gen := { prewarmedGen bs work with state := .ready } } := by
  rw [← Gen.prewarmRoundsOver_eq (.inl hne)]
  obtain ⟨init, b, rfl⟩ : ∃ init b, bs = init ++ [b] := ⟨_, _, (List.dropLast_append_getLast hne).symm⟩
  have hlen : (init ++ [b]).length = init.length + 1 := List.length_append
  have hsplit : byteAnswers (init ++ [b]) ++ rest = byteAnswers init ++ (.answer (.byte b) :: rest) := by
    simp [byteAnswers]
  rw [hlen] at hp ⊢
  rw [hsplit, runEngine_prewarm (Nat.lt_add_one _) hp hr, Nat.add_sub_cancel_left]
  have ht (u : State) (hu : u.pending = some (.ginitPrewarm 1 (work.prewarmRoundsOver init)))
      (hur : u.entReq = some .readByte) :
      takeAnswer (.byte b) u = some (u.answered.commitInstance ((work.prewarmRoundsOver init).prewarmRound b)) := by
    simp [takeAnswer_byte b hur, answerRead, hu, ginitPrewarmed]
  rw [runEngine_answer rest (ht _ rfl rfl), runEngine_done _ _ rfl, Nat.add_sub_cancel, Gen.prewarmRoundsOver,
    Gen.prewarmRoundsOver, List.foldl_append]
  rfl

/-- The schedule byte of `GNEXT` is drawn, and the second byte requested (R172). -/
theorem runEngine_scheduled {s : State} (hp : s.pending = some .gnextSchedule) (hr : s.entReq = some .readByte) (e : Byte)
    (rest : List Event) :
    runEngine (.answer (.byte e) :: rest) s =
      runEngine rest { s with
        entReq := some .readByte, pending := some (.gnextMessage e), portOut := s.portOut ++ [.entRead] } := by
  have ht : takeAnswer (.byte e) s = some (s.answered.request .readByte (.gnextMessage e)) := by
    simp [takeAnswer_byte e hr, answerRead, hp]
  rw [runEngine_answer rest ht]
  rfl

/-- The second byte of `GNEXT` is drawn, and the command ends (R172). -/
theorem runEngine_emitted {s : State} {e : Byte} (hp : s.pending = some (.gnextMessage e)) (hr : s.entReq = some .readByte)
    (b : Byte) (rest : List Event) :
    runEngine (.answer (.byte b) :: rest) s =
      { s with
        env := rest, entReq := none, pending := none, err := .ok
        gbyte := (byteOf (injectedGen e b s.gen).hash 0).setWidth 64, gen := injectedGen e b s.gen } := by
  have ht : takeAnswer (.byte b) s = some (s.answered.emit ((s.gen.schedule e).refill b)) := by
    simp [takeAnswer_byte b hr, answerRead, hp]
  rw [runEngine_answer rest ht, runEngine_done _ _ rfl, State.emit_refill, Gen.refill_schedule]
  rfl

end Sys2Proof.Machine
end


section
/-! CERTIFICATE. The statements about the generator's commands of 42_generator: their effect, their errors and their waits,
each a run of the engine from the state that has issued its request. -/

namespace Sys2Proof.Machine

/-! ## The commands by their cases -/

theorem exec_ginit {s : State} (h : s.gen.state ≠ .ready) (gw : GenWidth) (p : Bool) :
    exec (.ginit gw p) s = .next (runEngine s.env (s.request .openSource (.ginitOpen gw p))) := if_neg h

theorem exec_gnext_emits {s : State} (h : s.gen.state = .ready) (hleft : s.gen.hashLeft ≠ 0) :
    exec .gnext s = .next (s.emit s.gen) := by
  obtain ⟨hn, -⟩ | ⟨-, -, he⟩ | ⟨-, h0, -⟩ | ⟨-, h0, -⟩ := execGnext_cases s
  · exact absurd h hn
  · exact he
  · exact absurd h0 hleft
  · exact absurd h0 hleft

theorem exec_gnext_refills {s : State} (h : s.gen.state = .ready) (hleft : s.gen.hashLeft = 0) (hctr : s.gen.entCtr ≠ 0) :
    exec .gnext s = .next (s.emit (s.gen.refill 0)) := by
  obtain ⟨hn, -⟩ | ⟨-, hn, -⟩ | ⟨-, -, -, he⟩ | ⟨-, -, h0, -⟩ := execGnext_cases s
  · exact absurd h hn
  · exact absurd hleft hn
  · exact he
  · exact absurd h0 hctr

theorem exec_gnext_draws {s : State} (h : s.gen.state = .ready) (hleft : s.gen.hashLeft = 0) (hctr : s.gen.entCtr = 0) :
    exec .gnext s = .next (runEngine s.env (s.request .readByte .gnextSchedule)) := by
  obtain ⟨hn, -⟩ | ⟨-, hn, -⟩ | ⟨-, -, hn, -⟩ | ⟨-, -, -, he⟩ := execGnext_cases s
  · exact absurd h hn
  · exact absurd hleft hn
  · exact absurd hctr hn
  · exact he

/-- `GINIT` without prewarm, answered OK (R165). -/
theorem exec_ginit_created {s : State} {gw : GenWidth} {rest : List Event} (hg : s.gen.state ≠ .ready)
    (he : s.env = .answer (.opened true) :: rest) :
    exec (.ginit gw false) s = .next { s with
      env := rest, entReq := none, pending := none, err := .ok, portOut := s.portOut ++ [.entOpen]
      gen := newInstance s.params gw } := by
  rw [exec_ginit hg, he, runEngine_created rfl rfl]
  rfl

/-! ## The obligations -/

/-- Settles O41: each of the three commands takes its `GEN_STATE` branch. -/
theorem generatorCommandInWrongStateRaisesGenState : Obligations.GeneratorCommandInWrongStateRaisesGenState := by
  unfold Obligations.GeneratorCommandInWrongStateRaisesGenState
  exact fun s => ⟨fun _ _ h => if_pos h, fun h => ⟨if_pos h, if_pos h⟩⟩

/-- Settles O43: the emission is that of the generator as it stands. -/
theorem gnextEmitsTheNextBufferedByte : Obligations.GnextEmitsTheNextBufferedByte := by
  unfold Obligations.GnextEmitsTheNextBufferedByte
  intro s h hleft
  rw [exec_gnext_emits h hleft]
  rfl

/-- Settles O46: the source is closed and the lifecycle ends. -/
theorem gfinalReleasesTheSource : Obligations.GfinalReleasesTheSource := by
  unfold Obligations.GfinalReleasesTheSource
  intro s h
  obtain ⟨hn, -⟩ | ⟨-, he⟩ := execGfinal_cases s
  · exact absurd h hn
  · exact he

/-- Settles O38: the one answer ends the command, issued or waiting. -/
theorem ginitWithoutPrewarmCreatesTheInstance : Obligations.GinitWithoutPrewarmCreatesTheInstance := by
  unfold Obligations.GinitWithoutPrewarmCreatesTheInstance
  refine fun s gw rest he => ⟨fun hg => exec_ginit_created hg he, fun hp hr => ?_⟩
  rw [step_runs_opened hp hr he, runEngine_created (s := { s with env := rest }) hp hr]

/-- The prewarm of a new generator, from `EntOpen` answered OK to the end of `GINIT` (R165, R166). -/
theorem runEngine_ginit_prewarm {s : State} {gw : GenWidth} {bs : List Byte} (hbs : bs.length = 32)
    (hp : s.pending = some (.ginitOpen gw true)) (hr : s.entReq = some .openSource) (rest : List Event) :
    runEngine (.answer (.opened true) :: (byteAnswers bs ++ rest)) s =
      { s with
        env := rest, entReq := none, pending := none, err := .ok
        portOut := s.portOut ++ List.replicate 32 .entRead
        gen := prewarmedGen bs (newInstance s.params gw) } := by
  have hne : bs ≠ [] := by
    rintro rfl
    cases hbs
  rw [runEngine_prewarmBegun hp hr, runEngine_prewarmEnded hne (by rw [hbs]) rfl, prewarmedGen_state, hbs]
  have hgen : ({ prewarmedGen bs (newInstance s.params gw) with state := .ready } : Gen) =
      prewarmedGen bs (newInstance s.params gw) := (prewarmedGen_state bs (newInstance s.params gw) .ready).symm
  rw [hgen, List.append_assoc]
  rfl

/-- Settles O39: the engine takes the answer to `EntOpen` and then every byte, the last one ending the command. -/
theorem ginitWithPrewarmRunsThirtyTwoRounds : Obligations.GinitWithPrewarmRunsThirtyTwoRounds := by
  unfold Obligations.GinitWithPrewarmRunsThirtyTwoRounds
  refine fun s bs rest => ⟨fun gw hbs he => ⟨fun hg => ?_, fun hp hr => ?_⟩, fun work hne he hp hr => ?_⟩
  · rw [exec_ginit hg, he, runEngine_ginit_prewarm hbs rfl rfl]
    simp [State.request, EntReq.message]
  · rw [step_runs_opened hp hr he, runEngine_ginit_prewarm (s := { s with env := byteAnswers bs ++ rest }) hbs hp hr]
  · obtain ⟨es, hstep⟩ := step_runs_bytes hne (by rw [hp]; exact Option.some_ne_none _) hr he
    rw [hstep, runEngine_prewarmEnded (s := { s with env := es }) hne hp hr]

/-- Settles O40: UNAVAILABLE ends the command with an error, and the generator is as it was for the next attempt. -/
theorem ginitOfUnavailableSourceChangesNothing : Obligations.GinitOfUnavailableSourceChangesNothing := by
  unfold Obligations.GinitOfUnavailableSourceChangesNothing
  refine fun s gw p rest he => ⟨fun hg => ?_, fun hp hr => ?_⟩
  · refine ⟨_, ?_, rfl, fun gw' rest' hrest => ⟨_, exec_ginit_created hg hrest, rfl, rfl, rfl⟩⟩
    rw [exec_ginit hg, he, runEngine_unavailable rfl rfl]
    rfl
  · rw [step_runs_opened hp hr he, runEngine_unavailable (s := { s with env := rest }) hp hr]

/-- Settles O44: the refill draws nothing, and its first byte is emitted. -/
theorem gnextRefillsWithoutInjectionInsideTheSchedule : Obligations.GnextRefillsWithoutInjectionInsideTheSchedule := by
  unfold Obligations.GnextRefillsWithoutInjectionInsideTheSchedule
  intro s h hleft hctr
  rw [exec_gnext_refills h hleft hctr, State.emit_refill]
  exact ⟨fun hg => by rw [Gen.refill_zero_w32 hg], fun hg => by rw [Gen.refill_zero_w64 hg]⟩

/-- Settles O45: the engine takes the schedule byte and then the other one, which ends the command. -/
theorem gnextRefillsWithInjectionAtTheScheduleEnd : Obligations.GnextRefillsWithInjectionAtTheScheduleEnd := by
  unfold Obligations.GnextRefillsWithInjectionAtTheScheduleEnd
  refine fun s e msg rest => ⟨fun he => ⟨fun h hleft hctr => ?_, fun hp hr => ?_⟩, fun he hp hr => ?_⟩
  · rw [exec_gnext_draws h hleft hctr, he, runEngine_scheduled rfl rfl, runEngine_emitted rfl rfl]
    simp [State.request, EntReq.message]
  · rw [step_runs_byte (by rw [hp]; exact Option.some_ne_none _) hr he,
      runEngine_scheduled (s := { s with env := .answer (.byte msg) :: rest }) hp hr, runEngine_emitted rfl rfl]
  · rw [step_runs_byte (by rw [hp]; exact Option.some_ne_none _) hr he,
      runEngine_emitted (s := { s with env := rest }) hp hr]

/-! ## The stream -/

/-- Once some bytes of the word are out, the low byte of the buffer is the next one of the word (R173). -/
theorem Gen.emitted_of_inRange {g : Gen} {k : Nat} (h : g.inRange = true) (hk : k + g.hashLeft.toNat = genBytes g.gw) :
    g.emitted = byteOf g.hash k := by
  obtain ⟨-, -, -, hlast⟩ := g.inRange_iff.mp h
  rw [Gen.emitted, hlast, show genBytes g.gw - g.hashLeft.toNat = k by omega, byteOf]
  apply BitVec.eq_of_toNat_eq
  simp

/-- A `GNEXT` that has drawn its bytes has emitted byte 0 of a new word (R172, R173). -/
def State.freshWordEmitted (s : State) : Prop :=
  s.gbyte = (byteOf s.gen.hash 0).setWidth 64 ∧ 1 + s.gen.hashLeft.toNat = genBytes s.gen.gw

/-- The emission after a refill is that of byte 0 of the new word. -/
theorem State.emit_refill_freshWordEmitted (b : Byte) (g : Gen) (s : State) :
    (s.emit (g.refill b)).freshWordEmitted :=
  ⟨by rw [State.emit_refill], g.refill_afterEmit_hashLeft b⟩

/-- A `GNEXT` that draws is waiting on a byte, or has emitted byte 0 of its new word and waits on nothing. -/
def State.gnextDrawing (s : State) : Prop :=
  (s.pending = some .gnextSchedule ∨ ∃ e, s.pending = some (.gnextMessage e)) ∨
    (s.pending = none ∧ s.entReq = none ∧ s.freshWordEmitted)

/-- Every answer leaves a `GNEXT` that draws drawing or done. -/
theorem takeAnswer_gnextDrawing {a : Answer} {s t : State} (h : takeAnswer a s = some t) (hs : s.gnextDrawing) :
    t.gnextDrawing := by
  obtain hp | ⟨-, hr, -⟩ := hs
  · cases answerTaken_of_takeAnswer h with
    | unavailable hp' | created hp' | prewarmBegun hp' | prewarmEnded hp' | prewarmed hp' => simp [hp'] at hp
    | scheduled => exact .inl (.inr ⟨_, rfl⟩)
    | emitted => exact .inr ⟨rfl, rfl, State.emit_refill_freshWordEmitted _ _ _⟩
    | settled => exact .inl hp
  · simp [takeAnswer, hr] at h

/-- The engine's run leaves a `GNEXT` that draws drawing or done. -/
theorem runEngine_gnextDrawing (es : List Event) {s : State} (hs : s.gnextDrawing) : (runEngine es s).gnextDrawing :=
  runEngine_induct State.gnextDrawing (fun _ _ _ hu ht => takeAnswer_gnextDrawing ht hu) (fun _ _ hu => hu) es s hs

/-- A `GNEXT` that draws and is complete has emitted byte 0 of its new word. -/
theorem State.gnextDrawing.done {s : State} (hs : s.gnextDrawing) (hp : s.pending = none) : s.freshWordEmitted := by
  obtain (hn | ⟨e, hn⟩) | ⟨-, -, hs⟩ := hs
  · simp [hp] at hn
  · simp [hp] at hn
  · exact hs

/-- A `GNEXT` with no byte left that completes in the step that issues it has emitted byte 0 of its new word (R173). -/
theorem exec_gnext_freshWordEmitted {s t : State} (hg : s.gen.state = .ready) (hleft : s.gen.hashLeft = 0)
    (h : exec .gnext s = .next t) (hp : t.pending = none) : t.freshWordEmitted := by
  by_cases hctr : s.gen.entCtr = 0
  · cases (exec_gnext_draws hg hleft hctr).symm.trans h
    exact (runEngine_gnextDrawing s.env (.inl (.inl rfl))).done hp
  · cases (exec_gnext_refills hg hleft hctr).symm.trans h
    exact State.emit_refill_freshWordEmitted _ _ _

/-! ## Waiting -/

/-- While a command is in flight and no reset comes, a step takes an answer and runs on, or leaves the command, its request,
the generator, `GBYTE`, the errors and the port as they are (R161, R193). -/
theorem step_in_flight {s t : State} (hp : s.pending ≠ none) (hr : ∀ rest, s.env ≠ .reset :: rest) (h : step s = .next t) :
    (∃ a rest u, s.env = .answer a :: rest ∧ takeAnswer a { s with env := rest } = some u ∧ t = runEngine u.env u) ∨
    (t.pending = s.pending ∧ t.entReq = s.entReq ∧ t.gen = s.gen ∧ t.gbyte = s.gbyte ∧ t.err = s.err ∧
      t.portOut = s.portOut) := by
  cases stepped_of_step h with
  | answered he hu => exact .inl ⟨_, _, _, he, hu, rfl⟩
  | reset he => exact absurd he (hr _)
  | silent | holds | ignored => exact .inr ⟨rfl, rfl, rfl, rfl, rfl, rfl⟩
  | accepted hu ht =>
    cases hu with
    | held _ hn => exact absurd hn hp
    | presented _ _ hx =>
      obtain rfl := hx.resolve_left hp
      have hsame := ht.sameEngine rfl
      exact .inr ⟨hsame.pending, hsame.entReq, hsame.gen, hsame.gbyte, hsame.err, hsame.portOut⟩

/-- A prewarm that runs out of answers waits on its next byte (R161, R166). -/
theorem runEngine_prewarm_waits {s : State} {gw : GenWidth} {bs : List Byte} {rest : List Event} (hbs : bs.length < 32)
    (hrest : ∀ b r, rest ≠ .answer (.byte b) :: r) (hp : s.pending = some (.ginitOpen gw true))
    (hr : s.entReq = some .openSource) :
    runEngine (.answer (.opened true) :: (byteAnswers bs ++ rest)) s =
      { s with
        env := rest, entReq := some .readByte
        pending := some (.ginitPrewarm (32 - bs.length)
          (prewarmedGen bs { newInstance s.params gw with state := s.gen.state }))
        portOut := s.portOut ++ List.replicate (bs.length + 1) .entRead
        gen := { s.gen with owned := true } } := by
  rw [runEngine_prewarmBegun hp hr, runEngine_prewarm hbs rfl rfl, runEngine_waits_read rfl hrest,
    Gen.prewarmRoundsOver_eq (.inr (newInstance_tripleFits _ _ _)), List.append_assoc, List.replicate_succ]
  rfl

/-! ## The obligations about the stream and about waiting -/

/-- Settles O47: the buffer is the rest of the word, and a refill that completes emits the word's byte 0. -/
theorem streamIsTheHashWordsBytesInOrder : Obligations.StreamIsTheHashWordsBytesInOrder := by
  unfold Obligations.StreamIsTheHashWordsBytesInOrder
  refine ⟨fun s t hrange hg h hp => ⟨fun k _ hk hlt => ?buffered, fun hleft => ?refilled⟩,
    fun s t hdraws hreq hreset h hp => ?later⟩
  case buffered =>
    have hne : s.gen.hashLeft ≠ 0 := fun h0 => by simp [h0] at hk; omega
    cases (exec_gnext_emits hg hne).symm.trans h
    have hpos : s.gen.hashLeft.toNat ≠ 0 := fun h0 => hne (BitVec.eq_of_toNat_eq h0)
    refine ⟨?_, rfl, ?_⟩
    · rw [State.emit_gbyte, Gen.emitted_of_inRange hrange hk]
      rfl
    · show k + 1 + (s.gen.hashLeft - 1).toNat = genBytes s.gen.gw
      rw [← hk]
      bv_omega
  case refilled => exact exec_gnext_freshWordEmitted hg hleft h hp
  case later =>
    have hne : s.pending ≠ none := by obtain hd | ⟨e, hd⟩ := hdraws <;> simp [hd]
    obtain ⟨a, rest, u, he, hu, rfl⟩ | ⟨hp', -⟩ := step_in_flight hne hreset h
    · have hdrawing : u.gnextDrawing := takeAnswer_gnextDrawing hu (.inl hdraws)
      exact (runEngine_gnextDrawing u.env hdrawing).done hp
    · exact absurd (hp'.symm.trans hp) hne

/-- Settles O48: of the three ways a `GNEXT` goes in `READY`, one draws, and the two bytes are there. -/
theorem gnextCompletesWhenTheAgentAnswers : Obligations.GnextCompletesWhenTheAgentAnswers := by
  unfold Obligations.GnextCompletesWhenTheAgentAnswers
  intro s e msg rest _ hg hp hh he
  have hstep : step s = issueCommand 0x41#64 { s with env := .answer (.byte e) :: .answer (.byte msg) :: rest } :=
    step_idle_host hp hh he
  have hdecode : decode 0x41#64 = .ok .gnext := decode_encode (i := .gnext) rfl
  rw [hstep, issueCommand, hdecode]
  by_cases hleft : s.gen.hashLeft = 0
  · by_cases hctr : s.gen.entCtr = 0
    · refine ⟨_, exec_gnext_draws hg hleft hctr, ?_⟩
      rw [State.accept_env, runEngine_scheduled rfl rfl, runEngine_emitted rfl rfl]
      refine ⟨rfl, rfl, ?_⟩
      rw [← Gen.refill_schedule]
      exact hg
    · exact ⟨_, exec_gnext_refills hg hleft hctr, rfl, rfl, hg⟩
  · exact ⟨_, exec_gnext_emits hg hleft, rfl, rfl, hg⟩

/-- Settles O42: with no answer next the engine stops at its request, with some it stops at the next one, and while it
waits no other event touches it. -/
theorem commandWaitsWhileTheAgentIsSilent : Obligations.CommandWaitsWhileTheAgentIsSilent := by
  unfold Obligations.CommandWaitsWhileTheAgentIsSilent
  refine ⟨fun s gw p hg hsilent => ?ginit, fun s hg hleft hctr hsilent => ?gnext,
    fun s gw bs rest hbs hrest he => ⟨fun hg => ?begun, fun hp hr => ?begunLater⟩,
    fun s left work bs rest hne hbs hrest he hp hr => ?prewarming,
    fun s e rest hrest he => ⟨fun hg hleft hctr => ?drawn, fun hp hr => ?drawnLater⟩,
    fun s t hp ha hr h => ?others, fun s hp he => ?never⟩
  case ginit =>
    rw [exec_ginit hg, runEngine_waits_open rfl hsilent]
    rfl
  case gnext =>
    rw [exec_gnext_draws hg hleft hctr, runEngine_waits_read rfl hsilent]
    rfl
  case begun =>
    rw [exec_ginit hg, he, runEngine_prewarm_waits hbs hrest rfl rfl]
    simp [State.request, EntReq.message]
  case begunLater =>
    rw [step_runs_opened hp hr he,
      runEngine_prewarm_waits (s := { s with env := byteAnswers bs ++ rest }) hbs hrest hp hr]
  case prewarming =>
    obtain ⟨es, hstep⟩ := step_runs_bytes hne (by rw [hp]; exact Option.some_ne_none _) hr he
    rw [hstep, runEngine_prewarm (s := { s with env := es }) hbs hp hr, runEngine_waits_read rfl hrest,
      Gen.prewarmRoundsOver_eq (.inl hne), ← hr]
  case drawn =>
    rw [exec_gnext_draws hg hleft hctr, he, runEngine_scheduled rfl rfl, runEngine_waits_read rfl hrest]
    simp [State.request, EntReq.message]
  case drawnLater =>
    rw [step_runs_byte (by rw [hp]; exact Option.some_ne_none _) hr he,
      runEngine_scheduled (s := { s with env := rest }) hp hr, runEngine_waits_read rfl hrest,
      ← hr]
  case others =>
    obtain ⟨a, rest, u, he, -⟩ | hkept := step_in_flight hp hr h
    · exact absurd he (ha a rest)
    · exact hkept
  case never =>
    rw [step_event (.inr (.inl hp)), takeEvent, he]

end Sys2Proof.Machine
end


section
/-! CERTIFICATE. The statements about the host interface of 43_host_interface and the reset of 70_reset_and_hazards: command
issue, the stall, `STATUS`, and what the host cannot see. -/

namespace Sys2Proof.Machine

/-! ## STATUS -/

/-- `STATUS` as a number, field by field (R45). -/
theorem State.status_toNat (s : State) :
    s.status.toNat = s.busy.toNat + 2 * s.estk.toNat + 4 * s.gen.state.code.toNat + 16 * (gwStatusBit s.gen.gw).toNat +
      256 * s.err.code.toNat := by
  simp only [State.status, toNat_append_eq, BitVec.toNat_ofBool, BitVec.toNat_ofNat]
  omega

/-- `BUSY` says whether a command is in flight (R39). -/
theorem State.busy_iff (s : State) : s.busy = true ↔ s.pending ≠ none := Option.isSome_iff_ne_none

/-- `BUSY` is bit 0 of `STATUS` (R45). -/
theorem State.status_bit_zero (s : State) : s.status.getLsbD 0 = s.busy := by
  simp only [State.status, BitVec.getLsbD_append]
  simp

/-! ## Issue and stall -/

/-- A word that decodes is executed with itself in flight (R192). -/
theorem issueCommand_of_decode {v : Word} {i : Instr} (h : decode v = .ok i) (s : State) :
    issueCommand v s = exec i (s.accept v) := by
  rw [issueCommand, h]

/-- A command in flight lets no transaction but a read of `STATUS` pass (R193). -/
theorem presentTransaction_holds {s : State} {x : Transaction} (hp : s.pending ≠ none) (hh : s.held = none)
    (hx : x ≠ .regRd statusIndex) : presentTransaction x s = .next (s.hold x) := by
  simp [presentTransaction, hh, s.busy_iff.mpr hp, hx]

/-- A transaction that is presented while a command is in flight is held, if it is no read of `STATUS` (R193). -/
theorem step_holds {s : State} {x : Transaction} {rest : List Event} (hp : s.pending ≠ none) (hh : s.held = none)
    (hx : x ≠ .regRd statusIndex) (he : s.env = .host x :: rest) :
    step s = .next { s with env := rest, held := some x } := by
  rw [step_event (.inl hh), takeEvent, he]
  exact presentTransaction_holds (s := { s with env := rest }) hp hh hx

/-- An answer leaves the transaction held. -/
theorem AnswerTaken.held {a : Answer} {s t : State} (h : AnswerTaken s a t) : t.held = s.held := by
  cases h <;> rfl

/-- The engine's run leaves the transaction held. -/
theorem runEngine_held (es : List Event) (s : State) : (runEngine es s).held = s.held :=
  runEngine_keeps (P := fun t => t.held = s.held) (fun _ _ _ hu ht => ht.held.trans hu) (fun _ _ hu => hu) es rfl

/-! ## The generator behind the interface -/

/-- A register read sees the lifecycle state and the width of the generator only (R38, R45). -/
theorem State.readReg_withGen {s : State} {g : Gen} (hstate : g.state = s.gen.state) (hgw : g.gw = s.gen.gw) (i : BitVec 8) :
    (s.withGen g).readReg i = s.readReg i := by
  have hstatus : (s.withGen g).status = s.status := by
    unfold State.status State.withGen
    rw [hstate, hgw]
    rfl
  rw [State.readReg_eq, s.readReg_eq, hstatus]
  rfl

theorem State.writeReg_withGen (i : BitVec 8) (v : Word) (s : State) (g : Gen) :
    (s.withGen g).writeReg i v = (s.writeReg i v).withGen g := by
  unfold State.writeReg
  split
  case h_1 => split <;> rfl
  all_goals rfl

theorem State.memRead_withGen (a : BitVec 16) (s : State) (g : Gen) :
    (s.withGen g).memRead a = (s.memRead a).withGen g := by
  unfold State.memRead
  rw [show (s.withGen g).inMemory a = s.inMemory a from rfl]
  split <;> rfl

theorem State.memWrite_withGen (a : BitVec 16) (b : Byte) (s : State) (g : Gen) :
    (s.withGen g).memWrite a b = (s.memWrite a b).withGen g := by
  unfold State.memWrite
  rw [show (s.withGen g).inMemory a = s.inMemory a from rfl]
  split <;> rfl

/-- A transaction that issues no command sees no more of the generator than a register read, and changes nothing of it. -/
theorem acceptTransaction_withGen {x : Transaction} {s : State} {g : Gen} (hstate : g.state = s.gen.state)
    (hgw : g.gw = s.gen.gw) (hx : ∀ v, x ≠ .regWr cmdIndex v) :
    acceptTransaction x (s.withGen g) = mapNext (fun t => t.withGen g) (acceptTransaction x s) := by
  cases x with
  | regRd i =>
    rw [acceptTransaction, acceptTransaction, State.readReg_withGen hstate hgw]
    rfl
  | regWr i v =>
    have hi : i ≠ cmdIndex := fun hi => hx v (hi ▸ rfl)
    rw [acceptTransaction, acceptTransaction, if_neg hi, if_neg hi, State.writeReg_withGen]
    rfl
  | memRd a =>
    rw [acceptTransaction, acceptTransaction, State.memRead_withGen]
    rfl
  | memWr a b =>
    rw [acceptTransaction, acceptTransaction, State.memWrite_withGen]
    rfl

/-! ## The obligations -/

/-- Settles O14: the sum of the fields, each field's code by its cases. -/
theorem statusIsTheSumOfItsFields : Obligations.StatusIsTheSumOfItsFields := by
  unfold Obligations.StatusIsTheSumOfItsFields
  intro s
  have hbusy : s.busy.toNat = if s.pending = none then 0 else 1 := by
    rw [State.busy]
    cases s.pending <;> rfl
  have hestk : 2 * s.estk.toNat = if s.estk then 2 else 0 := by cases s.estk <;> rfl
  have hstate : s.gen.state.code.toNat = match s.gen.state with | .uninit => 0 | .ready => 1 | .terminated => 2 := by
    cases s.gen.state <;> rfl
  have hgw : 16 * (gwStatusBit s.gen.gw).toNat = match s.gen.gw with | .w32 => 0 | .w64 => 16 := by
    cases s.gen.gw <;> rfl
  have herr : s.err.code.toNat = match s.err with
      | .ok => 0 | .illegalCmd => 1 | .genState => 2 | .memBounds => 3 | .sourceUnavailable => 4 := by
    cases s.err <;> rfl
  rw [s.status_toNat, hbusy, hestk, hstate, hgw]
  exact congrArg (fun c => _ + 256 * c) herr

/-- Settles O7: an accepted write to `CMD` issues the command, presented or held. -/
theorem stepRunsTheDecodedCommand : Obligations.StepRunsTheDecodedCommand := by
  unfold Obligations.StepRunsTheDecodedCommand
  intro s v i hv hp
  refine ⟨(encode_of_decode hv).1, fun rest hh he => ?_, fun hh hr => ?_⟩
  · rw [step_idle_host hp hh he]
    exact issueCommand_of_decode hv _
  · rw [step_held hh hp hr]
    exact issueCommand_of_decode hv _

/-- Settles O10: the four ways of a transaction at a block with a command in flight, or just without one. -/
theorem busyBlockHoldsAllButStatusReads : Obligations.BusyBlockHoldsAllButStatusReads := by
  unfold Obligations.BusyBlockHoldsAllButStatusReads
  refine ⟨fun s rest hp hh he => ⟨step_status_read hh he, ?_⟩, fun s x rest hp hh hx he => step_holds hp hh hx he,
    fun s t x hp hx hr h => ?kept, fun s x hp hx hr => ?accepted⟩
  · rw [s.status_bit_zero, s.busy_iff]
    exact hp
  case kept =>
    cases stepped_of_step h with
    | accepted hu =>
      cases hu with
      | held _ hn => exact absurd hn hp
      | presented _ hn => exact absurd (hn.symm.trans hx) nofun
    | answered _ hu => exact (runEngine_held _ _).trans ((answerTaken_of_takeAnswer hu).held.trans hx)
    | reset he => exact absurd he (hr _)
    | silent | ignored => exact hx
    | holds _ hn => exact absurd (hn.symm.trans hx) nofun
  case accepted =>
    rw [step_held hx hp hr, step_idle_host (s := { s with held := none, env := .host x :: s.env }) hp rfl rfl]

/-- Settles O51: the transaction sees the generator through `STATUS` only, which agrees. -/
theorem hostCannotReadTheGeneratorsPrivateState : Obligations.HostCannotReadTheGeneratorsPrivateState := by
  unfold Obligations.HostCannotReadTheGeneratorsPrivateState
  intro s g x rest hstate hgw hh he hx
  have hh' : (s.withGen g).held = none := hh
  by_cases hacc : s.pending = none ∨ x = .regRd statusIndex
  · have haccept : ∀ u : State, u.held = none → u.env = .host x :: rest → u.pending = s.pending →
        step u = acceptTransaction x { u with env := rest } := fun u huh hue hup => by
      obtain hp | rfl := hacc
      · exact step_idle_host (hup.trans hp) huh hue
      · exact step_status_read huh hue
    rw [haccept s hh he rfl, haccept (s.withGen g) hh he rfl]
    exact acceptTransaction_withGen (s := { s with env := rest }) hstate hgw hx
  · push Not at hacc
    rw [step_holds hacc.1 hh hacc.2 he, step_holds (s := s.withGen g) hacc.1 hh hacc.2 he]
    rfl

/-- Settles O59: a reset that comes next is taken whatever is held or in flight, and a late answer does nothing. -/
theorem resetReleasesTheSourceAndDropsTheCommand : Obligations.ResetReleasesTheSourceAndDropsTheCommand := by
  unfold Obligations.ResetReleasesTheSourceAndDropsTheCommand
  refine ⟨fun s rest he => ?_, fun s a rest he hw => ?_⟩
  · rw [step_event (.inr (.inr ⟨rest, he⟩)), takeEvent, he]
    simp only [applyEvent, State.applyReset]
    cases s.gen.owned <;> simp
  · rw [step_event (hw.imp_right .inl), takeEvent, he]
    rfl

end Sys2Proof.Machine
end


section
/-! CERTIFICATE. The statements of 60_exceptions and 42_generator about what no step does: which ones change the error fields,
the fault set, `GBYTE` and the entropy port. -/

namespace Sys2Proof.Machine

/-! ## Completion -/

/-- Settles O54: every kind of execution ends the command, but the runs of `GINIT` and `GNEXT`. -/
theorem everyCommandRunsAndOnlyGinitAndGnextWait : Obligations.EveryCommandRunsAndOnlyGinitAndGnextWait := by
  unfold Obligations.EveryCommandRunsAndOnlyGinitAndGnextWait
  intro i s
  obtain ⟨t, ht, hexec⟩ := exec_executed i s
  refine ⟨t, ht, fun hi => ?_⟩
  cases hexec with
  | ginit | gnextDraws => cases hi
  | round | outside | loaded | wrongState | gnextEmits | gnextRefills | gfinal => rfl

/-! ## The sticky error -/

/-- No answer clears the sticky error (R219). -/
theorem AnswerTaken.estk {a : Answer} {s t : State} (h : AnswerTaken s a t) (hs : s.estk = true) : t.estk = true := by
  cases h with
  | unavailable => rfl
  | created | prewarmBegun | prewarmEnded | prewarmed | scheduled | emitted | settled => exact hs

/-- No run of the engine clears the sticky error. -/
theorem runEngine_estk (es : List Event) {s : State} (hs : s.estk = true) : (runEngine es s).estk = true :=
  runEngine_keeps (P := fun t => t.estk = true) (fun _ _ _ hu ht => ht.estk hu) (fun _ _ hu => hu) es hs

/-- No command clears the sticky error (R213). -/
theorem Executed.estk {i : Instr} {s t : State} (h : Executed s i t) (hs : s.estk = true) : t.estk = true := by
  cases h with
  | outside | wrongState => rfl
  | ginit | gnextDraws => exact runEngine_estk _ hs
  | round | loaded | gnextEmits | gnextRefills | gfinal => exact hs

/-- The only register write that clears the sticky error (R195). -/
theorem State.writeReg_estk {i : BitVec 8} {v : Word} {s : State} (hs : s.estk = true)
    (ht : (s.writeReg i v).estk = false) : i = 1#8 ∧ v.getLsbD 1 = true := by
  by_cases hi : i = 1#8
  · subst hi
    rw [State.writeReg_status] at ht
    exact ⟨rfl, by simpa [hs] using ht⟩
  · have hkept : (s.writeReg i v).estk = s.estk := by
      unfold State.writeReg
      split
      case h_1 h1 => exact absurd (BitVec.eq_of_toNat_eq h1) hi
      all_goals rfl
    rw [hkept, hs] at ht
    cases ht

/-- A byte read leaves the sticky error as it is. -/
theorem State.memRead_estk (a : BitVec 16) (s : State) : (s.memRead a).estk = s.estk := by
  obtain ⟨-, h⟩ | ⟨-, h⟩ := s.memRead_cases a <;> rw [h] <;> rfl

/-- A byte write leaves the sticky error as it is. -/
theorem State.memWrite_estk (a : BitVec 16) (b : Byte) (s : State) : (s.memWrite a b).estk = s.estk := by
  obtain ⟨-, h⟩ | ⟨-, h⟩ := s.memWrite_cases a b <;> rw [h]

/-- The only transaction that clears the sticky error (R195, R219). -/
theorem Accepted.estk {x : Transaction} {s t : State} (h : Accepted s x t) (hs : s.estk = true) (ht : t.estk = false) :
    ∃ v : Word, v.getLsbD 1 = true ∧ x = .regWr 1#8 v := by
  have hsame (he : t.estk = s.estk) : False := by simp [he, hs] at ht
  cases h with
  | read => exact (hsame rfl).elim
  | write v =>
    obtain ⟨rfl, hv⟩ := State.writeReg_estk hs ht
    exact ⟨v, hv, rfl⟩
  | memRead a => exact (hsame (s.memRead_estk a)).elim
  | memWrite a b => exact (hsame (s.memWrite_estk a b)).elim
  | illegal => cases ht
  | @issued v _ _ _ hexec =>
    have hkept : t.estk = true := (executed_of_exec hexec).estk (s := s.accept v) hs
    rw [hkept] at ht
    cases ht

/-- Settles O17: of all kinds of step only the reset and the accepted write clear it. -/
theorem stickyErrorIsClearedOnlyByTheHostOrReset : Obligations.StickyErrorIsClearedOnlyByTheHostOrReset := by
  unfold Obligations.StickyErrorIsClearedOnlyByTheHostOrReset
  intro s t h hs ht
  have hkept (he : t.estk = true) : False := by simp [he] at ht
  cases stepped_of_step h with
  | accepted hu hx =>
    cases hu with
    | held hheld hp =>
      obtain ⟨v, hv, rfl⟩ := hx.estk hs ht
      exact .inr ⟨hp, v, hv, .inr hheld⟩
    | presented he hh hp =>
      obtain ⟨v, hv, rfl⟩ := hx.estk hs ht
      exact .inr ⟨hp.resolve_right nofun, v, hv, .inl ⟨hh, _, he⟩⟩
  | answered _ hu =>
    exact (hkept (runEngine_estk _ ((answerTaken_of_takeAnswer hu).estk hs))).elim
  | reset he => exact .inl ⟨_, he⟩
  | silent | holds | ignored => exact (hkept hs).elim

/-! ## The fault set -/

/-- No answer touches the fault set. -/
theorem AnswerTaken.faults {a : Answer} {s t : State} (h : AnswerTaken s a t) : t.faults = s.faults := by
  cases h <;> rfl

/-- No run of the engine touches the fault set. -/
theorem runEngine_faults (es : List Event) (s : State) : (runEngine es s).faults = s.faults :=
  runEngine_keeps (P := fun t => t.faults = s.faults) (fun _ _ _ hu ht => ht.faults.trans hu) (fun _ _ hu => hu) es rfl

/-- A read takes no fault out of the fault set. -/
theorem State.faults_subset_recordRead (a n : Nat) (s : State) : s.faults ⊆ (s.recordRead a n).faults := fun f hf =>
  (s.recordRead_faults a n f).mpr (.inl hf)

/-- No command takes a fault out of the fault set. -/
theorem Executed.faults_subset {i : Instr} {s t : State} (h : Executed s i t) : s.faults ⊆ t.faults := by
  cases h with
  | loaded => exact s.faults_subset_recordRead _ _
  | ginit | gnextDraws => exact (runEngine_faults _ _).symm ▸ List.Subset.refl _
  | round | outside | wrongState | gnextEmits | gnextRefills | gfinal => exact List.Subset.refl _

/-- No register write touches the fault set. -/
theorem State.writeReg_faults (i : BitVec 8) (v : Word) (s : State) : (s.writeReg i v).faults = s.faults := by
  unfold State.writeReg
  split
  case h_1 => split <;> rfl
  all_goals rfl

/-- No transaction takes a fault out of the fault set. -/
theorem Accepted.faults_subset {x : Transaction} {s t : State} (h : Accepted s x t) : s.faults ⊆ t.faults := by
  cases h with
  | read | illegal => exact List.Subset.refl _
  | write v => exact (s.writeReg_faults _ v).symm ▸ List.Subset.refl _
  | memRead a =>
    obtain ⟨-, he⟩ | ⟨-, he⟩ := s.memRead_cases a <;> rw [he]
    · exact s.faults_subset_recordRead _ _
    · exact List.Subset.refl _
  | memWrite a b => obtain ⟨-, he⟩ | ⟨-, he⟩ := s.memWrite_cases a b <;> rw [he] <;> exact List.Subset.refl _
  | issued _ hexec => exact (executed_of_exec hexec).faults_subset

/-- Settles O26: a reset keeps the fault set, and every other step at most adds to it. -/
theorem noStepClearsAModelFault : Obligations.NoStepClearsAModelFault := by
  unfold Obligations.NoStepClearsAModelFault
  intro s t h f hf
  cases stepped_of_step h with
  | accepted hu hx => cases hu <;> exact hx.faults_subset hf
  | answered _ hu =>
    rw [runEngine_faults, (answerTaken_of_takeAnswer hu).faults]
    exact hf
  | reset | silent | holds | ignored => exact hf

/-! ## GBYTE -/

/-- A `GNEXT` waits on one of its bytes. -/
def State.drawing (s : State) : Prop := s.pending = some .gnextSchedule ∨ ∃ e, s.pending = some (.gnextMessage e)

/-- A command is complete without an error, and `GBYTE` holds a byte. -/
def State.byteWritten (s : State) : Prop := s.err = .ok ∧ s.pending = none ∧ s.gbyte.toNat < 256

/-- Only a `GNEXT` that waits on its second byte writes `GBYTE`, and then it is complete (R37). -/
theorem AnswerTaken.gbyte {a : Answer} {s t : State} (h : AnswerTaken s a t) :
    (t.gbyte = s.gbyte ∧ (t.drawing → s.drawing)) ∨ (s.drawing ∧ t.byteWritten ∧ t.entReq = none) := by
  cases h with
  | unavailable | created | prewarmEnded => exact .inl ⟨rfl, by rintro (h | ⟨e, h⟩) <;> cases h⟩
  | prewarmBegun | prewarmed => exact .inl ⟨rfl, by rintro (h | ⟨e, h⟩) <;> cases h⟩
  | scheduled hp => exact .inl ⟨rfl, fun _ => .inl hp⟩
  | emitted hp => exact .inr ⟨.inr ⟨_, hp⟩, ⟨rfl, rfl, Gen.emitted_lt _⟩, rfl⟩
  | settled => exact .inl ⟨rfl, id⟩

/-- A run of the engine writes `GBYTE` only for a `GNEXT` that waits on its bytes, and then that command is complete. -/
theorem runEngine_gbyte (es : List Event) (s : State) :
    (runEngine es s).gbyte = s.gbyte ∨ (s.drawing ∧ (runEngine es s).byteWritten) := by
  have hrun := runEngine_induct
    (fun t => (t.gbyte = s.gbyte ∧ (t.drawing → s.drawing)) ∨ (s.drawing ∧ t.byteWritten ∧ t.entReq = none))
    (fun a u u' hu ht => ?_) (fun _ _ hu => hu) es s (.inl ⟨rfl, id⟩)
  · exact hrun.imp And.left fun ⟨hs, hb, _⟩ => ⟨hs, hb⟩
  · obtain ⟨hgbyte, hdrawing⟩ | ⟨-, -, hr⟩ := hu
    · obtain ⟨hgbyte', hdrawing'⟩ | ⟨hu, hb⟩ := (answerTaken_of_takeAnswer ht).gbyte
      · exact .inl ⟨hgbyte'.trans hgbyte, hdrawing ∘ hdrawing'⟩
      · exact .inr ⟨hdrawing hu, hb⟩
    · simp [takeAnswer, hr] at ht

/-- The same of an answer and the run after it. -/
theorem runEngine_takeAnswer_gbyte {a : Answer} {s u : State} (h : takeAnswer a s = some u) :
    (runEngine u.env u).gbyte = s.gbyte ∨ (s.drawing ∧ (runEngine u.env u).byteWritten) := by
  obtain ⟨hgbyte, hdrawing⟩ | ⟨hs, hb, hr⟩ := (answerTaken_of_takeAnswer h).gbyte
  · exact (runEngine_gbyte u.env u).imp (·.trans hgbyte) (And.imp_left hdrawing)
  · rw [runEngine_done _ _ hr]
    exact .inr ⟨hs, hb⟩

/-- Only a `GNEXT` that is complete without an error has written `GBYTE` (R37). -/
theorem Executed.gbyte {i : Instr} {s t : State} (h : Executed s i t) (hne : t.gbyte ≠ s.gbyte) :
    i = .gnext ∧ t.byteWritten := by
  cases h with
  | round | outside | loaded | wrongState | gfinal => exact absurd rfl hne
  | ginit =>
    obtain he | ⟨hd | ⟨e, hd⟩, -⟩ := runEngine_gbyte s.env (s.request .openSource (.ginitOpen _ _))
    · exact absurd he hne
    · cases hd
    · cases hd
  | gnextEmits | gnextRefills => exact ⟨rfl, rfl, rfl, Gen.emitted_lt _⟩
  | gnextDraws =>
    obtain he | ⟨-, hb⟩ := runEngine_gbyte s.env (s.request .readByte .gnextSchedule)
    · exact absurd he hne
    · exact ⟨rfl, hb⟩

/-- A transaction that changes `GBYTE` issues a `GNEXT` that is complete without an error. -/
theorem Accepted.gbyte {x : Transaction} {s t : State} (h : Accepted s x t) (hne : t.gbyte ≠ s.gbyte) :
    ∃ v, decode v = .ok .gnext ∧ x = .regWr cmdIndex v ∧ t.byteWritten := by
  cases h with
  | read | illegal => exact absurd rfl hne
  | write v => exact absurd (s.writeReg_sameEngine _ v).gbyte hne
  | memRead a => exact absurd (s.memRead_sameEngine a).gbyte hne
  | memWrite a b => exact absurd (s.memWrite_sameEngine a b).gbyte hne
  | @issued v i _ hv hexec =>
    obtain ⟨rfl, hb⟩ := (executed_of_exec hexec).gbyte hne
    exact ⟨v, hv, rfl, hb⟩

/-- Settles O49: besides the reset, only the emission writes `GBYTE`, and it ends a `GNEXT`. -/
theorem onlyGnextWritesGbyte : Obligations.OnlyGnextWritesGbyte := by
  unfold Obligations.OnlyGnextWritesGbyte
  refine ⟨fun i s t h hne => (executed_of_exec h).gbyte hne, fun s t h hne => ?_⟩
  cases stepped_of_step h with
  | accepted hu hx =>
    cases hu with
    | held hheld hp =>
      obtain ⟨v, hv, rfl, herr, hpending, hbyte⟩ := hx.gbyte hne
      exact .inr ⟨herr, hpending, hbyte, .inr (.inr ⟨hp, v, hv, .inr hheld⟩)⟩
    | presented he hh hp =>
      obtain ⟨v, hv, rfl, herr, hpending, hbyte⟩ := hx.gbyte hne
      exact .inr ⟨herr, hpending, hbyte, .inr (.inr ⟨hp.resolve_right nofun, v, hv, .inl ⟨hh, _, he⟩⟩)⟩
  | answered _ hu =>
    obtain he | ⟨hd, herr, hpending, hbyte⟩ := runEngine_takeAnswer_gbyte hu
    · exact absurd he hne
    · exact .inr ⟨herr, hpending, hbyte, hd.imp_right .inl⟩
  | reset he => exact .inl ⟨_, he⟩
  | silent | holds | ignored => exact absurd rfl hne

end Sys2Proof.Machine
end


section
/-! CERTIFICATE. The statements about the entropy port and about errors: what a step puts on the port, and what a command that
ends with an error has changed. -/

namespace Sys2Proof.Machine

/-! ## The entropy port -/

/-- From `s` to `t` nothing but `EntRead` has gone out, the source is held after one, and a source that was held is held
still. -/
def ReadsOnly (s t : State) : Prop :=
  (s.gen.owned = true → t.gen.owned = true) ∧
    ∃ new, t.portOut = s.portOut ++ new ∧ (∀ m ∈ new, m = .entRead) ∧ (.entRead ∈ new → t.gen.owned = true)

/-- What leaves the port and the ownership as they are. -/
theorem ReadsOnly.of_silent {s t : State} (hport : t.portOut = s.portOut)
    (howned : s.gen.owned = true → t.gen.owned = true) : ReadsOnly s t :=
  ⟨howned, [], by rw [hport, List.append_nil], nofun, nofun⟩

/-- One more request for a byte of a held source. -/
theorem ReadsOnly.of_request {s t : State} (hport : t.portOut = s.portOut ++ [.entRead]) (howned : t.gen.owned = true) :
    ReadsOnly s t :=
  ⟨fun _ => howned, [.entRead], hport, fun _ => List.mem_singleton.mp, fun _ => howned⟩

theorem ReadsOnly.trans {s t u : State} (h : ReadsOnly s t) (h' : ReadsOnly t u) : ReadsOnly s u := by
  obtain ⟨howned, new, hport, hreads, hheld⟩ := h
  obtain ⟨howned', new', hport', hreads', hheld'⟩ := h'
  refine ⟨howned' ∘ howned, new ++ new', by rw [hport', hport, List.append_assoc], fun m hm => ?_, fun hm => ?_⟩
  · exact (List.mem_append.mp hm).elim (hreads m) (hreads' m)
  · exact (List.mem_append.mp hm).elim (howned' ∘ hheld) hheld'

/-- In a legal state an answer makes the engine request bytes of a held source, and nothing else (R164). -/
theorem AnswerTaken.readsOnly {a : Answer} {s t : State} (h : AnswerTaken s a t) (hs : s.Inv) : ReadsOnly s t := by
  obtain ⟨-, -, -, -, -, hflight⟩ := hs
  cases h with
  | unavailable | emitted | settled => exact .of_silent rfl id
  | created => exact .of_silent rfl fun _ => rfl
  | prewarmBegun => exact .of_request rfl rfl
  | @prewarmEnded left work b hp =>
    obtain ⟨-, -, -, -, -, hwork⟩ := (State.flightOk_ginitPrewarm hp).mp hflight
    obtain ⟨-, howned, -⟩ := work.prewarming_iff.mp hwork
    exact .of_silent rfl fun _ => howned
  | prewarmed hp =>
    obtain ⟨-, -, howned, -⟩ := (State.flightOk_ginitPrewarm hp).mp hflight
    exact .of_request rfl howned
  | scheduled hp =>
    obtain ⟨-, -, howned, -⟩ := (State.flightOk_gnext (.inl hp)).mp hflight
    exact .of_request rfl howned

/-- In a legal state a run of the engine requests bytes of a held source, and nothing else. -/
theorem runEngine_readsOnly (es : List Event) {s : State} (hs : s.Inv) : ReadsOnly s (runEngine es s) := by
  have hrun : (runEngine es s).Inv ∧ ReadsOnly s (runEngine es s) :=
    runEngine_keeps (P := fun t => t.Inv ∧ ReadsOnly s t)
      (fun _ _ _ hu ht => ⟨ht.inv hu.1, hu.2.trans (ht.readsOnly hu.1)⟩) (fun _ _ hu => hu) es
      ⟨hs, .of_silent rfl id⟩
  exact hrun.2

/-- What R164 allows a step from `s` to `t` to put on the port. -/
def PortLawful (s t : State) : Prop :=
  ∃ new, t.portOut = s.portOut ++ new ∧
    (countMsg .entOpen new ≤ 1) ∧ (countMsg .entClose new ≤ 1) ∧
    (.entOpen ∈ new → s.gen.owned = false) ∧
    (.entClose ∈ new → s.gen.owned = true ∧ t.gen.owned = false) ∧
    (.entRead ∈ new → t.gen.owned = true)

/-- Requests for bytes are lawful. -/
theorem ReadsOnly.portLawful {s t : State} (h : ReadsOnly s t) : PortLawful s t := by
  obtain ⟨-, new, hport, hreads, hheld⟩ := h
  have hopen : PortMsg.entOpen ∉ new := fun hm => nomatch hreads _ hm
  have hclose : PortMsg.entClose ∉ new := fun hm => nomatch hreads _ hm
  exact ⟨new, hport, (List.count_eq_zero.mpr hopen).trans_le (Nat.zero_le 1),
    (List.count_eq_zero.mpr hclose).trans_le (Nat.zero_le 1), fun hm => absurd hm hopen, fun hm => absurd hm hclose,
    hheld⟩

/-- Requests for bytes are lawful after the source, not held before, has been asked for. -/
theorem ReadsOnly.portLawful_open {s u t : State} (h : ReadsOnly u t) (hu : u.portOut = s.portOut ++ [.entOpen])
    (hfree : s.gen.owned = false) : PortLawful s t := by
  obtain ⟨-, new, hport, hreads, hheld⟩ := h
  have hopen : PortMsg.entOpen ∉ new := fun hm => nomatch hreads _ hm
  have hclose : PortMsg.entClose ∉ .entOpen :: new := fun hm => nomatch hreads _ ((List.mem_cons.mp hm).resolve_left nofun)
  refine ⟨.entOpen :: new, by rw [hport, hu, List.append_assoc]; rfl, ?_,
    (List.count_eq_zero.mpr hclose).trans_le (Nat.zero_le 1), fun _ => hfree, fun hm => absurd hm hclose, fun hm => ?_⟩
  · rw [countMsg, List.count_cons_self, List.count_eq_zero.mpr hopen]
  · exact hheld ((List.mem_cons.mp hm).resolve_left nofun)

/-- Closing a held source is lawful. -/
theorem portLawful_close {s t : State} (hport : t.portOut = s.portOut ++ [.entClose]) (hheld : s.gen.owned = true)
    (hfree : t.gen.owned = false) : PortLawful s t :=
  ⟨[.entClose], hport, by decide, by decide, by simp, fun _ => ⟨hheld, hfree⟩, by simp⟩

/-- A command issued in a legal idle state is lawful on the port (R164). -/
theorem Executed.portLawful {i : Instr} {v : Word} {s t : State} (h : Executed (s.accept v) i t) (hs : s.Inv)
    (hp : s.pending = none) : PortLawful s t := by
  have howned := hs.owned_iff hp
  cases h with
  | round | outside | loaded | wrongState | gnextEmits | gnextRefills => exact (ReadsOnly.of_silent rfl id).portLawful
  | ginit hg =>
    exact (runEngine_readsOnly _ (hs.ginit_request hp hg v _ _)).portLawful_open rfl
      (Bool.eq_false_iff.mpr fun ho => hg (howned.mp ho))
  | gnextDraws hg hleft hctr =>
    have hrequest : ReadsOnly s ((s.accept v).request .readByte .gnextSchedule) := .of_request rfl (howned.mpr hg)
    exact (hrequest.trans (runEngine_readsOnly _ (hs.gnext_request hp hg hleft hctr v))).portLawful
  | gfinal hg => exact portLawful_close rfl (howned.mpr hg) rfl

/-- A transaction that leaves the engine as it is puts nothing on the port. -/
theorem SameEngine.portLawful {s t : State} (h : SameEngine s t) : PortLawful s t :=
  (ReadsOnly.of_silent h.portOut fun ho => h.gen ▸ ho).portLawful

/-- A transaction accepted in a legal state is lawful on the port. -/
theorem Accepted.portLawful {x : Transaction} {s t : State} (h : Accepted s x t) (hs : s.Inv)
    (hp : s.pending = none ∨ x = .regRd statusIndex) : PortLawful s t := by
  cases h with
  | read | illegal => exact (ReadsOnly.of_silent rfl id).portLawful
  | write v => exact (s.writeReg_sameEngine _ v).portLawful
  | memRead a => exact (s.memRead_sameEngine a).portLawful
  | memWrite a b => exact (s.memWrite_sameEngine a b).portLawful
  | issued _ hexec => exact (executed_of_exec hexec).portLawful hs (hp.resolve_right nofun)

/-- Settles O52: only an issued `GINIT` opens, only an issued `GFINAL` and a reset close, and the invariant says when the
source is held. -/
theorem sourceIsOpenedOnceAndClosedOnce : Obligations.SourceIsOpenedOnceAndClosedOnce := by
  unfold Obligations.SourceIsOpenedOnceAndClosedOnce
  intro s t hs h
  change PortLawful s t
  cases stepped_of_step h with
  | accepted hu hx =>
    have hlaw := hx.portLawful (hu.inv hs) hu.idle
    cases hu <;> exact hlaw
  | answered _ hu =>
    have htaken := answerTaken_of_takeAnswer hu
    exact ((htaken.readsOnly hs).trans (runEngine_readsOnly _ (htaken.inv hs))).portLawful
  | @reset rest =>
    cases howned : s.gen.owned with
    | true => exact portLawful_close (by simp [howned]) howned rfl
    | false => exact (ReadsOnly.of_silent (by simp [howned]) (by simp [howned])).portLawful
  | silent | holds | ignored => exact (ReadsOnly.of_silent rfl id).portLawful

/-! ## Errors -/

/-- A command beyond `EntOpen` has left `ESTK` at `e`, and when it is complete it is so without an error. -/
def State.onTrack (e : Bool) (s : State) : Prop :=
  s.estk = e ∧ (s.pending = none → s.err = .ok) ∧ ∀ gw p, s.pending ≠ some (.ginitOpen gw p)

/-- Beyond `EntOpen` no answer raises an error (R212). -/
theorem AnswerTaken.onTrack {a : Answer} {s t : State} {e : Bool} (h : AnswerTaken s a t) (hs : s.onTrack e) :
    t.onTrack e := by
  obtain ⟨hestk, hok, hopen⟩ := hs
  cases h with
  | unavailable hp | created hp | prewarmBegun hp => exact absurd hp (hopen _ _)
  | prewarmEnded | emitted => exact ⟨hestk, fun _ => rfl, nofun⟩
  | prewarmed | scheduled => exact ⟨hestk, nofun, nofun⟩
  | settled => exact ⟨hestk, hok, hopen⟩

/-- Beyond `EntOpen` no run of the engine raises an error. -/
theorem runEngine_onTrack (es : List Event) {s : State} {e : Bool} (hs : s.onTrack e) : (runEngine es s).onTrack e :=
  runEngine_keeps (P := State.onTrack e) (fun _ _ _ hu ht => ht.onTrack hu) (fun _ _ hu => hu) es hs

/-- A command that is complete has left `ESTK` as it was, and ends without an error. -/
def EndsWell (s t : State) : Prop := t.estk = s.estk ∧ (t.pending = none → t.err = .ok)

/-- A `GINIT` that waits on `EntOpen` ends well, unless the answer is UNAVAILABLE (R167, R212). -/
theorem runEngine_ginitOpen {s : State} {gw : GenWidth} {p : Bool} (hp : s.pending = some (.ginitOpen gw p))
    (hr : s.entReq = some .openSource) (es : List Event) :
    (∃ rest, es = .answer (.opened false) :: rest) ∨ EndsWell s (runEngine es s) := by
  by_cases hes : ∃ ok rest, es = .answer (.opened ok) :: rest
  · obtain ⟨ok, rest, rfl⟩ := hes
    cases ok with
    | false => exact .inl ⟨rest, rfl⟩
    | true =>
      right
      cases p with
      | false =>
        rw [runEngine_created hp hr]
        exact ⟨rfl, fun _ => rfl⟩
      | true =>
        rw [runEngine_prewarmBegun hp hr]
        obtain ⟨hestk, hok, -⟩ := runEngine_onTrack (e := s.estk) rest
          (s := { s with
            entReq := some .readByte
            pending := some (.ginitPrewarm 32 { newInstance s.params gw with state := s.gen.state })
            portOut := s.portOut ++ [.entRead]
            gen := { s.gen with owned := true } }) ⟨rfl, nofun, nofun⟩
        exact ⟨hestk, hok⟩
  · push Not at hes
    rw [runEngine_waits_open hr hes]
    exact .inr ⟨rfl, fun hn => absurd (hn.symm.trans hp) nofun⟩

/-- What a command that is complete has changed (R212, R213). -/
theorem Executed.errors {i : Instr} {s t : State} (h : Executed s i t) (ht : t.pending = none) :
    (t.err ≠ .ok ∧ t = { s with err := t.err, estk := true, pending := none }) ∨
    (∃ gw p rest, i = .ginit gw p ∧ s.env = .answer (.opened false) :: rest ∧
      t = { s with err := .sourceUnavailable, estk := true, pending := none, entReq := none, env := rest
                   portOut := s.portOut ++ [.entOpen] }) ∨
    (t.err = .ok ∧ t.estk = s.estk) := by
  cases h with
  | outside | wrongState => exact .inl ⟨nofun, rfl⟩
  | round | loaded | gnextEmits | gnextRefills | gfinal => exact .inr (.inr ⟨rfl, rfl⟩)
  | @ginit gw p =>
    right
    obtain ⟨rest, he⟩ | ⟨hestk, hok⟩ :=
      runEngine_ginitOpen (s := s.request .openSource (.ginitOpen gw p)) rfl rfl s.env
    · refine .inl ⟨gw, p, rest, rfl, he, ?_⟩
      rw [he, runEngine_unavailable rfl rfl]
      rfl
    · exact .inr ⟨hok ht, hestk⟩
  | gnextDraws =>
    obtain ⟨hestk, hok, -⟩ := runEngine_onTrack (e := s.estk) s.env (s := s.request .readByte .gnextSchedule)
      ⟨rfl, nofun, nofun⟩
    exact .inr (.inr ⟨hok ht, hestk⟩)

/-- What a command in flight that is complete after the answers of a step has changed (R212, R213). -/
theorem runEngine_takeAnswer_errors {a : Answer} {rest : List Event} {s u : State} (hp : s.pending ≠ none)
    (he : s.env = .answer a :: rest) (h : takeAnswer a { s with env := rest } = some u)
    (ht : (runEngine u.env u).pending = none) :
    (∃ gw p, s.pending = some (.ginitOpen gw p) ∧ a = .opened false ∧
      runEngine u.env u =
        { s with err := .sourceUnavailable, estk := true, pending := none, entReq := none, env := rest }) ∨
    ((runEngine u.env u).err = .ok ∧ (runEngine u.env u).estk = s.estk) := by
  have henv : u.env = rest := (answerTaken_of_takeAnswer h).env
  by_cases hopen : ∃ gw p, s.pending = some (.ginitOpen gw p)
  · obtain ⟨gw, p, hopen⟩ := hopen
    obtain ⟨ok, rfl, hr, -⟩ | ⟨b, rfl, -, rfl⟩ := takeAnswer_cases h
    · have hrun : runEngine u.env u = runEngine (.answer (.opened ok) :: rest) { s with env := rest } := by
        rw [runEngine_answer rest h, henv]
      rw [hrun] at ht ⊢
      obtain ⟨rest', hrest⟩ | ⟨hestk, hok⟩ :=
        runEngine_ginitOpen (s := { s with env := rest }) hopen hr (.answer (.opened ok) :: rest)
      · cases hrest
        exact .inl ⟨gw, p, hopen, rfl, runEngine_unavailable (s := { s with env := rest }) hopen hr rest⟩
      · exact .inr ⟨hok ht, hestk⟩
    · have hkept : answerRead b ({ s with env := rest } : State).answered =
          ({ s with env := rest } : State).answered := by
        simp [answerRead, hopen]
      rw [hkept, runEngine_done _ _ rfl] at ht
      exact absurd ht hp
  · push Not at hopen
    have hs : ({ s with env := rest } : State).onTrack s.estk := ⟨rfl, fun hn => absurd hn hp, hopen⟩
    obtain ⟨hestk, hok, -⟩ := runEngine_onTrack u.env ((answerTaken_of_takeAnswer h).onTrack hs)
    exact .inr ⟨hok ht, hestk⟩

/-- Settles O53: an error is raised before anything else, but for the one that follows `EntOpen`. -/
theorem errorsChangeOnlyErrAndEstk : Obligations.ErrorsChangeOnlyErrAndEstk := by
  unfold Obligations.ErrorsChangeOnlyErrAndEstk
  refine ⟨fun i s t h ht => ?_, fun s t hp hr h ht => ?_⟩
  · obtain ⟨herr, he⟩ | ⟨gw, p, rest, hi, henv, he⟩ | ⟨hok, hestk⟩ := (executed_of_exec h).errors ht
    · exact ⟨fun _ => .inl he, fun hok => absurd hok herr⟩
    · exact ⟨fun _ => .inr ⟨gw, p, rest, hi, henv, he⟩, fun hok => by rw [he] at hok; cases hok⟩
    · exact ⟨fun herr => absurd hok herr, fun _ => hestk⟩
  · obtain ⟨a, rest, u, he, hu, rfl⟩ | ⟨hkept, -⟩ := step_in_flight hp hr h
    · obtain ⟨gw, p, hopen, rfl, hrun⟩ | ⟨hok, hestk⟩ := runEngine_takeAnswer_errors hp he hu ht
      · exact ⟨fun _ => ⟨gw, p, rest, hopen, he, hrun⟩, fun hok => by rw [hrun] at hok; cases hok⟩
      · exact ⟨fun herr => absurd hok herr, fun _ => hestk⟩
    · exact absurd (hkept.symm.trans ht) hp

end Sys2Proof.Machine
end


section
/-! CERTIFICATE. The statement about the ghosts of 10_state: no step reads them, but to write them. -/

namespace Sys2Proof.Machine

/-! ## The ghosts -/

/-- Two outcomes that differ in the ghosts of their next state only. -/
def SameButGhosts (x y : Host.Outcome State Fault Refusal) : Prop :=
  mapNext (fun t => t.withGhosts none false) x = mapNext (fun t => t.withGhosts none false) y

section
variable (l : Option (Variant × Width)) (m : Bool)

/-- An outcome that only carries other ghosts along. -/
theorem SameButGhosts.of_withGhosts {x y : Host.Outcome State Fault Refusal}
    (h : x = mapNext (fun t => t.withGhosts l m) y) : SameButGhosts x y := by
  subst h
  cases y <;> rfl

/-- The answer to `EntOpen` neither reads nor writes the ghosts. -/
theorem answerOpen_withGhosts (ok : Bool) (s : State) :
    answerOpen ok (s.withGhosts l m) = (answerOpen ok s).withGhosts l m := by
  unfold answerOpen
  rw [show (s.withGhosts l m).pending = s.pending from rfl]
  split
  · rename_i gw p _
    cases ok <;> cases p <;> rfl
  · rfl

/-- The answer to `EntRead` neither reads nor writes the ghosts. -/
theorem answerRead_withGhosts (b : Byte) (s : State) :
    answerRead b (s.withGhosts l m) = (answerRead b s).withGhosts l m := by
  unfold answerRead
  rw [show (s.withGhosts l m).pending = s.pending from rfl]
  split
  · unfold ginitPrewarmed
    split <;> rfl
  all_goals rfl

/-- The engine takes the same answers whatever the ghosts are, and leaves them as they are. -/
theorem takeAnswer_withGhosts (a : Answer) (s : State) :
    takeAnswer a (s.withGhosts l m) = (takeAnswer a s).map (fun t => t.withGhosts l m) := by
  unfold takeAnswer
  rw [show (s.withGhosts l m).entReq = s.entReq from rfl]
  split
  · exact congrArg some (answerOpen_withGhosts l m _ s.answered)
  · exact congrArg some (answerRead_withGhosts l m _ s.answered)
  · rfl

/-- The engine's run neither reads nor writes the ghosts. -/
theorem runEngine_withGhosts : ∀ (es : List Event) (s : State),
    runEngine es (s.withGhosts l m) = (runEngine es s).withGhosts l m
  | [], _ => rfl
  | .answer a :: rest, s => by
    simp only [runEngine, takeAnswer_withGhosts]
    cases takeAnswer a s with
    | none => rfl
    | some t => exact runEngine_withGhosts rest t
  | .host _ :: _, _ | .late _ :: _, _ | .reset :: _, _ | .pause :: _, _ => rfl

/-- A loader neither reads nor writes the ghosts. -/
theorem loaderCommand_withGhosts (a n : Nat) (word : List Byte → Word) (s : State) :
    loaderCommand a n word (s.withGhosts l m) = (loaderCommand a n word s).withGhosts l m := by
  have hbytes : (s.withGhosts l m).messageBytes a n = s.messageBytes a n :=
    State.messageBytes_congr (s := s.withGhosts l m) (s' := s) rfl rfl a n
  unfold loaderCommand
  rw [hbytes, show (s.withGhosts l m).outOfBounds a n = s.outOfBounds a n from rfl]
  split <;> rfl

/-- A generator command neither reads nor writes the ghosts. -/
theorem exec_generator_withGhosts {i : Instr} (h : isGenerator i = true) (s : State) :
    exec i (s.withGhosts l m) = mapNext (fun t => t.withGhosts l m) (exec i s) := by
  have hgen : (s.withGhosts l m).gen = s.gen := rfl
  have henv : (s.withGhosts l m).env = s.env := rfl
  cases i <;> simp only [isGenerator, Bool.false_eq_true] at h
  case ginit gw p =>
    simp only [exec, execGinit, hgen, henv]
    split
    · rfl
    · exact congrArg Host.Outcome.next (runEngine_withGhosts l m _ (s.request .openSource (.ginitOpen gw p)))
  case gnext =>
    simp only [exec, execGnext, hgen, henv]
    split_ifs
    · rfl
    · rfl
    · rfl
    · exact congrArg Host.Outcome.next (runEngine_withGhosts l m _ (s.request .readByte .gnextSchedule))
  case gfinal =>
    simp only [exec, execGfinal, hgen]
    split <;> rfl

/-- A command computes the same whatever the ghosts are; a round overwrites them (R42). -/
theorem exec_withGhosts (i : Instr) (s : State) : SameButGhosts (exec i (s.withGhosts l m)) (exec i s) := by
  cases hg : isGenerator i with
  | true => exact .of_withGhosts l m (exec_generator_withGhosts l m hg s)
  | false =>
    obtain ⟨v, w, inj, hr⟩ | ⟨a, n, hl⟩ := round_or_loader hg
    · obtain ⟨f, hf⟩ := exec_round hr
      rw [hf, hf]
      rfl
    · obtain ⟨word, hw⟩ := exec_loader hl
      refine .of_withGhosts l m ?_
      rw [hw, hw, loaderCommand_withGhosts]
      rfl

/-- A register write stores the same whatever the ghosts are. -/
theorem State.writeReg_withGhosts (i : BitVec 8) (v : Word) (s : State) :
    ((s.withGhosts l m).writeReg i v).withGhosts none false = (s.writeReg i v).withGhosts none false := by
  unfold State.writeReg
  split
  case h_1 => split <;> rfl
  all_goals rfl

/-- A transaction does the same whatever the ghosts are. -/
theorem acceptTransaction_withGhosts (x : Transaction) (s : State) :
    SameButGhosts (acceptTransaction x (s.withGhosts l m)) (acceptTransaction x s) := by
  cases x with
  | regRd i => rfl
  | regWr i v =>
    by_cases hi : i = cmdIndex
    · rw [acceptTransaction, acceptTransaction, if_pos hi, if_pos hi]
      unfold issueCommand
      cases decode v with
      | error e => rfl
      | ok i => exact exec_withGhosts l m i (s.accept v)
    · rw [acceptTransaction, acceptTransaction, if_neg hi, if_neg hi]
      exact congrArg Host.Outcome.next (State.writeReg_withGhosts l m i v s)
  | memRd a =>
    refine .of_withGhosts l m (congrArg Host.Outcome.next ?_)
    unfold State.memRead
    rw [show (s.withGhosts l m).inMemory a = s.inMemory a from rfl]
    split <;> rfl
  | memWr a b =>
    refine .of_withGhosts l m (congrArg Host.Outcome.next ?_)
    unfold State.memWrite
    rw [show (s.withGhosts l m).inMemory a = s.inMemory a from rfl]
    split <;> rfl

/-- An event does the same whatever the ghosts are. -/
theorem applyEvent_withGhosts (e : Event) (s : State) :
    SameButGhosts (applyEvent e (s.withGhosts l m)) (applyEvent e s) := by
  cases e with
  | host x =>
    simp only [applyEvent, presentTransaction]
    rw [show (s.withGhosts l m).held = s.held from rfl, show (s.withGhosts l m).busy = s.busy from rfl]
    split_ifs
    · rfl
    · rfl
    · exact acceptTransaction_withGhosts l m x s
  | answer a =>
    refine .of_withGhosts l m ?_
    simp only [applyEvent, receiveAnswer, takeAnswer_withGhosts]
    cases takeAnswer a s with
    | none => rfl
    | some t => exact congrArg Host.Outcome.next (runEngine_withGhosts l m _ t)
  | late | reset | pause => rfl

/-- A step does the same whatever the ghosts are. -/
theorem step_withGhosts (s : State) : SameButGhosts (step (s.withGhosts l m)) (step s) := by
  by_cases hevent : s.held = none ∨ s.pending ≠ none ∨ ∃ rest, s.env = .reset :: rest
  · rw [step_event (s := s.withGhosts l m) hevent, step_event hevent]
    unfold takeEvent
    rw [show (s.withGhosts l m).env = s.env from rfl]
    split
    · rfl
    · rename_i e rest _
      exact applyEvent_withGhosts l m e { s with env := rest }
  · push Not at hevent
    obtain ⟨hheld, hp, hr⟩ := hevent
    obtain ⟨x, hx⟩ := Option.ne_none_iff_exists'.mp hheld
    rw [step_held (s := s.withGhosts l m) hx hp hr, step_held hx hp hr]
    exact acceptTransaction_withGhosts l m x { s with held := none }

end

/-- Settles O37: the ghosts are carried along unread, and overwritten by a round or a register write. -/
theorem ghostsDoNotAffectTheMachine : Obligations.GhostsDoNotAffectTheMachine := by
  unfold Obligations.GhostsDoNotAffectTheMachine
  exact fun s l m => step_withGhosts l m s

end Sys2Proof.Machine
end


section
/-! CERTIFICATE. The statement about the runs of host programs: how far they can go, and what they show. -/

namespace Sys2Proof.Machine

/-! ## How far a run can go -/

/-- What is left of a run: two for each coming event, and one for a transaction held. -/
def State.remaining (s : State) : Nat := 2 * s.env.length + if s.held = none then 0 else 1

theorem State.remaining_of_free {s : State} (h : s.held = none) : s.remaining = 2 * s.env.length := by
  rw [State.remaining, if_pos h, Nat.add_zero]

theorem State.remaining_of_held {s : State} {x : Transaction} (h : s.held = some x) :
    s.remaining = 2 * s.env.length + 1 := by
  rw [State.remaining, if_neg (h ▸ Option.some_ne_none x)]

/-- At most one transaction is held. -/
theorem State.remaining_le (s : State) : s.remaining ≤ 2 * s.env.length + 1 := by
  unfold State.remaining
  split <;> omega

/-- Taking an event away leaves less, and what is held as it was. -/
theorem State.remaining_lt_of_env {s t : State} (henv : t.env.length < s.env.length) (hheld : t.held = s.held) :
    t.remaining < s.remaining := by
  rw [State.remaining, State.remaining, hheld]
  omega

/-- A run of the engine leaves no more events than it was given. -/
theorem runEngine_env_length : ∀ (es : List Event) (s : State), (runEngine es s).env.length ≤ es.length
  | [], _ => le_rfl
  | .answer a :: rest, s => by
    rw [runEngine]
    cases takeAnswer a s with
    | none => exact le_rfl
    | some t => exact (runEngine_env_length rest t).trans (Nat.le_succ _)
  | .host _ :: _, _ | .late _ :: _, _ | .reset :: _, _ | .pause :: _, _ => le_rfl

/-- A command adds no event and holds no transaction. -/
theorem Executed.env_held {i : Instr} {s t : State} (h : Executed s i t) :
    t.env.length ≤ s.env.length ∧ t.held = s.held := by
  cases h with
  | ginit | gnextDraws => exact ⟨runEngine_env_length _ _, runEngine_held _ _⟩
  | round | outside | loaded | wrongState | gnextEmits | gnextRefills | gfinal => exact ⟨le_rfl, rfl⟩

/-- An accepted transaction adds no event and holds no transaction. -/
theorem Accepted.env_held {x : Transaction} {s t : State} (h : Accepted s x t) :
    t.env.length ≤ s.env.length ∧ t.held = s.held := by
  have hsame {u : State} (hu : SameEngine s u) : u.env.length ≤ s.env.length ∧ u.held = s.held :=
    ⟨(congrArg List.length hu.env).le, hu.held⟩
  cases h with
  | read | illegal => exact ⟨le_rfl, rfl⟩
  | write v => exact hsame (s.writeReg_sameEngine _ v)
  | memRead a => exact hsame (s.memRead_sameEngine a)
  | memWrite a b => exact hsame (s.memWrite_sameEngine a b)
  | @issued v _ _ _ hexec => exact (executed_of_exec hexec).env_held (s := s.accept v)

/-- Every step but one with nothing to do leaves less of the run. -/
theorem Stepped.remaining_lt {s t : State} (h : Stepped s t) (hbusy : s.env ≠ [] ∨ (s.held ≠ none ∧ s.pending = none)) :
    t.remaining < s.remaining := by
  have hshorter {e : Event} {rest : List Event} (he : s.env = e :: rest) : rest.length < s.env.length := by
    rw [he]
    exact Nat.lt_succ_self _
  cases h with
  | accepted hu hx =>
    obtain ⟨henv, hheld⟩ := hx.env_held
    cases hu with
    | held hsome =>
      rw [State.remaining_of_free hheld, State.remaining_of_held hsome]
      exact Nat.lt_succ_of_le (Nat.mul_le_mul_left 2 henv)
    | presented he => exact State.remaining_lt_of_env (henv.trans_lt (hshorter he)) hheld
  | @answered a rest u he hu =>
    have htaken := answerTaken_of_takeAnswer hu
    have henv : (runEngine u.env u).env.length ≤ rest.length := htaken.env ▸ runEngine_env_length u.env u
    exact State.remaining_lt_of_env (henv.trans_lt (hshorter he)) ((runEngine_held _ _).trans htaken.held)
  | @reset rest he =>
    have hlt := hshorter he
    have hfree : s.remaining ≥ 2 * s.env.length := Nat.le_add_right _ _
    rw [State.remaining_of_free rfl, State.applyReset_env]
    dsimp only
    omega
  | silent he hw =>
    obtain hne | ⟨hheld, hp⟩ := hbusy
    · exact absurd he hne
    · exact absurd hp (hw.resolve_left hheld)
  | @holds x rest he hh =>
    have hlt := hshorter he
    rw [State.remaining_of_free hh, State.remaining_of_held (x := x) rfl]
    dsimp only
    omega
  | ignored he => exact State.remaining_lt_of_env (hshorter he) rfl

/-! ## The end of a run -/

/-- The run has ended when no transaction is to come, none is held, and no command is in flight (R200). -/
theorem State.runOver_iff (s : State) :
    s.runOver = true ↔ (∀ e ∈ s.env, e.isHost = false) ∧ s.held = none ∧ s.pending = none := by
  simp [State.runOver, State.busy, and_assoc]

/-- With no event to come a block that waits, or holds nothing, goes on as it is. -/
theorem step_silent {s : State} (he : s.env = []) (hw : s.held = none ∨ s.pending ≠ none) : step s = .next s := by
  rw [step_event (hw.imp_right .inl), takeEvent, he]

/-- A state whose step changes nothing never changes. -/
theorem after_of_step_eq {s : State} (h : step s = .next s) : ∀ k, s.after k = some s
  | 0 => rfl
  | k + 1 => by
    rw [State.after, h]
    exact after_of_step_eq h k

/-- The states after a step are those of the run that begins with it. -/
theorem after_succ {s u : State} (h : step s = .next u) (k : Nat) : s.after (k + 1) = u.after k := by
  rw [State.after, h]

/-- The moves allowed after a step. -/
theorem State.movesAllowed.step {s u : State} (hs : s.movesAllowed) (h : step s = .next u) : u.movesAllowed :=
  fun k t ht => hs (k + 1) t ((after_succ h k).trans ht)

/-- The source stays live after a step. -/
theorem State.entLive.step {s u : State} (hs : s.entLive) (h : step s = .next u) : u.entLive :=
  fun k t ht => hs (k + 1) t ((after_succ h k).trans ht)

/-- A command in flight waits on a request (R161). -/
theorem State.Inv.entReq_ne_none {s : State} (hs : s.Inv) (hp : s.pending ≠ none) : s.entReq ≠ none := by
  obtain ⟨-, -, -, -, -, hflight⟩ := hs
  intro hr
  obtain ⟨p, hp⟩ := Option.ne_none_iff_exists'.mp hp
  cases p <;> simp [State.flightOk, hp, hr] at hflight

/-- With a live source no command waits for ever: when nothing is left to do the run has ended (R162). -/
theorem runOver_of_nothing_left {s : State} (hs : s.Inv) (hlive : s.entLive) (he : s.env = [])
    (hw : s.held = none ∨ s.pending ≠ none) : s.runOver = true := by
  have hp : s.pending = none := by
    by_contra hp
    obtain ⟨j, u, hu, hnext⟩ := hlive 0 s rfl (hs.entReq_ne_none hp)
    rw [after_of_step_eq (step_silent he hw)] at hu
    cases hu
    simp [State.answerNext, resetNext, he] at hnext
  exact s.runOver_iff.mpr ⟨by simp [he], hw.resolve_right (not_not.mpr hp), hp⟩

/-- A run ends within what is left of it (R162, R177). -/
theorem runToEnd_of_remaining_le : ∀ {k : Nat} {s : State}, s.Inv → s.movesAllowed → s.entLive → s.remaining ≤ k →
    ∃ t, s.runToEnd k = some t := by
  intro k
  induction k with
  | zero =>
    intro s hs _ hlive hle
    have hleft : s.env = [] ∧ s.held = none := by
      unfold State.remaining at hle
      split at hle
      · exact ⟨List.length_eq_zero_iff.mp (by omega), (by assumption)⟩
      · omega
    exact ⟨s, if_pos (runOver_of_nothing_left hs hlive hleft.1 (.inl hleft.2))⟩
  | succ k ih =>
    intro s hs hmoves hlive hle
    by_cases hover : s.runOver = true
    · exact ⟨s, if_pos hover⟩
    · obtain ⟨u, hu⟩ := hmoves 0 s rfl
      have hbusy : s.env ≠ [] ∨ (s.held ≠ none ∧ s.pending = none) := by
        by_contra hnothing
        push Not at hnothing
        exact hover (runOver_of_nothing_left hs hlive hnothing.1 (or_iff_not_imp_left.mpr hnothing.2))
      have hstepped := stepped_of_step hu
      have hlt := hstepped.remaining_lt hbusy
      obtain ⟨t, ht⟩ := ih (hstepped.inv hs) (hmoves.step hu) (hlive.step hu) (by omega)
      refine ⟨t, ?_⟩
      rw [State.runToEnd, if_neg hover, hu]
      exact ht

/-! ## Programs of reads and writes -/

/-- A transaction that issues no command answers a next state. -/
theorem exists_acceptTransaction {x : Transaction} (hx : x.issuesCommand = false) (s : State) :
    ∃ t, acceptTransaction x s = .next t := by
  obtain ⟨i, -, he⟩ | ⟨v, rfl, -⟩ | ⟨i, v, -, -, he⟩ | ⟨a, -, he⟩ | ⟨a, b, -, he⟩ := acceptTransaction_cases x s
  case inr.inl => cases hx
  all_goals exact ⟨_, he⟩

/-- A register write returns nothing to the host. -/
theorem State.writeReg_hostOut (i : BitVec 8) (v : Word) (s : State) : (s.writeReg i v).hostOut = s.hostOut := by
  unfold State.writeReg
  split
  case h_1 => split <;> rfl
  all_goals rfl

/-- A transaction that issues no command returns one value when it is a read, and none when it is a write (R190). -/
theorem Accepted.hostOut {x : Transaction} {s t : State} (h : Accepted s x t) (hx : x.issuesCommand = false) :
    ∃ rs, t.hostOut = s.hostOut ++ rs ∧ rs.length = ([x].filter Transaction.isRead).length := by
  cases h with
  | read i => exact ⟨[_], rfl, rfl⟩
  | write v => exact ⟨[], by rw [State.writeReg_hostOut, List.append_nil], rfl⟩
  | memRead a => obtain ⟨-, he⟩ | ⟨-, he⟩ := s.memRead_cases a <;> exact ⟨[_], by rw [he]; rfl, rfl⟩
  | memWrite a b =>
    refine ⟨[], ?_, rfl⟩
    rw [List.append_nil]
    obtain ⟨-, he⟩ | ⟨-, he⟩ := s.memWrite_cases a b <;> rw [he]
  | illegal | issued => cases hx

/-- A program that issues no command ends in one step for each transaction, with one value for each read (R200). -/
theorem runToEnd_of_no_command : ∀ {ts : List Transaction} {s : State}, s.pending = none → s.held = none →
    s.env = ts.map .host → (∀ x ∈ ts, x.issuesCommand = false) →
    ∃ t rs, s.runToEnd ts.length = some t ∧ t.hostOut = s.hostOut ++ rs ∧
      rs.length = (ts.filter Transaction.isRead).length
  | [], s, hp, hh, he, _ => by
    have hover : s.runOver = true := s.runOver_iff.mpr ⟨by simp [he], hh, hp⟩
    exact ⟨s, [], if_pos hover, (List.append_nil _).symm, rfl⟩
  | x :: ts, s, hp, hh, he, hcmd => by
    have hx : x.issuesCommand = false := hcmd x List.mem_cons_self
    have hover : ¬ s.runOver = true := fun hover => by
      have hhost := (s.runOver_iff.mp hover).1 (.host x) (by simp [he])
      cases hhost
    obtain ⟨u, hu⟩ := exists_acceptTransaction hx { s with env := ts.map .host }
    have haccepted := accepted_of_acceptTransaction hu
    have hsame := haccepted.sameEngine hx
    obtain ⟨r, hr, hrlen⟩ := haccepted.hostOut hx
    obtain ⟨t, rs, ht, hrs, hrslen⟩ := runToEnd_of_no_command (hsame.pending.trans hp) (hsame.held.trans hh) hsame.env
      (fun y hy => hcmd y (List.mem_cons_of_mem x hy))
    refine ⟨t, r ++ rs, ?_, ?_, ?_⟩
    · rw [List.length_cons, State.runToEnd, if_neg hover, step_idle_host hp hh he, hu]
      exact ht
    · rw [hrs, hr, List.append_assoc]
    · rw [List.length_append, hrlen, hrslen, ← List.length_append, ← List.filter_append, List.singleton_append]

/-- Settles O60: every step leaves less of the run until nothing is left but to wait, and a live source leaves no command
waiting; without a command each step is one transaction. -/
theorem runsEndWhileTheSourceIsLive : Obligations.RunsEndWhileTheSourceIsLive := by
  unfold Obligations.RunsEndWhileTheSourceIsLive
  refine ⟨fun s hs hmoves hlive => ?_, fun s ts hp hh he hcmd => ?_⟩
  · obtain ⟨t, ht⟩ := runToEnd_of_remaining_le hs hmoves hlive s.remaining_le
    exact ⟨observation s t, by rw [State.observe, ht]; rfl⟩
  · obtain ⟨t, rs, ht, hrs, hlen⟩ := runToEnd_of_no_command hp hh he hcmd
    refine ⟨observation s t, by rw [State.observe, ht]; rfl, ?_⟩
    rw [observation, hrs, List.drop_left, hlen]

end Sys2Proof.Machine
end
